-- ==== Sys2Proof/Word.lean ====
section
/-! DEFINITION. The word types of the hardware (spec/00_scope.md R8): registers, program counter and
instructions are 32 bits, the data port moves 8 bits, a register field is 5 bits. -/

namespace Sys2Proof

/-- A register value, an address or an instruction word: 32 bits (R8, R12). -/
abbrev Word := BitVec 32

/-- One byte of the data space: the unit of every data-port transfer (R52). -/
abbrev Byte := BitVec 8

/-- A register index: a 5-bit instruction field, so every value names a register (R20). -/
abbrev RegIdx := BitVec 5

end Sys2Proof
end

