-- ==== Sys2Proof/Config.lean ====
section
/-! DEFINITION. The parameters a model of this hardware takes as arguments (spec/00_scope.md R9, R10):
three that the spec introduces, with the spec's defaults, and those that the platform fixes. They are
plain data and stand in `State.cfg`, so that a statement about every state is a statement about every
configuration (log entry 1). No step writes them. -/

namespace Sys2Proof

/-- `SLL_LIMIT` (R10, R243): the largest count for which register shift-left shifts. -/
inductive SllLimit where
  | five
  | seven
  deriving DecidableEq, Repr

/-- The number an `SllLimit` stands for. -/
def SllLimit.toNat : SllLimit → Nat
  | .five => 5
  | .seven => 7

/-- `SHR_AMOUNT` (R10, R247): which bits of the count the register right shifts use. -/
inductive ShrAmount where
  | full
  | low5
  deriving DecidableEq, Repr

/-- `AUIPC_BASE` (R10, R302): the program-counter value AUIPC adds to. -/
inductive AuipcBase where
  | instrAddr
  | nextAddr
  deriving DecidableEq, Repr

/-- One row of a destination table: addresses `base` to `base + size - 1` carry `tag`. -/
structure TagRegion where
  base : Nat
  size : Nat
  tag : Nat
  deriving DecidableEq, Repr

/-- `PROG_DEST` or `DATA_DEST` (R9, R100): a pure function of the beat's address, held as plain data.
The first region that holds the address gives its tag, and `fallback` is the tag of every other
address; every function on 32-bit addresses can be written so. -/
structure TagMap where
  regions : List TagRegion
  fallback : Nat
  deriving DecidableEq, Repr

/-- The tag of the first region that holds `a`, else `fallback`. -/
def TagMap.lookup (fallback a : Nat) : List TagRegion → Nat
  | [] => fallback
  | r :: rs => if r.base ≤ a ∧ a < r.base + r.size then r.tag else TagMap.lookup fallback a rs

/-- The destination tag of a beat at address `a` (R100). -/
def TagMap.tag (m : TagMap) (a : Word) : Nat := TagMap.lookup m.fallback a.toNat m.regions

/-- The addresses at which a table's tag can change: 0, and the two ends of every region. -/
def TagMap.cuts (m : TagMap) : List Nat := 0 :: m.regions.flatMap fun r => [r.base, r.base + r.size]

/-- The bounds check of R116: the tag of every 32-bit address names one of `n` ports. Between two
neighbouring cuts the tag is constant, so the check looks at the cuts alone; a region or a fallback that
no address reaches does not count (`TagMap.inRange_iff`, Sys2Proof/Laws/Config.lean). -/
def TagMap.inRange (m : TagMap) (n : Nat) : Bool :=
  m.cuts.all fun b => decide (2 ^ 32 ≤ b ∨ TagMap.lookup m.fallback b m.regions < n)

/-- What stands behind a responder port of the clocked system (spec/22_bus_switch.md R110; the devices
are outside the hardware, R5): the instruction storage, the data storage, or nothing that answers. -/
inductive PortDevice where
  | progMem
  | dataMem
  | absent
  deriving DecidableEq, Repr

/-- A responder output of the switch: `PORT_ADDR_W[p]`, `PORT_DATA_W[p]` (R9) and its device. -/
structure PortParams where
  addrW : Nat
  dataW : Nat
  device : PortDevice
  deriving DecidableEq, Repr

/-- How the core's two ports reach their responders: straight, or through the switch with the program
port on `m[0]` and the data port on `m[1]` (spec/22_bus_switch.md R125). The spec speaks of each port by
itself (R6, spec/21_bus_protocol.md R100, spec/50_core_fsm.md R330) and leaves it to the platform; that
the two ports are wired the same way is the model's. DESIGN CHOICE, log entry 25. -/
inductive Wiring where
  | direct
  | switched
  deriving DecidableEq, Repr

/-- All parameters of R9 and R10. Address widths lie in 1 to 32. -/
structure Config where
  sllLimit : SllLimit
  shrAmount : ShrAmount
  auipcBase : AuipcBase
  iaddrW : Nat
  daddrW : Nat
  wiring : Wiring
  destW : Nat
  ports : List PortParams
  m0AddrW : Nat
  m0DataW : Nat
  m1AddrW : Nat
  m1DataW : Nat
  progDest : TagMap
  dataDest : TagMap
  deriving DecidableEq, Repr

/-- `N_PORTS` (R9): the switch's number of responder outputs. -/
def Config.nPorts (c : Config) : Nat := c.ports.length

/-- The configuration check of R116 and R394: both tag functions name an existing port at every address.
A core port that is wired straight to its responder has no tag (R100). -/
def Config.tagsOk (c : Config) : Bool :=
  match c.wiring with
  | .direct => true
  | .switched => c.progDest.inRange c.nPorts && c.dataDest.inRange c.nPorts

/-- The bounds R9 puts on the platform's parameters. -/
def Config.widthsOk (c : Config) : Bool :=
  decide (1 ≤ c.iaddrW ∧ c.iaddrW ≤ 32 ∧ 1 ≤ c.daddrW ∧ c.daddrW ≤ 32 ∧ 1 ≤ c.nPorts ∧
    c.nPorts ≤ 2 ^ c.destW)

/-- The configuration of the machine after reset: the spec's defaults for the parameters of R10, and
for the platform's parameters, which the spec leaves open, the platform of the spec's own test
programs (95_test_vectors.md Part 3, "through the switch") with full-width addresses.
DESIGN CHOICE, log entry 2. -/
def Config.default : Config where
  sllLimit := .five
  shrAmount := .full
  auipcBase := .instrAddr
  iaddrW := 32
  daddrW := 32
  wiring := .switched
  destW := 1
  ports := [⟨32, 32, .progMem⟩, ⟨32, 8, .dataMem⟩]
  m0AddrW := 32
  m0DataW := 32
  m1AddrW := 32
  m1DataW := 8
  progDest := ⟨[], 0⟩
  dataDest := ⟨[], 1⟩

end Sys2Proof
end

