-- ==== Sys2Proof/Syntax.lean ====
section
/-! DEFINITION. The instructions (spec/30_encoding.md R150 to R155): one constructor per row of
spec/opcode_table.json, with the operands each layout carries (R141 to R146). Offsets of branches and
of JAL are the byte offsets of R148 and R149, whose bit 0 is always 0 (`Instr.wellFormed`). -/

namespace Sys2Proof

/-- The 34 instructions, in the table's order. -/
inductive Instr where
  | add (rd rs1 rs2 : RegIdx)
  | sub (rd rs1 rs2 : RegIdx)
  | sll (rd rs1 rs2 : RegIdx)
  | slt (rd rs1 rs2 : RegIdx)
  | sltu (rd rs1 rs2 : RegIdx)
  | xor (rd rs1 rs2 : RegIdx)
  | srl (rd rs1 rs2 : RegIdx)
  | sra (rd rs1 rs2 : RegIdx)
  | or (rd rs1 rs2 : RegIdx)
  | and (rd rs1 rs2 : RegIdx)
  | addi (rd rs : RegIdx) (imm : BitVec 12)
  | slti (rd rs : RegIdx) (imm : BitVec 12)
  | sltiu (rd rs : RegIdx) (imm : BitVec 12)
  | xori (rd rs : RegIdx) (imm : BitVec 12)
  | andi (rd rs : RegIdx) (imm : BitVec 12)
  | slli (rd rs : RegIdx) (shamt : BitVec 5)
  | srli (rd rs : RegIdx) (shamt : BitVec 5)
  | srai (rd rs : RegIdx) (shamt : BitVec 5)
  | lui (rd : RegIdx) (imm : BitVec 20)
  | auipc (rd : RegIdx) (imm : BitVec 20)
  | jal (rd : RegIdx) (off : BitVec 21)
  | jalr (rd rs : RegIdx) (imm : BitVec 12)
  | beq (rs1 rs2 : RegIdx) (off : BitVec 13)
  | bne (rs1 rs2 : RegIdx) (off : BitVec 13)
  | blt (rs1 rs2 : RegIdx) (off : BitVec 13)
  | bge (rs1 rs2 : RegIdx) (off : BitVec 13)
  | bltu (rs1 rs2 : RegIdx) (off : BitVec 13)
  | bgeu (rs1 rs2 : RegIdx) (off : BitVec 13)
  | lb (rd rs : RegIdx) (imm : BitVec 12)
  | lh (rd rs : RegIdx) (imm : BitVec 12)
  | lw (rd rs : RegIdx) (imm : BitVec 12)
  | sb (rs1 rs2 : RegIdx) (imm : BitVec 12)
  | sh (rs1 rs2 : RegIdx) (imm : BitVec 12)
  | sw (rs1 rs2 : RegIdx) (imm : BitVec 12)
  deriving DecidableEq, Repr

end Sys2Proof
end

