-- ==== Sys2Proof/WellFormed.lean ====
section
/-! DEFINITION. Which instruction terms have an encoding (spec/30_encoding.md R165): every register
index, immediate and shift amount fits its field by its type; an odd branch or JAL offset has no
encoding. -/

namespace Sys2Proof

/-- An offset is even: its bit 0 is 0 (R148, R149). -/
def evenOffset {w : Nat} (off : BitVec w) : Bool := !off.getLsbD 0

/-- The instruction has an encoding (R165). -/
def Instr.wellFormed : Instr → Bool
  | .jal _ off => evenOffset off
  | .beq _ _ off => evenOffset off
  | .bne _ _ off => evenOffset off
  | .blt _ _ off => evenOffset off
  | .bge _ _ off => evenOffset off
  | .bltu _ _ off => evenOffset off
  | .bgeu _ _ off => evenOffset off
  | .add _ _ _ => true
  | .sub _ _ _ => true
  | .sll _ _ _ => true
  | .slt _ _ _ => true
  | .sltu _ _ _ => true
  | .xor _ _ _ => true
  | .srl _ _ _ => true
  | .sra _ _ _ => true
  | .or _ _ _ => true
  | .and _ _ _ => true
  | .addi _ _ _ => true
  | .slti _ _ _ => true
  | .sltiu _ _ _ => true
  | .xori _ _ _ => true
  | .andi _ _ _ => true
  | .slli _ _ _ => true
  | .srli _ _ _ => true
  | .srai _ _ _ => true
  | .lui _ _ => true
  | .auipc _ _ => true
  | .jalr _ _ _ => true
  | .lb _ _ _ => true
  | .lh _ _ _ => true
  | .lw _ _ _ => true
  | .sb _ _ _ => true
  | .sh _ _ _ => true
  | .sw _ _ _ => true

end Sys2Proof
end

