-- ==== Sys2Proof/Decode.lean ====
section
/-! DEFINITION. Decoding and encoding (spec/30_encoding.md): the fields of the six layouts (R141 to
R146), the immediates (R147 to R149), the opcode map (R150 to R155), the fatal words (R157, with the
reasons of spec/60_exceptions.md R381), and the encoder (R165 and the encoding line of every
instruction's rule). The numeric opcode and function values are those the spec lists; the spec takes
them from RV32I (log entry 19). -/

namespace Sys2Proof

/-- The nine instruction classes (spec/00_scope.md R16, spec/30_encoding.md R150). -/
inductive InstrClass where
  | alu
  | alui
  | lui
  | auipc
  | jal
  | jalr
  | branch
  | load
  | store
  deriving DecidableEq, Repr

/-- The width of a data access (R61, R154). -/
inductive AccessWidth where
  | byte
  | half
  | word
  deriving DecidableEq, Repr

/-- The six comparisons of the branches (R153). -/
inductive BranchCond where
  | eq
  | ne
  | lt
  | ge
  | ltu
  | geu
  deriving DecidableEq, Repr

/-- The reasons of the fatal halt (spec/60_exceptions.md R381). The hardware records none of them: they
exist only so that a run's end can be named. -/
inductive HaltReason where
  | opcode
  | aluRegFunct
  | aluImmFunct
  | shiftImmTop5
  | branchFunct
  | loadFunct
  | storeFunct
  deriving DecidableEq, Repr

/-- What the decoder says of a word (R156, R157, R332): an instruction of the subset, a fatal word with
its reason, or a word with the JALR opcode and another function value than `000`, for which the spec
defines no behaviour (R155). -/
inductive Decoded where
  | instr (i : Instr)
  | fatal (r : HaltReason)
  | unspecJalr
  deriving DecidableEq, Repr

/-! ### Fields (R141 to R146) -/

/-- The value of `w` bits that has the bits of `v` from bit `lo` up and zeros elsewhere. -/
def fieldAt (w : Nat) {n : Nat} (v : BitVec n) (lo : Nat) : BitVec w := v.setWidth w <<< lo

/-- `opcode` = word[6:0], in every layout. -/
def opcodeOf (w : Word) : BitVec 7 := w.extractLsb' 0 7

/-- `rd` = word[11:7] (layouts R, I, U, J). -/
def rdOf (w : Word) : RegIdx := w.extractLsb' 7 5

/-- `funct_lo` / `funct` = word[14:12] (layouts R, I, S, B). -/
def functOf (w : Word) : BitVec 3 := w.extractLsb' 12 3

/-- `rs1` / `rs` = word[19:15] (layouts R, I, S, B). -/
def rs1Of (w : Word) : RegIdx := w.extractLsb' 15 5

/-- `rs2` = word[24:20] (layouts R, S, B). -/
def rs2Of (w : Word) : RegIdx := w.extractLsb' 20 5

/-- `funct_hi` = word[31:25] (layout R). -/
def functHiOf (w : Word) : BitVec 7 := w.extractLsb' 25 7

/-- The shift amount of an immediate shift = word[24:20] (R147, spec/44_alu_imm.md R270). -/
def shamtOf (w : Word) : BitVec 5 := w.extractLsb' 20 5

/-- The top five bits word[31:27], the selector of the immediate right shifts (R152). -/
def top5Of (w : Word) : BitVec 5 := w.extractLsb' 27 5

/-- The 12-bit immediate of layout I = word[31:20] (R142). -/
def immIOf (w : Word) : BitVec 12 := w.extractLsb' 20 12

/-- The 12-bit immediate of layout S = word[31:25] ++ word[11:7] (R144, R147). -/
def immSOf (w : Word) : BitVec 12 :=
  fieldAt 12 (w.extractLsb' 25 7) 5 ||| fieldAt 12 (w.extractLsb' 7 5) 0

/-- The 20-bit immediate of layout U = word[31:12] (R143). -/
def immUOf (w : Word) : BitVec 20 := w.extractLsb' 12 20

/-- The JAL offset, reassembled (R148): word[31] ++ word[19:12] ++ word[20] ++ word[30:21] ++ 0. -/
def offJOf (w : Word) : BitVec 21 :=
  fieldAt 21 (w.extractLsb' 31 1) 20 ||| fieldAt 21 (w.extractLsb' 12 8) 12 |||
    fieldAt 21 (w.extractLsb' 20 1) 11 ||| fieldAt 21 (w.extractLsb' 21 10) 1

/-- The branch offset, reassembled (R149): word[31] ++ word[7] ++ word[30:25] ++ word[11:8] ++ 0. -/
def offBOf (w : Word) : BitVec 13 :=
  fieldAt 13 (w.extractLsb' 31 1) 12 ||| fieldAt 13 (w.extractLsb' 7 1) 11 |||
    fieldAt 13 (w.extractLsb' 25 6) 5 ||| fieldAt 13 (w.extractLsb' 8 4) 1

/-! ### Opcodes (R150) -/

/-- Register-register arithmetic. -/
def opAlu : BitVec 7 := 0b0110011#7
/-- Register-immediate arithmetic. -/
def opAluImm : BitVec 7 := 0b0010011#7
/-- Upper-immediate load. -/
def opLui : BitVec 7 := 0b0110111#7
/-- Add-upper-immediate-to-pc. -/
def opAuipc : BitVec 7 := 0b0010111#7
/-- Jump-and-link. -/
def opJal : BitVec 7 := 0b1101111#7
/-- Jump-and-link-register. -/
def opJalr : BitVec 7 := 0b1100111#7
/-- Branch. -/
def opBranch : BitVec 7 := 0b1100011#7
/-- Memory load. -/
def opLoad : BitVec 7 := 0b0000011#7
/-- Memory store. -/
def opStore : BitVec 7 := 0b0100011#7

/-! ### Decoding -/

/-- Register-register arithmetic: the ten (`funct_hi`, `funct_lo`) pairs of R151; every other pair is
fatal (spec/43_alu_reg.md R251). -/
def decodeAlu (w : Word) : Decoded :=
  let rd := rdOf w
  let rs1 := rs1Of w
  let rs2 := rs2Of w
  if functHiOf w = 0b0000000#7 then
    if functOf w = 0b000#3 then .instr (.add rd rs1 rs2)
    else if functOf w = 0b001#3 then .instr (.sll rd rs1 rs2)
    else if functOf w = 0b010#3 then .instr (.slt rd rs1 rs2)
    else if functOf w = 0b011#3 then .instr (.sltu rd rs1 rs2)
    else if functOf w = 0b100#3 then .instr (.xor rd rs1 rs2)
    else if functOf w = 0b101#3 then .instr (.srl rd rs1 rs2)
    else if functOf w = 0b110#3 then .instr (.or rd rs1 rs2)
    else .instr (.and rd rs1 rs2)
  else if functHiOf w = 0b0100000#7 then
    if functOf w = 0b000#3 then .instr (.sub rd rs1 rs2)
    else if functOf w = 0b101#3 then .instr (.sra rd rs1 rs2)
    else .fatal .aluRegFunct
  else .fatal .aluRegFunct

/-- Register-immediate arithmetic (R152): `funct` `110` is fatal (spec/44_alu_imm.md R279), and so is an
immediate right shift whose top five bits are neither `00000` nor `01000` (R280). The bits that R160
names are not examined (log entry 12). -/
def decodeAluImm (w : Word) : Decoded :=
  let rd := rdOf w
  let rs := rs1Of w
  if functOf w = 0b000#3 then .instr (.addi rd rs (immIOf w))
  else if functOf w = 0b001#3 then .instr (.slli rd rs (shamtOf w))
  else if functOf w = 0b010#3 then .instr (.slti rd rs (immIOf w))
  else if functOf w = 0b011#3 then .instr (.sltiu rd rs (immIOf w))
  else if functOf w = 0b100#3 then .instr (.xori rd rs (immIOf w))
  else if functOf w = 0b101#3 then
    if top5Of w = 0b00000#5 then .instr (.srli rd rs (shamtOf w))
    else if top5Of w = 0b01000#5 then .instr (.srai rd rs (shamtOf w))
    else .fatal .shiftImmTop5
  else if functOf w = 0b110#3 then .fatal .aluImmFunct
  else .instr (.andi rd rs (immIOf w))

/-- Branch (R153): `funct` `010` and `011` select no comparison and are fatal
(spec/40_branch.md R187). -/
def decodeBranch (w : Word) : Decoded :=
  let rs1 := rs1Of w
  let rs2 := rs2Of w
  if functOf w = 0b000#3 then .instr (.beq rs1 rs2 (offBOf w))
  else if functOf w = 0b001#3 then .instr (.bne rs1 rs2 (offBOf w))
  else if functOf w = 0b100#3 then .instr (.blt rs1 rs2 (offBOf w))
  else if functOf w = 0b101#3 then .instr (.bge rs1 rs2 (offBOf w))
  else if functOf w = 0b110#3 then .instr (.bltu rs1 rs2 (offBOf w))
  else if functOf w = 0b111#3 then .instr (.bgeu rs1 rs2 (offBOf w))
  else .fatal .branchFunct

/-- Memory load (R154): a `funct` that names no width is fatal (spec/41_load.md R204). -/
def decodeLoad (w : Word) : Decoded :=
  if functOf w = 0b000#3 then .instr (.lb (rdOf w) (rs1Of w) (immIOf w))
  else if functOf w = 0b001#3 then .instr (.lh (rdOf w) (rs1Of w) (immIOf w))
  else if functOf w = 0b010#3 then .instr (.lw (rdOf w) (rs1Of w) (immIOf w))
  else .fatal .loadFunct

/-- Memory store (R154): a `funct` that names no width is fatal (spec/42_store.md R224). -/
def decodeStore (w : Word) : Decoded :=
  if functOf w = 0b000#3 then .instr (.sb (rs1Of w) (rs2Of w) (immSOf w))
  else if functOf w = 0b001#3 then .instr (.sh (rs1Of w) (rs2Of w) (immSOf w))
  else if functOf w = 0b010#3 then .instr (.sw (rs1Of w) (rs2Of w) (immSOf w))
  else .fatal .storeFunct

/-- Decoding a word: the opcode first, then the function fields of its class, and no other bit (R156).
Total: a word of no class is fatal (R157), a JALR word with another `funct` than `000` is unspecified
(R155). -/
def decode (w : Word) : Decoded :=
  if opcodeOf w = opAlu then decodeAlu w
  else if opcodeOf w = opAluImm then decodeAluImm w
  else if opcodeOf w = opLui then .instr (.lui (rdOf w) (immUOf w))
  else if opcodeOf w = opAuipc then .instr (.auipc (rdOf w) (immUOf w))
  else if opcodeOf w = opJal then .instr (.jal (rdOf w) (offJOf w))
  else if opcodeOf w = opJalr then
    if functOf w = 0b000#3 then .instr (.jalr (rdOf w) (rs1Of w) (immIOf w)) else .unspecJalr
  else if opcodeOf w = opBranch then decodeBranch w
  else if opcodeOf w = opLoad then decodeLoad w
  else if opcodeOf w = opStore then decodeStore w
  else .fatal .opcode

/-- The instruction of a table row's bits: the word whose low `nbits` bits are those of `w` and whose
other bits are 0. An instruction is one 32-bit word, moved as one unit (R140, spec/20_memory.md R57). -/
def decodeTableWord (nbits w : Nat) : Option Instr :=
  match decode (BitVec.ofNat 32 (w % 2 ^ nbits)) with
  | .instr i => some i
  | .fatal _ => none
  | .unspecJalr => none

/-! ### Classes and the fields the clocked core reads from `ir` (R332) -/

/-- The class of an instruction (R150). -/
def Instr.cls : Instr → InstrClass
  | .add _ _ _ => .alu
  | .sub _ _ _ => .alu
  | .sll _ _ _ => .alu
  | .slt _ _ _ => .alu
  | .sltu _ _ _ => .alu
  | .xor _ _ _ => .alu
  | .srl _ _ _ => .alu
  | .sra _ _ _ => .alu
  | .or _ _ _ => .alu
  | .and _ _ _ => .alu
  | .addi _ _ _ => .alui
  | .slti _ _ _ => .alui
  | .sltiu _ _ _ => .alui
  | .xori _ _ _ => .alui
  | .andi _ _ _ => .alui
  | .slli _ _ _ => .alui
  | .srli _ _ _ => .alui
  | .srai _ _ _ => .alui
  | .lui _ _ => .lui
  | .auipc _ _ => .auipc
  | .jal _ _ => .jal
  | .jalr _ _ _ => .jalr
  | .beq _ _ _ => .branch
  | .bne _ _ _ => .branch
  | .blt _ _ _ => .branch
  | .bge _ _ _ => .branch
  | .bltu _ _ _ => .branch
  | .bgeu _ _ _ => .branch
  | .lb _ _ _ => .load
  | .lh _ _ _ => .load
  | .lw _ _ _ => .load
  | .sb _ _ _ => .store
  | .sh _ _ _ => .store
  | .sw _ _ _ => .store

/-- The classes that finish in the decode cycle and do not touch `pc` (R332). -/
def InstrClass.single : InstrClass → Bool
  | .alu => true
  | .alui => true
  | .lui => true
  | .auipc => true
  | .jal => false
  | .jalr => false
  | .branch => false
  | .load => false
  | .store => false

/-- `single(ir)` (R332). -/
def single (w : Word) : Bool :=
  match decode w with
  | .instr i => i.cls.single
  | .fatal _ => false
  | .unspecJalr => false

/-- `n(ir)`: the beats of a load or store, by its `funct` (R332, R154). Only `000`, `001`, `010` occur. -/
def beatsOf (w : Word) : Nat :=
  if functOf w = 0b000#3 then 1 else if functOf w = 0b001#3 then 2 else 4

/-- The comparison a branch word's `funct` selects (R153). -/
def condOf (w : Word) : Option BranchCond :=
  if functOf w = 0b000#3 then some .eq
  else if functOf w = 0b001#3 then some .ne
  else if functOf w = 0b100#3 then some .lt
  else if functOf w = 0b101#3 then some .ge
  else if functOf w = 0b110#3 then some .ltu
  else if functOf w = 0b111#3 then some .geu
  else none

/-! ### Encoding -/

/-- Layout R (R141). -/
def encR (functHi : BitVec 7) (rs2 rs1 : RegIdx) (functLo : BitVec 3) (rd : RegIdx)
    (op : BitVec 7) : Word :=
  fieldAt 32 functHi 25 ||| fieldAt 32 rs2 20 ||| fieldAt 32 rs1 15 ||| fieldAt 32 functLo 12 |||
    fieldAt 32 rd 7 ||| fieldAt 32 op 0

/-- Layout I (R142). -/
def encI (imm : BitVec 12) (rs : RegIdx) (funct : BitVec 3) (rd : RegIdx) (op : BitVec 7) : Word :=
  fieldAt 32 imm 20 ||| fieldAt 32 rs 15 ||| fieldAt 32 funct 12 ||| fieldAt 32 rd 7 |||
    fieldAt 32 op 0

/-- Layout U (R143). -/
def encU (imm : BitVec 20) (rd : RegIdx) (op : BitVec 7) : Word :=
  fieldAt 32 imm 12 ||| fieldAt 32 rd 7 ||| fieldAt 32 op 0

/-- Layout S (R144): `imm_hi` is imm[11:5] and `imm_lo` is imm[4:0]. -/
def encS (imm : BitVec 12) (rs2 rs1 : RegIdx) (funct : BitVec 3) (op : BitVec 7) : Word :=
  fieldAt 32 (imm.extractLsb' 5 7) 25 ||| fieldAt 32 rs2 20 ||| fieldAt 32 rs1 15 |||
    fieldAt 32 funct 12 ||| fieldAt 32 (imm.extractLsb' 0 5) 7 ||| fieldAt 32 op 0

/-- Layout J, the offset scattered as R165 says: word[31] = o[20], word[30:21] = o[10:1],
word[20] = o[11], word[19:12] = o[19:12]. -/
def encJ (off : BitVec 21) (rd : RegIdx) (op : BitVec 7) : Word :=
  fieldAt 32 (off.extractLsb' 20 1) 31 ||| fieldAt 32 (off.extractLsb' 1 10) 21 |||
    fieldAt 32 (off.extractLsb' 11 1) 20 ||| fieldAt 32 (off.extractLsb' 12 8) 12 |||
    fieldAt 32 rd 7 ||| fieldAt 32 op 0

/-- Layout B, the offset scattered as R165 says: word[31] = o[12], word[30:25] = o[10:5],
word[11:8] = o[4:1], word[7] = o[11]. -/
def encB (off : BitVec 13) (rs2 rs1 : RegIdx) (funct : BitVec 3) (op : BitVec 7) : Word :=
  fieldAt 32 (off.extractLsb' 12 1) 31 ||| fieldAt 32 (off.extractLsb' 5 6) 25 |||
    fieldAt 32 rs2 20 ||| fieldAt 32 rs1 15 ||| fieldAt 32 funct 12 |||
    fieldAt 32 (off.extractLsb' 1 4) 8 ||| fieldAt 32 (off.extractLsb' 11 1) 7 ||| fieldAt 32 op 0

/-- The word of a well-formed instruction. Bits that the decoder does not examine are 0, as R160 asks of
an assembler. -/
def encode : Instr → Word
  | .add rd rs1 rs2 => encR 0b0000000#7 rs2 rs1 0b000#3 rd opAlu
  | .sub rd rs1 rs2 => encR 0b0100000#7 rs2 rs1 0b000#3 rd opAlu
  | .sll rd rs1 rs2 => encR 0b0000000#7 rs2 rs1 0b001#3 rd opAlu
  | .slt rd rs1 rs2 => encR 0b0000000#7 rs2 rs1 0b010#3 rd opAlu
  | .sltu rd rs1 rs2 => encR 0b0000000#7 rs2 rs1 0b011#3 rd opAlu
  | .xor rd rs1 rs2 => encR 0b0000000#7 rs2 rs1 0b100#3 rd opAlu
  | .srl rd rs1 rs2 => encR 0b0000000#7 rs2 rs1 0b101#3 rd opAlu
  | .sra rd rs1 rs2 => encR 0b0100000#7 rs2 rs1 0b101#3 rd opAlu
  | .or rd rs1 rs2 => encR 0b0000000#7 rs2 rs1 0b110#3 rd opAlu
  | .and rd rs1 rs2 => encR 0b0000000#7 rs2 rs1 0b111#3 rd opAlu
  | .addi rd rs imm => encI imm rs 0b000#3 rd opAluImm
  | .slti rd rs imm => encI imm rs 0b010#3 rd opAluImm
  | .sltiu rd rs imm => encI imm rs 0b011#3 rd opAluImm
  | .xori rd rs imm => encI imm rs 0b100#3 rd opAluImm
  | .andi rd rs imm => encI imm rs 0b111#3 rd opAluImm
  | .slli rd rs shamt => encR 0b0000000#7 shamt rs 0b001#3 rd opAluImm
  | .srli rd rs shamt => encR 0b0000000#7 shamt rs 0b101#3 rd opAluImm
  | .srai rd rs shamt => encR 0b0100000#7 shamt rs 0b101#3 rd opAluImm
  | .lui rd imm => encU imm rd opLui
  | .auipc rd imm => encU imm rd opAuipc
  | .jal rd off => encJ off rd opJal
  | .jalr rd rs imm => encI imm rs 0b000#3 rd opJalr
  | .beq rs1 rs2 off => encB off rs2 rs1 0b000#3 opBranch
  | .bne rs1 rs2 off => encB off rs2 rs1 0b001#3 opBranch
  | .blt rs1 rs2 off => encB off rs2 rs1 0b100#3 opBranch
  | .bge rs1 rs2 off => encB off rs2 rs1 0b101#3 opBranch
  | .bltu rs1 rs2 off => encB off rs2 rs1 0b110#3 opBranch
  | .bgeu rs1 rs2 off => encB off rs2 rs1 0b111#3 opBranch
  | .lb rd rs imm => encI imm rs 0b000#3 rd opLoad
  | .lh rd rs imm => encI imm rs 0b001#3 rd opLoad
  | .lw rd rs imm => encI imm rs 0b010#3 rd opLoad
  | .sb rs1 rs2 imm => encS imm rs2 rs1 0b000#3 opStore
  | .sh rs1 rs2 imm => encS imm rs2 rs1 0b001#3 opStore
  | .sw rs1 rs2 imm => encS imm rs2 rs1 0b010#3 opStore

/-! ### The opcode table (spec/opcode_table.json) -/

/-- A row of the table: a word `w` is the row's instruction when `w & mask == match`. -/
structure TableRow where
  mnemonic : String
  mask : Word
  bits : Word
  deriving DecidableEq, Repr

/-- The row of an instruction: its mnemonic, its `mask` and its `match`. -/
def Instr.row : Instr → TableRow
  | .add _ _ _ => ⟨"ADD", 0xFE00707F#32, 0x00000033#32⟩
  | .sub _ _ _ => ⟨"SUB", 0xFE00707F#32, 0x40000033#32⟩
  | .sll _ _ _ => ⟨"SLL", 0xFE00707F#32, 0x00001033#32⟩
  | .slt _ _ _ => ⟨"SLT", 0xFE00707F#32, 0x00002033#32⟩
  | .sltu _ _ _ => ⟨"SLTU", 0xFE00707F#32, 0x00003033#32⟩
  | .xor _ _ _ => ⟨"XOR", 0xFE00707F#32, 0x00004033#32⟩
  | .srl _ _ _ => ⟨"SRL", 0xFE00707F#32, 0x00005033#32⟩
  | .sra _ _ _ => ⟨"SRA", 0xFE00707F#32, 0x40005033#32⟩
  | .or _ _ _ => ⟨"OR", 0xFE00707F#32, 0x00006033#32⟩
  | .and _ _ _ => ⟨"AND", 0xFE00707F#32, 0x00007033#32⟩
  | .addi _ _ _ => ⟨"ADDI", 0x0000707F#32, 0x00000013#32⟩
  | .slti _ _ _ => ⟨"SLTI", 0x0000707F#32, 0x00002013#32⟩
  | .sltiu _ _ _ => ⟨"SLTIU", 0x0000707F#32, 0x00003013#32⟩
  | .xori _ _ _ => ⟨"XORI", 0x0000707F#32, 0x00004013#32⟩
  | .andi _ _ _ => ⟨"ANDI", 0x0000707F#32, 0x00007013#32⟩
  | .slli _ _ _ => ⟨"SLLI", 0x0000707F#32, 0x00001013#32⟩
  | .srli _ _ _ => ⟨"SRLI", 0xF800707F#32, 0x00005013#32⟩
  | .srai _ _ _ => ⟨"SRAI", 0xF800707F#32, 0x40005013#32⟩
  | .lui _ _ => ⟨"LUI", 0x0000007F#32, 0x00000037#32⟩
  | .auipc _ _ => ⟨"AUIPC", 0x0000007F#32, 0x00000017#32⟩
  | .jal _ _ => ⟨"JAL", 0x0000007F#32, 0x0000006F#32⟩
  | .jalr _ _ _ => ⟨"JALR", 0x0000707F#32, 0x00000067#32⟩
  | .beq _ _ _ => ⟨"BEQ", 0x0000707F#32, 0x00000063#32⟩
  | .bne _ _ _ => ⟨"BNE", 0x0000707F#32, 0x00001063#32⟩
  | .blt _ _ _ => ⟨"BLT", 0x0000707F#32, 0x00004063#32⟩
  | .bge _ _ _ => ⟨"BGE", 0x0000707F#32, 0x00005063#32⟩
  | .bltu _ _ _ => ⟨"BLTU", 0x0000707F#32, 0x00006063#32⟩
  | .bgeu _ _ _ => ⟨"BGEU", 0x0000707F#32, 0x00007063#32⟩
  | .lb _ _ _ => ⟨"LB", 0x0000707F#32, 0x00000003#32⟩
  | .lh _ _ _ => ⟨"LH", 0x0000707F#32, 0x00001003#32⟩
  | .lw _ _ _ => ⟨"LW", 0x0000707F#32, 0x00002003#32⟩
  | .sb _ _ _ => ⟨"SB", 0x0000707F#32, 0x00000023#32⟩
  | .sh _ _ _ => ⟨"SH", 0x0000707F#32, 0x00001023#32⟩
  | .sw _ _ _ => ⟨"SW", 0x0000707F#32, 0x00002023#32⟩

/-- A word is a row's instruction (spec/30_encoding.md, opening). -/
def TableRow.covers (r : TableRow) (w : Word) : Prop := w &&& r.mask = r.bits

/-- The rows of spec/opcode_table.json, in its order. -/
def tableRows : List TableRow :=
  let z : RegIdx := 0#5
  [Instr.row (.add z z z), Instr.row (.sub z z z), Instr.row (.sll z z z), Instr.row (.slt z z z),
    Instr.row (.sltu z z z), Instr.row (.xor z z z), Instr.row (.srl z z z), Instr.row (.sra z z z),
    Instr.row (.or z z z), Instr.row (.and z z z)] ++
  [Instr.row (.addi z z 0#12), Instr.row (.slti z z 0#12), Instr.row (.sltiu z z 0#12),
    Instr.row (.xori z z 0#12), Instr.row (.andi z z 0#12), Instr.row (.slli z z 0#5),
    Instr.row (.srli z z 0#5), Instr.row (.srai z z 0#5)] ++
  [Instr.row (.lui z 0#20), Instr.row (.auipc z 0#20), Instr.row (.jal z 0#21),
    Instr.row (.jalr z z 0#12)] ++
  [Instr.row (.beq z z 0#13), Instr.row (.bne z z 0#13), Instr.row (.blt z z 0#13),
    Instr.row (.bge z z 0#13), Instr.row (.bltu z z 0#13), Instr.row (.bgeu z z 0#13)] ++
  [Instr.row (.lb z z 0#12), Instr.row (.lh z z 0#12), Instr.row (.lw z z 0#12),
    Instr.row (.sb z z 0#12), Instr.row (.sh z z 0#12), Instr.row (.sw z z 0#12)]

/-- The bits of an instruction's word that the decoder examines: all of them but those R160 names. -/
def Instr.examined : Instr → Word
  | .add _ _ _ => 0xFFFFFFFF#32
  | .sub _ _ _ => 0xFFFFFFFF#32
  | .sll _ _ _ => 0xFFFFFFFF#32
  | .slt _ _ _ => 0xFFFFFFFF#32
  | .sltu _ _ _ => 0xFFFFFFFF#32
  | .xor _ _ _ => 0xFFFFFFFF#32
  | .srl _ _ _ => 0xFFFFFFFF#32
  | .sra _ _ _ => 0xFFFFFFFF#32
  | .or _ _ _ => 0xFFFFFFFF#32
  | .and _ _ _ => 0xFFFFFFFF#32
  | .addi _ _ _ => 0xFFFFFFFF#32
  | .slti _ _ _ => 0xFFFFFFFF#32
  | .sltiu _ _ _ => 0xFFFFFFFF#32
  | .xori _ _ _ => 0xFFFFFFFF#32
  | .andi _ _ _ => 0xFFFFFFFF#32
  | .slli _ _ _ => 0x01FFFFFF#32
  | .srli _ _ _ => 0xF9FFFFFF#32
  | .srai _ _ _ => 0xF9FFFFFF#32
  | .lui _ _ => 0xFFFFFFFF#32
  | .auipc _ _ => 0xFFFFFFFF#32
  | .jal _ _ => 0xFFFFFFFF#32
  | .jalr _ _ _ => 0xFFFFFFFF#32
  | .beq _ _ _ => 0xFFFFFFFF#32
  | .bne _ _ _ => 0xFFFFFFFF#32
  | .blt _ _ _ => 0xFFFFFFFF#32
  | .bge _ _ _ => 0xFFFFFFFF#32
  | .bltu _ _ _ => 0xFFFFFFFF#32
  | .bgeu _ _ _ => 0xFFFFFFFF#32
  | .lb _ _ _ => 0xFFFFFFFF#32
  | .lh _ _ _ => 0xFFFFFFFF#32
  | .lw _ _ _ => 0xFFFFFFFF#32
  | .sb _ _ _ => 0xFFFFFFFF#32
  | .sh _ _ _ => 0xFFFFFFFF#32
  | .sw _ _ _ => 0xFFFFFFFF#32

/-- The condition R381 puts on a word for each halt reason. -/
def haltCondition (w : Word) : HaltReason → Prop
  | .opcode => opcodeOf w ≠ opAlu ∧ opcodeOf w ≠ opAluImm ∧ opcodeOf w ≠ opLui ∧
      opcodeOf w ≠ opAuipc ∧ opcodeOf w ≠ opJal ∧ opcodeOf w ≠ opJalr ∧ opcodeOf w ≠ opBranch ∧
      opcodeOf w ≠ opLoad ∧ opcodeOf w ≠ opStore
  | .aluRegFunct => opcodeOf w = opAlu ∧ functHiOf w ≠ 0b0000000#7 ∧
      ¬ (functHiOf w = 0b0100000#7 ∧ (functOf w = 0b000#3 ∨ functOf w = 0b101#3))
  | .aluImmFunct => opcodeOf w = opAluImm ∧ functOf w = 0b110#3
  | .shiftImmTop5 => opcodeOf w = opAluImm ∧ functOf w = 0b101#3 ∧ top5Of w ≠ 0b00000#5 ∧
      top5Of w ≠ 0b01000#5
  | .branchFunct => opcodeOf w = opBranch ∧ (functOf w = 0b010#3 ∨ functOf w = 0b011#3)
  | .loadFunct => opcodeOf w = opLoad ∧ 3 ≤ (functOf w).toNat
  | .storeFunct => opcodeOf w = opStore ∧ 3 ≤ (functOf w).toNat

end Sys2Proof
end

