-- ==== Sys2Proof/Machine/State.lean ====
section
/-! DEFINITION. The state of the machine (spec/10_state.md), as plain data: every register of the core,
architectural and hidden (R20 to R40), the switch's one bit (R41), the two address spaces the core
reaches (R43, spec/20_memory.md R50), and the configuration. Beside it the outcomes that are not a next
state, and the machine after reset (R44). -/

namespace Sys2Proof.Machine

/-- The execute state `xs` (R37). -/
inductive ExecState where
  | none
  | branch
  | load
  | store
  deriving DecidableEq, Repr

/-- A master input of the switch, and the value of `select` that names it (R41): `m0` is 0, `m1` is 1. -/
inductive MasterId where
  | m0
  | m1
  deriving DecidableEq, Repr

/-- The data space (spec/20_memory.md R52): bytes by address, in the one canonical form `Cells.wf`. -/
abbrev Memory := List Host.Cell

/-- The instruction space (spec/20_memory.md R51): 32-bit words by the address the program port
presents, in the same canonical form. It is kept apart from the data space (R53, log entry 5). -/
abbrev ProgMemory := List (Nat × Word)

/-- The machine's state. `cfg` is the model's own field: the parameters, which no step writes. -/
structure State where
  /-- `x[0]` to `x[31]` (R20, R21). -/
  x : Vector Word 32
  /-- The program counter (R25). -/
  pc : Word
  /-- The instruction latch (R35). -/
  ir : Word
  /-- 1 during exactly the decode cycle of the instruction in `ir` (R36). -/
  active : Bool
  /-- The execute state (R37). -/
  xs : ExecState
  /-- The address of the current data beat (R38). -/
  ea : Word
  /-- The beats of the current load or store not yet transferred (R38). -/
  cnt : BitVec 3
  /-- The store shift register, next byte in bits 31 to 24 (R38). -/
  sh : Word
  /-- The sticky halt (R39). -/
  halted : Bool
  /-- The switch's one bit (R41, spec/22_bus_switch.md R111). -/
  select : MasterId
  /-- The instruction space (spec/20_memory.md R51). -/
  imem : ProgMemory
  /-- The data space (spec/20_memory.md R52). -/
  dmem : Memory
  /-- The configuration (spec/00_scope.md R9, R10). -/
  cfg : Config
  deriving DecidableEq, Repr

/-- Faults. There is none: the hardware's one abnormal event, the sticky halt, is a next state
(spec/60_exceptions.md R380), and no other synchronous exception exists (R384). Nothing raises a
fault, so its absence cannot hide a behaviour (safe). -/
inductive Fault where
  deriving DecidableEq, Repr

/-- Model-level refusals (spec/60_exceptions.md R395): the points where the spec says that a model stops
with a named refusal; none is an event of the hardware, and each is safe. -/
inductive Refusal where
  /-- Raised by an arm of `exec` for an instruction with no meaning in the model. Safe. No arm raises
  it. -/
  | notModelled (mnemonic : String)
  /-- Raised by a fetch with `pc[1:0]` other than 0 (spec/20_memory.md R60). Safe. -/
  | misalignedFetch
  /-- Raised when a word with the JALR opcode and `funct` other than `000` reaches decode
  (spec/30_encoding.md R155). Safe. -/
  | unspecJalrFunct
  /-- Raised by a step under a configuration whose tag functions name a port that does not exist
  (spec/22_bus_switch.md R116). Safe. -/
  | badDestination
  deriving DecidableEq, Repr

/-- The value every register of the core and of the switch takes at an edge with `rst` = 1
(spec/70_reset_and_hazards.md R410, R44). Memory contents and the configuration are not touched
(R412). -/
def State.afterReset (s : State) : State where
  x := Vector.replicate 32 0#32
  pc := 0#32
  ir := 0#32
  active := false
  xs := .none
  ea := 0#32
  cnt := 0#3
  sh := 0#32
  halted := false
  select := .m0
  imem := s.imem
  dmem := s.dmem
  cfg := s.cfg

/-- The machine right after reset (R44), with nothing listed in either address space (log entry 3) and
the default configuration (log entry 2). -/
def State.reset : State where
  x := Vector.replicate 32 0#32
  pc := 0#32
  ir := 0#32
  active := false
  xs := .none
  ea := 0#32
  cnt := 0#3
  sh := 0#32
  halted := false
  select := .m0
  imem := []
  dmem := []
  cfg := Config.default

end Sys2Proof.Machine
end

