-- ==== Sys2Proof/Machine/Memory.lean ====
section
/-! DEFINITION. The two address spaces as sparse lists (spec/20_memory.md R51, R52): reading and writing
one unit, and the canonical form. An unlisted address reads as 0 in both spaces (log entry 3). -/

namespace Sys2Proof.Machine

/-- The unit stored at address `a`; 0 where nothing is listed. -/
def Cells.read {w : Nat} (m : List (Nat × BitVec w)) (a : Word) : BitVec w :=
  match m with
  | [] => 0#w
  | (k, v) :: rest => if k = a.toNat then v else Cells.read rest a

/-- `m` without an entry for `k`. -/
def Cells.erase {w : Nat} (m : List (Nat × BitVec w)) (k : Nat) : List (Nat × BitVec w) :=
  m.filter fun c => decide (c.1 ≠ k)

/-- `(k, v)` put before the first entry with a higher address. -/
def Cells.insert {w : Nat} (k : Nat) (v : BitVec w) : List (Nat × BitVec w) → List (Nat × BitVec w)
  | [] => [(k, v)]
  | (j, u) :: rest => if k < j then (k, v) :: (j, u) :: rest else (j, u) :: Cells.insert k v rest

/-- `m` with `v` stored at address `a`; storing 0, which an unlisted address reads as, removes the
entry. -/
def Cells.write {w : Nat} (m : List (Nat × BitVec w)) (a : Word) (v : BitVec w) :
    List (Nat × BitVec w) :=
  if v = 0#w then Cells.erase m a.toNat else Cells.insert a.toNat v (Cells.erase m a.toNat)

/-- The canonical form: addresses strictly rising and below 2^32, no entry equal to what an unlisted
address reads as. -/
abbrev Cells.wf {w : Nat} (m : List (Nat × BitVec w)) : Prop :=
  m.Pairwise (fun c d => c.1 < d.1) ∧ ∀ c ∈ m, c.1 < 2 ^ 32 ∧ c.2 ≠ 0#w

/-- The canonical form of the data space. -/
abbrev Memory.wf (m : Memory) : Prop := Cells.wf (w := 8) m

/-- The canonical form of the instruction space. -/
abbrev ProgMemory.wf (m : ProgMemory) : Prop := Cells.wf (w := 32) m

/-- The address a port of width `w` carries: the higher bits are dropped (spec/20_memory.md R65). -/
def busAddr (w : Nat) (a : Word) : Word := BitVec.ofNat 32 (a.toNat % 2 ^ w)

end Sys2Proof.Machine
end

