-- ==== Sys2Proof/Machine/Operands.lean ====
section
/-! DEFINITION. The operand forms of the instructions: register operands, the extension of immediates
(spec/30_encoding.md R147), effective addresses (spec/41_load.md R200, spec/42_store.md R220), branch
and jump targets (R180, R311, R312) and shift amounts (R243, R247, R270). All sums are modulo 2^32
(spec/00_scope.md R12). -/

namespace Sys2Proof.Machine

/-- `x[r]` (spec/10_state.md R20, R21): every index names a register and register 0 is an ordinary
one. -/
def State.getReg (s : State) (r : RegIdx) : Word := s.x[r.toNat]'r.isLt

/-- `x[r] <- v` (spec/00_scope.md R13): register 0 is written like any other. -/
def State.setReg (s : State) (r : RegIdx) (v : Word) : State :=
  { s with x := s.x.set r.toNat v r.isLt }

/-- The instruction's own address `ia` = `pc - 4`: `pc` has already advanced (spec/10_state.md R27). -/
def State.ia (s : State) : Word := s.pc - 4#32

/-- `imm_I` and `imm_S`: a 12-bit immediate sign-extended to 32 bits (R147). -/
def signExt12 (imm : BitVec 12) : Word := imm.signExtend 32

/-- `imm_U`: the 20-bit field in bits 31 to 12, zeros below (R147). -/
def immU (imm : BitVec 20) : Word := fieldAt 32 imm 12

/-- The effective address of a load or store: base register plus sign-extended offset. -/
def State.effAddr (s : State) (base : RegIdx) (imm : BitVec 12) : Word :=
  s.getReg base + signExt12 imm

/-- The branch target `pc + off_B - 4` (R180). -/
def State.branchTarget (s : State) (off : BitVec 13) : Word := s.pc + off.signExtend 32 - 4#32

/-- The JAL target `pc + off_J - 4` (R311). -/
def State.jalTarget (s : State) (off : BitVec 21) : Word := s.pc + off.signExtend 32 - 4#32

/-- The JALR target `(x[rs] + imm_I) & 0xFFFFFFFE` (R312). -/
def State.jalrTarget (s : State) (rs : RegIdx) (imm : BitVec 12) : Word :=
  (s.getReg rs + signExt12 imm) &&& 0xFFFFFFFE#32

/-- The value AUIPC adds to (R302): the instruction's own address, or the address after it. -/
def State.auipcBaseAddr (s : State) : Word :=
  match s.cfg.auipcBase with
  | .instrAddr => s.ia
  | .nextAddr => s.pc

/-- Register shift-left (R243): counts above `SLL_LIMIT` give 0, others shift by the low three bits of
the count. -/
def sllValue (limit : SllLimit) (a count : Word) : Word :=
  if limit.toNat < count.toNat then 0#32 else a <<< (count.extractLsb' 0 3).toNat

/-- The amount of a register right shift (R247): the whole count, or its low five bits. -/
def shrAmountOf (mode : ShrAmount) (count : Word) : Nat :=
  match mode with
  | .full => count.toNat
  | .low5 => (count.extractLsb' 0 5).toNat

/-- `a >>u n`: zeros enter at the top; 0 for `n ≥ 32` (spec/00_scope.md R12). -/
def shiftRightLogical (a : Word) (n : Nat) : Word := a >>> n

/-- `a >>s n`: the sign bit fills the vacated bits (spec/00_scope.md R12). -/
def shiftRightArith (a : Word) (n : Nat) : Word := a.sshiftRight n

/-- `a << n`, the low 32 bits kept (spec/00_scope.md R12). -/
def shiftLeft (a : Word) (n : Nat) : Word := a <<< n

end Sys2Proof.Machine
end

