-- ==== Sys2Proof/Machine/Flags.lean ====
section
/-! DEFINITION. Comparisons. The hardware has no status flags (spec/10_state.md R32): branches compare
two registers directly (spec/40_branch.md R181 to R186), and the set-less-than instructions write 1 or 0
(spec/43_alu_reg.md R244, R245, R252). -/

namespace Sys2Proof.Machine

/-- `s(a) < s(b)`: both read as two's complement. -/
def ltSigned (a b : Word) : Bool := a.slt b

/-- `u(a) < u(b)`: both read as natural numbers. -/
def ltUnsigned (a b : Word) : Bool := a.ult b

/-- The 32-bit value 1 or 0 that a comparison writes (R252). -/
def boolWord (b : Bool) : Word := if b then 1#32 else 0#32

/-- Whether a branch is taken (R181 to R186). -/
def condTaken (c : BranchCond) (a b : Word) : Bool :=
  match c with
  | .eq => a == b
  | .ne => a != b
  | .lt => ltSigned a b
  | .ge => !ltSigned a b
  | .ltu => ltUnsigned a b
  | .geu => !ltUnsigned a b

end Sys2Proof.Machine
end

