-- ==== Sys2Proof/Machine/Ops.lean ====
section
/-! DEFINITION. The named operations over registers and memory that the meanings are written with: the
accesses of spec/20_memory.md (`IFetch` R51, `MemRead` R55, `MemWrite` R56), the latching of a fetched
word (R354), the start and the beats of a load (R351) and of a store (R352), the two cycles of a branch
(R350), and the hardware's one abnormal event, the fatal halt (R380). There is no trap entry and no trap
return (R385, R387): the only way out of a halt is the reset of `State.afterReset` (R410). -/

namespace Sys2Proof.Machine

/-! ### Accesses to the two address spaces -/

/-- `IFetch(pc)`: the word the program port returns for the address in `pc`, truncated to the port's
width (R51, R65). Links behind the port that are narrower still, which a switched platform may have
(spec/22_bus_switch.md R123), are not looked at here. DESIGN CHOICE, log entry 26. -/
def State.fetchWord (s : State) : Word := Cells.read s.imem (busAddr s.cfg.iaddrW s.pc)

/-- `pc[1:0]` is not 0: the fetch of R60. -/
def State.pcMisaligned (s : State) : Bool := s.pc.extractLsb' 0 2 != 0#2

/-- The byte a read beat at `a` returns (R52, R65); narrower links behind the port are not looked at.
DESIGN CHOICE, log entry 26. -/
def State.readByte (s : State) (a : Word) : Byte := Cells.read s.dmem (busAddr s.cfg.daddrW a)

/-- The state after a write beat at `a` carrying `b` (R52, R65, R89); narrower links behind the port are
not looked at. DESIGN CHOICE, log entry 26. -/
def State.writeByte (s : State) (a : Word) (b : Byte) : State :=
  { s with dmem := Cells.write s.dmem (busAddr s.cfg.daddrW a) b }

/-- The beats of an access (R61). -/
def beatCount : AccessWidth → Nat
  | .byte => 1
  | .half => 2
  | .word => 4

/-- `MemRead(a, n)` as a value (R55): the bytes at `a`, `a + 1`, …, the one from `a` most significant,
zero-extended to 32 bits. -/
def State.memRead (s : State) (a : Word) : AccessWidth → Word
  | .byte => (s.readByte a).setWidth 32
  | .half => (s.readByte a ++ s.readByte (a + 1#32)).setWidth 32
  | .word =>
    (s.readByte a ++ s.readByte (a + 1#32) ++ s.readByte (a + 2#32) ++ s.readByte (a + 3#32)).setWidth 32

/-- Byte number `i` of the `n`-byte truncated copy of `v`, counted from the most significant:
`v[8(n-i)-1 : 8(n-1-i)]` (R56). -/
def storeByteOf (n : Nat) (v : Word) (i : Nat) : Byte := v.extractLsb' (8 * (n - 1 - i)) 8

/-! ### Fetch -/

/-- Fetch completion (R26, R354): the word is latched, `pc` advances by 4, decode begins. -/
def State.latchFetch (s : State) (w : Word) : State :=
  { s with ir := w, pc := s.pc + 4#32, active := true }

/-! ### The end of a decode cycle -/

/-- The instruction leaves its decode cycle (R354: `active` is 1 for one cycle). -/
def State.retire (s : State) : State := { s with active := false }

/-- Decode of a single-cycle class (R348): the result is written to `x[rd]`. -/
def State.writeResult (s : State) (rd : RegIdx) (v : Word) : State := (s.setReg rd v).retire

/-- Decode of a jump (R349): the link `pc` goes to `x[rd]` and the target to `pc`, both from values
read before. -/
def State.jumpTo (s : State) (rd : RegIdx) (target : Word) : State :=
  { (s.setReg rd s.pc).retire with pc := target }

/-! ### Branches (R350) -/

/-- The decode cycle of a branch. -/
def State.startBranch (s : State) : State := { s with xs := .branch, active := false }

/-- The execute cycle of a branch: `pc` is overwritten when the branch is taken. -/
def State.resolveBranch (s : State) (taken : Bool) (off : BitVec 13) : State :=
  { s with pc := if taken then s.branchTarget off else s.pc, xs := .none }

/-- A whole branch (R180). -/
def State.runBranch (s : State) (c : BranchCond) (rs1 rs2 : RegIdx) (off : BitVec 13) : State :=
  s.startBranch.resolveBranch (condTaken c (s.getReg rs1) (s.getReg rs2)) off

/-! ### Loads (R200, R351) -/

/-- `xs` after a data transfer: the execute state ends with the transfer at `cnt` = 1. -/
def xsAfterBeat (cnt : BitVec 3) (xs : ExecState) : ExecState := if cnt = 1#3 then .none else xs

/-- The decode cycle of a load: the effective address is latched and the destination cleared. -/
def State.startLoad (s : State) (rd : RegIdx) (a : Word) (n : Nat) : State :=
  { s.setReg rd 0#32 with xs := .load, active := false, ea := a, cnt := BitVec.ofNat 3 n }

/-- A read transfer: the byte is shifted into the destination. -/
def State.loadBeat (s : State) (rd : RegIdx) (b : Byte) : State :=
  { s.setReg rd ((s.getReg rd <<< 8) ||| b.setWidth 32) with
    ea := s.ea + 1#32, cnt := s.cnt - 1#3, xs := xsAfterBeat s.cnt s.xs }

/-- `k` read beats, each answered by the data space. -/
def State.loadBeats (rd : RegIdx) : Nat → State → State
  | 0, s => s
  | k + 1, s => State.loadBeats rd k (s.loadBeat rd (s.readByte s.ea))

/-- A whole load of `n` beats from address `a` (R200). -/
def State.runLoad (s : State) (rd : RegIdx) (a : Word) (n : Nat) : State :=
  State.loadBeats rd n (s.startLoad rd a n)

/-! ### Stores (R220, R352) -/

/-- The byte a store's data port carries: `sh[31:24]` (R345). -/
def State.storeByte (s : State) : Byte := s.sh.extractLsb' 24 8

/-- The decode cycle of a store: address and data are latched, the first byte to go out in
`sh[31:24]`. -/
def State.startStore (s : State) (a v : Word) (n : Nat) : State :=
  { s with xs := .store, active := false, ea := a, cnt := BitVec.ofNat 3 n, sh := v <<< (32 - 8 * n) }

/-- What a write transfer does to the core's registers. -/
def State.storeBeat (s : State) : State :=
  { s with sh := s.sh <<< 8, ea := s.ea + 1#32, cnt := s.cnt - 1#3, xs := xsAfterBeat s.cnt s.xs }

/-- `k` write beats, each taken by the data space. -/
def State.storeBeats : Nat → State → State
  | 0, s => s
  | k + 1, s => State.storeBeats k (s.writeByte s.ea s.storeByte).storeBeat

/-- A whole store of `n` beats at address `a` (R220). -/
def State.runStore (s : State) (a v : Word) (n : Nat) : State :=
  State.storeBeats n (s.startStore a v n)

/-! ### The fatal halt (R380) -/

/-- `raise Halt(reason)` (R353, R380): `halted` is set in the decode cycle of the fatal word; `x`,
`pc` = `ia + 4` and `ir` keep their values. The hardware records no reason (R382). -/
def State.raiseHalt (s : State) : State := { s with halted := true, active := false, xs := .none }

/-- Why a halted machine halted (R381), read from the offending word that `ir` keeps. No field of the
state records it (R382, log entry 8). -/
def State.haltReason (s : State) : Option HaltReason :=
  if s.halted then
    match decode s.ir with
    | .fatal r => some r
    | .instr _ => none
    | .unspecJalr => none
  else none

end Sys2Proof.Machine
end

