-- ==== Sys2Proof/Machine/AluImm.lean ====
section
/-! DEFINITION. The meanings of register-immediate arithmetic (spec/44_alu_imm.md R270 to R278): the source is read before the write,
`pc` keeps `ia + 4`. -/

namespace Sys2Proof.Machine

/-- ADDI (R271): modulo 2^32. -/
def execAddi (rd rs : RegIdx) (imm : BitVec 12) (s : State) : Host.Outcome State Fault Refusal :=
  .next (s.writeResult rd (s.getReg rs + signExt12 imm))

/-- SLTI (R272): signed comparison with the sign-extended immediate. -/
def execSlti (rd rs : RegIdx) (imm : BitVec 12) (s : State) : Host.Outcome State Fault Refusal :=
  .next (s.writeResult rd (boolWord (ltSigned (s.getReg rs) (signExt12 imm))))

/-- SLTIU (R273): unsigned comparison with the sign-extended immediate. -/
def execSltiu (rd rs : RegIdx) (imm : BitVec 12) (s : State) : Host.Outcome State Fault Refusal :=
  .next (s.writeResult rd (boolWord (ltUnsigned (s.getReg rs) (signExt12 imm))))

/-- XORI (R274). -/
def execXori (rd rs : RegIdx) (imm : BitVec 12) (s : State) : Host.Outcome State Fault Refusal :=
  .next (s.writeResult rd (s.getReg rs ^^^ signExt12 imm))

/-- ANDI (R275). -/
def execAndi (rd rs : RegIdx) (imm : BitVec 12) (s : State) : Host.Outcome State Fault Refusal :=
  .next (s.writeResult rd (s.getReg rs &&& signExt12 imm))

/-- SLLI (R276): a full five-bit shift. -/
def execSlli (rd rs : RegIdx) (shamt : BitVec 5) (s : State) : Host.Outcome State Fault Refusal :=
  .next (s.writeResult rd (shiftLeft (s.getReg rs) shamt.toNat))

/-- SRLI (R277). -/
def execSrli (rd rs : RegIdx) (shamt : BitVec 5) (s : State) : Host.Outcome State Fault Refusal :=
  .next (s.writeResult rd (shiftRightLogical (s.getReg rs) shamt.toNat))

/-- SRAI (R278). -/
def execSrai (rd rs : RegIdx) (shamt : BitVec 5) (s : State) : Host.Outcome State Fault Refusal :=
  .next (s.writeResult rd (shiftRightArith (s.getReg rs) shamt.toNat))

end Sys2Proof.Machine
end

