-- ==== Sys2Proof/Machine/AluReg.lean ====
section
/-! DEFINITION. The meanings of register-register arithmetic (spec/43_alu_reg.md R240 to R252): both sources are read before the write,
`pc` keeps `ia + 4`. -/

namespace Sys2Proof.Machine

/-- ADD (R241): modulo 2^32, no overflow recorded. -/
def execAdd (rd rs1 rs2 : RegIdx) (s : State) : Host.Outcome State Fault Refusal :=
  .next (s.writeResult rd (s.getReg rs1 + s.getReg rs2))

/-- SUB (R242): modulo 2^32. -/
def execSub (rd rs1 rs2 : RegIdx) (s : State) : Host.Outcome State Fault Refusal :=
  .next (s.writeResult rd (s.getReg rs1 - s.getReg rs2))

/-- SLL (R243): the narrow shift-left. -/
def execSll (rd rs1 rs2 : RegIdx) (s : State) : Host.Outcome State Fault Refusal :=
  .next (s.writeResult rd (sllValue s.cfg.sllLimit (s.getReg rs1) (s.getReg rs2)))

/-- SLT (R244): 1 when less, both read as signed, else 0. -/
def execSlt (rd rs1 rs2 : RegIdx) (s : State) : Host.Outcome State Fault Refusal :=
  .next (s.writeResult rd (boolWord (ltSigned (s.getReg rs1) (s.getReg rs2))))

/-- SLTU (R245): 1 when less, both read as unsigned, else 0. -/
def execSltu (rd rs1 rs2 : RegIdx) (s : State) : Host.Outcome State Fault Refusal :=
  .next (s.writeResult rd (boolWord (ltUnsigned (s.getReg rs1) (s.getReg rs2))))

/-- XOR (R246). -/
def execXor (rd rs1 rs2 : RegIdx) (s : State) : Host.Outcome State Fault Refusal :=
  .next (s.writeResult rd (s.getReg rs1 ^^^ s.getReg rs2))

/-- SRL (R247): logical shift right by the amount `SHR_AMOUNT` names. -/
def execSrl (rd rs1 rs2 : RegIdx) (s : State) : Host.Outcome State Fault Refusal :=
  .next (s.writeResult rd (shiftRightLogical (s.getReg rs1) (shrAmountOf s.cfg.shrAmount (s.getReg rs2))))

/-- SRA (R248): arithmetic shift right by the amount `SHR_AMOUNT` names. -/
def execSra (rd rs1 rs2 : RegIdx) (s : State) : Host.Outcome State Fault Refusal :=
  .next (s.writeResult rd (shiftRightArith (s.getReg rs1) (shrAmountOf s.cfg.shrAmount (s.getReg rs2))))

/-- OR (R249). -/
def execOr (rd rs1 rs2 : RegIdx) (s : State) : Host.Outcome State Fault Refusal :=
  .next (s.writeResult rd (s.getReg rs1 ||| s.getReg rs2))

/-- AND (R250). -/
def execAnd (rd rs1 rs2 : RegIdx) (s : State) : Host.Outcome State Fault Refusal :=
  .next (s.writeResult rd (s.getReg rs1 &&& s.getReg rs2))

end Sys2Proof.Machine
end

