-- ==== Sys2Proof/Machine/Branch.lean ====
section
/-! DEFINITION. The meanings of the branches (spec/40_branch.md R180 to R188): a comparison of two
registers decides whether `pc` becomes `ia + off`; no register is written. -/

namespace Sys2Proof.Machine

/-- BEQ (R181). -/
def execBeq (rs1 rs2 : RegIdx) (off : BitVec 13) (s : State) : Host.Outcome State Fault Refusal :=
  .next (s.runBranch .eq rs1 rs2 off)

/-- BNE (R182). -/
def execBne (rs1 rs2 : RegIdx) (off : BitVec 13) (s : State) : Host.Outcome State Fault Refusal :=
  .next (s.runBranch .ne rs1 rs2 off)

/-- BLT (R183). -/
def execBlt (rs1 rs2 : RegIdx) (off : BitVec 13) (s : State) : Host.Outcome State Fault Refusal :=
  .next (s.runBranch .lt rs1 rs2 off)

/-- BGE (R184). -/
def execBge (rs1 rs2 : RegIdx) (off : BitVec 13) (s : State) : Host.Outcome State Fault Refusal :=
  .next (s.runBranch .ge rs1 rs2 off)

/-- BLTU (R185). -/
def execBltu (rs1 rs2 : RegIdx) (off : BitVec 13) (s : State) : Host.Outcome State Fault Refusal :=
  .next (s.runBranch .ltu rs1 rs2 off)

/-- BGEU (R186). -/
def execBgeu (rs1 rs2 : RegIdx) (off : BitVec 13) (s : State) : Host.Outcome State Fault Refusal :=
  .next (s.runBranch .geu rs1 rs2 off)

end Sys2Proof.Machine
end

