-- ==== Sys2Proof/Machine/Jump.lean ====
section
/-! DEFINITION. The meanings of the jumps (spec/46_jump.md R310 to R315): the link `ia + 4`, which is
`pc`, goes to `x[rd]` (R313) and the target to `pc`, from values read before either write. -/

namespace Sys2Proof.Machine

/-- JAL (R311). -/
def execJal (rd : RegIdx) (off : BitVec 21) (s : State) : Host.Outcome State Fault Refusal :=
  .next (s.jumpTo rd (s.jalTarget off))

/-- JALR (R312): an absolute target with its low bit cleared. -/
def execJalr (rd rs : RegIdx) (imm : BitVec 12) (s : State) : Host.Outcome State Fault Refusal :=
  .next (s.jumpTo rd (s.jalrTarget rs imm))

end Sys2Proof.Machine
end

