-- ==== Sys2Proof/Machine/Load.lean ====
section
/-! DEFINITION. The meanings of the loads (spec/41_load.md R200 to R207): the effective address is taken
from the old base register, the destination is cleared, and each byte is shifted in, most significant
first, so that no load sign-extends. -/

namespace Sys2Proof.Machine

/-- LB (R201): one beat. -/
def execLb (rd rs : RegIdx) (imm : BitVec 12) (s : State) : Host.Outcome State Fault Refusal :=
  .next (s.runLoad rd (s.effAddr rs imm) (beatCount .byte))

/-- LH (R202): two beats. -/
def execLh (rd rs : RegIdx) (imm : BitVec 12) (s : State) : Host.Outcome State Fault Refusal :=
  .next (s.runLoad rd (s.effAddr rs imm) (beatCount .half))

/-- LW (R203): four beats. -/
def execLw (rd rs : RegIdx) (imm : BitVec 12) (s : State) : Host.Outcome State Fault Refusal :=
  .next (s.runLoad rd (s.effAddr rs imm) (beatCount .word))

end Sys2Proof.Machine
end

