-- ==== Sys2Proof/Machine/Store.lean ====
section
/-! DEFINITION. The meanings of the stores (spec/42_store.md R220 to R225): base and data are read once,
and the bytes of the width-truncated copy go out most significant first. -/

namespace Sys2Proof.Machine

/-- SB (R221): one beat. -/
def execSb (rs1 rs2 : RegIdx) (imm : BitVec 12) (s : State) : Host.Outcome State Fault Refusal :=
  .next (s.runStore (s.effAddr rs1 imm) (s.getReg rs2) (beatCount .byte))

/-- SH (R222): two beats. -/
def execSh (rs1 rs2 : RegIdx) (imm : BitVec 12) (s : State) : Host.Outcome State Fault Refusal :=
  .next (s.runStore (s.effAddr rs1 imm) (s.getReg rs2) (beatCount .half))

/-- SW (R223): four beats. -/
def execSw (rs1 rs2 : RegIdx) (imm : BitVec 12) (s : State) : Host.Outcome State Fault Refusal :=
  .next (s.runStore (s.effAddr rs1 imm) (s.getReg rs2) (beatCount .word))

end Sys2Proof.Machine
end

