-- ==== Sys2Proof/Machine/UpperImm.lean ====
section
/-! DEFINITION. The meanings of the upper-immediate instructions (spec/45_upper_imm.md R300 to R302):
`pc` keeps `ia + 4`. -/

namespace Sys2Proof.Machine

/-- LUI (R301): bits 31 to 12 from the instruction, zeros below. -/
def execLui (rd : RegIdx) (imm : BitVec 20) (s : State) : Host.Outcome State Fault Refusal :=
  .next (s.writeResult rd (immU imm))

/-- AUIPC (R302): `imm_U` added to the program-counter value `AUIPC_BASE` names. -/
def execAuipc (rd : RegIdx) (imm : BitVec 20) (s : State) : Host.Outcome State Fault Refusal :=
  .next (s.writeResult rd (s.auipcBaseAddr + immU imm))

end Sys2Proof.Machine
end

