-- ==== Sys2Proof/Machine/Dispatch.lean ====
section
/-! DEFINITION. One arm per instruction: the meaning it calls. -/

namespace Sys2Proof.Machine

def exec (i : Instr) (s : State) : Host.Outcome State Fault Refusal :=
  match i with
  | .add rd rs1 rs2 => Sys2Proof.Machine.execAdd rd rs1 rs2 s
  | .sub rd rs1 rs2 => Sys2Proof.Machine.execSub rd rs1 rs2 s
  | .sll rd rs1 rs2 => Sys2Proof.Machine.execSll rd rs1 rs2 s
  | .slt rd rs1 rs2 => Sys2Proof.Machine.execSlt rd rs1 rs2 s
  | .sltu rd rs1 rs2 => Sys2Proof.Machine.execSltu rd rs1 rs2 s
  | .xor rd rs1 rs2 => Sys2Proof.Machine.execXor rd rs1 rs2 s
  | .srl rd rs1 rs2 => Sys2Proof.Machine.execSrl rd rs1 rs2 s
  | .sra rd rs1 rs2 => Sys2Proof.Machine.execSra rd rs1 rs2 s
  | .or rd rs1 rs2 => Sys2Proof.Machine.execOr rd rs1 rs2 s
  | .and rd rs1 rs2 => Sys2Proof.Machine.execAnd rd rs1 rs2 s
  | .addi rd rs imm => Sys2Proof.Machine.execAddi rd rs imm s
  | .slti rd rs imm => Sys2Proof.Machine.execSlti rd rs imm s
  | .sltiu rd rs imm => Sys2Proof.Machine.execSltiu rd rs imm s
  | .xori rd rs imm => Sys2Proof.Machine.execXori rd rs imm s
  | .andi rd rs imm => Sys2Proof.Machine.execAndi rd rs imm s
  | .slli rd rs shamt => Sys2Proof.Machine.execSlli rd rs shamt s
  | .srli rd rs shamt => Sys2Proof.Machine.execSrli rd rs shamt s
  | .srai rd rs shamt => Sys2Proof.Machine.execSrai rd rs shamt s
  | .lui rd imm => Sys2Proof.Machine.execLui rd imm s
  | .auipc rd imm => Sys2Proof.Machine.execAuipc rd imm s
  | .jal rd off => Sys2Proof.Machine.execJal rd off s
  | .jalr rd rs imm => Sys2Proof.Machine.execJalr rd rs imm s
  | .beq rs1 rs2 off => Sys2Proof.Machine.execBeq rs1 rs2 off s
  | .bne rs1 rs2 off => Sys2Proof.Machine.execBne rs1 rs2 off s
  | .blt rs1 rs2 off => Sys2Proof.Machine.execBlt rs1 rs2 off s
  | .bge rs1 rs2 off => Sys2Proof.Machine.execBge rs1 rs2 off s
  | .bltu rs1 rs2 off => Sys2Proof.Machine.execBltu rs1 rs2 off s
  | .bgeu rs1 rs2 off => Sys2Proof.Machine.execBgeu rs1 rs2 off s
  | .lb rd rs imm => Sys2Proof.Machine.execLb rd rs imm s
  | .lh rd rs imm => Sys2Proof.Machine.execLh rd rs imm s
  | .lw rd rs imm => Sys2Proof.Machine.execLw rd rs imm s
  | .sb rs1 rs2 imm => Sys2Proof.Machine.execSb rs1 rs2 imm s
  | .sh rs1 rs2 imm => Sys2Proof.Machine.execSh rs1 rs2 imm s
  | .sw rs1 rs2 imm => Sys2Proof.Machine.execSw rs1 rs2 imm s

end Sys2Proof.Machine
end

