-- ==== Sys2Proof/Machine/Execute.lean ====
section
/-! DEFINITION. The phases of the core (spec/50_core_fsm.md R333) and the completion of the instruction
in hand, which both `step` and the clocked refinement use: the word in `ir` is decoded and executed, or
a branch, load or store that stands in its execute state is brought to its end (R350 to R352). Here the
data space answers every beat (spec/20_memory.md R55, R56; a responder that never does is a hang of the
clocked model, log entry 18). -/

namespace Sys2Proof.Machine

/-- The named phases (R333). -/
inductive Phase where
  | halt
  | dec
  | xb
  | xl
  | xs
  | fr
  deriving DecidableEq, Repr

/-- The phase the core is in, by its registers (R333). -/
def State.phase (s : State) : Phase :=
  if s.halted then .halt
  else if s.active then .dec
  else match s.xs with
    | .branch => .xb
    | .load => .xl
    | .store => .xs
    | .none => .fr

/-- The rest of an instruction after a step that did not stop. -/
def andThen {σ τ : Type} (o : Host.Outcome σ Fault Refusal) (f : σ → Host.Outcome τ Fault Refusal) :
    Host.Outcome τ Fault Refusal :=
  match o with
  | .next s => f s
  | .fault r => .fault r
  | .refused r => .refused r

/-- The word in `ir` is decoded and executed: a fatal word halts the core (R353, R380), a JALR word with
an unspecified `funct` is refused (R155). -/
def State.execLatched (s : State) : Host.Outcome State Fault Refusal :=
  match decode s.ir with
  | .instr i => exec i s
  | .fatal _ => .next s.raiseHalt
  | .unspecJalr => .refused .unspecJalrFunct

/-- `taken` of a branch in its execute cycle (R350). A word that selects no comparison never gets there
and is not taken (log entry 17). -/
def State.branchTaken (s : State) : Bool :=
  match condOf s.ir with
  | some c => condTaken c (s.getReg (rs1Of s.ir)) (s.getReg (rs2Of s.ir))
  | none => false

/-- The transfers a load or store in its execute state still makes: `cnt`, which is 1 to 4 there (R361);
a 3-bit `cnt` of 0 would count down through 7 (log entry 16). -/
def pendingBeats (cnt : BitVec 3) : Nat := if cnt = 0#3 then 8 else cnt.toNat

/-- The instruction in hand, if there is one, brought to its end without a further fetch. -/
def State.finish (s : State) : Host.Outcome State Fault Refusal :=
  match s.phase with
  | .halt => .next s
  | .dec => s.execLatched
  | .xb => .next (s.resolveBranch s.branchTaken (offBOf s.ir))
  | .xl => .next (State.loadBeats (rdOf s.ir) (pendingBeats s.cnt) s)
  | .xs => .next (State.storeBeats (pendingBeats s.cnt) s)
  | .fr => .next s

end Sys2Proof.Machine
end

