-- ==== Sys2Proof/Machine/Step.lean ====
section
/-! DEFINITION. The architectural step (spec/00_scope.md R7): one instruction, fetched, decoded and
executed as one transformation. A halted machine keeps every register (spec/50_core_fsm.md R356); a
configuration with a tag that names no port is refused (spec/22_bus_switch.md R116), and so is a fetch
at a misaligned address (spec/20_memory.md R60). In a state that has an instruction in hand (which a
state between two steps has not) the step completes that instruction. -/

namespace Sys2Proof.Machine

/-- One architectural step. -/
def step (s : State) : Host.Outcome State Fault Refusal :=
  if s.halted then .next s
  else if !s.cfg.tagsOk then .refused .badDestination
  else if s.phase = .fr then
    if s.pcMisaligned then .refused .misalignedFetch else (s.latchFetch s.fetchWord).finish
  else s.finish

/-- The state in which the next step fetches and runs the word `w`: it stands in the instruction space
at the address the program port presents, the core is in fetch-ready, and `pc` is aligned. The spec's
machine has no loader: this stands for the platform's load (log entry 4). -/
def State.withFetchWord (s : State) (nbits w : Nat) : State :=
  { s with
    pc := s.pc &&& 0xFFFFFFFC#32
    active := false
    xs := .none
    halted := false
    imem := Cells.write s.imem (busAddr s.cfg.iaddrW (s.pc &&& 0xFFFFFFFC#32))
      (BitVec.ofNat 32 (w % 2 ^ nbits)) }

end Sys2Proof.Machine
end

