-- ==== Sys2Proof/Machine/Assembly.lean ====
section
/-! DEFINITION. The assembler spelling of an instruction (spec/30_encoding.md R162, R163): upper-case
mnemonics, registers `r0` to `r31`, operands separated by commas with the destination first, `#` before
an immediate, a memory operand as `offset(base)`. -/

namespace Sys2Proof.Machine

/-- A register's name (R162). -/
def regName (r : RegIdx) : String := "r" ++ toString r.toNat

/-- A signed number, as an offset or an arithmetic immediate is written. -/
def intText (n : Int) : String :=
  match n with
  | .ofNat k => toString k
  | .negSucc k => "-" ++ toString (k + 1)

/-- `OP rd,rs1,rs2`. -/
def asmRRR (op : String) (a b c : RegIdx) : String :=
  op ++ " " ++ regName a ++ "," ++ regName b ++ "," ++ regName c

/-- `OP rd,rs,#imm`; also the branches' `OP rs1,rs2,#off`. -/
def asmRRI (op : String) (a b : RegIdx) (n : Int) : String :=
  op ++ " " ++ regName a ++ "," ++ regName b ++ ",#" ++ intText n

/-- `OP rd,#imm`. -/
def asmRI (op : String) (a : RegIdx) (n : Int) : String :=
  op ++ " " ++ regName a ++ ",#" ++ intText n

/-- `OP reg,off(base)`. -/
def asmMem (op : String) (a base : RegIdx) (n : Int) : String :=
  op ++ " " ++ regName a ++ "," ++ intText n ++ "(" ++ regName base ++ ")"

/-- An instruction as R162 and R163 write it. -/
def asm : Instr → String
  | .add rd rs1 rs2 => asmRRR "ADD" rd rs1 rs2
  | .sub rd rs1 rs2 => asmRRR "SUB" rd rs1 rs2
  | .sll rd rs1 rs2 => asmRRR "SLL" rd rs1 rs2
  | .slt rd rs1 rs2 => asmRRR "SLT" rd rs1 rs2
  | .sltu rd rs1 rs2 => asmRRR "SLTU" rd rs1 rs2
  | .xor rd rs1 rs2 => asmRRR "XOR" rd rs1 rs2
  | .srl rd rs1 rs2 => asmRRR "SRL" rd rs1 rs2
  | .sra rd rs1 rs2 => asmRRR "SRA" rd rs1 rs2
  | .or rd rs1 rs2 => asmRRR "OR" rd rs1 rs2
  | .and rd rs1 rs2 => asmRRR "AND" rd rs1 rs2
  | .addi rd rs imm => asmRRI "ADDI" rd rs imm.toInt
  | .slti rd rs imm => asmRRI "SLTI" rd rs imm.toInt
  | .sltiu rd rs imm => asmRRI "SLTIU" rd rs imm.toInt
  | .xori rd rs imm => asmRRI "XORI" rd rs imm.toInt
  | .andi rd rs imm => asmRRI "ANDI" rd rs imm.toInt
  | .slli rd rs shamt => asmRRI "SLLI" rd rs shamt.toNat
  | .srli rd rs shamt => asmRRI "SRLI" rd rs shamt.toNat
  | .srai rd rs shamt => asmRRI "SRAI" rd rs shamt.toNat
  | .lui rd imm => asmRI "LUI" rd imm.toNat
  | .auipc rd imm => asmRI "AUIPC" rd imm.toNat
  | .jal rd off => asmRI "JAL" rd off.toInt
  | .jalr rd rs imm => asmMem "JALR" rd rs imm.toInt
  | .beq rs1 rs2 off => asmRRI "BEQ" rs1 rs2 off.toInt
  | .bne rs1 rs2 off => asmRRI "BNE" rs1 rs2 off.toInt
  | .blt rs1 rs2 off => asmRRI "BLT" rs1 rs2 off.toInt
  | .bge rs1 rs2 off => asmRRI "BGE" rs1 rs2 off.toInt
  | .bltu rs1 rs2 off => asmRRI "BLTU" rs1 rs2 off.toInt
  | .bgeu rs1 rs2 off => asmRRI "BGEU" rs1 rs2 off.toInt
  | .lb rd rs imm => asmMem "LB" rd rs imm.toInt
  | .lh rd rs imm => asmMem "LH" rd rs imm.toInt
  | .lw rd rs imm => asmMem "LW" rd rs imm.toInt
  | .sb rs1 rs2 imm => asmMem "SB" rs2 rs1 imm.toInt
  | .sh rs1 rs2 imm => asmMem "SH" rs2 rs1 imm.toInt
  | .sw rs1 rs2 imm => asmMem "SW" rs2 rs1 imm.toInt

end Sys2Proof.Machine
end

