-- ==== Sys2Proof/Machine/Bus.lean ====
section
/-! DEFINITION. The bus protocol (spec/21_bus_protocol.md): the wires of a link (R80, R81), what a
request cycle and a transfer are (R82), the handshake controller of a master (R95), the reference
responder's `ack` (R96), and the monitor predicates over traces (R97). Link widths are parameters of the
platform (spec/00_scope.md R9): a wire's value is the number its bits read as, cut to the wire's width
where it enters the wire (`adapt`). -/

namespace Sys2Proof.Machine

/-- The wires a master drives on a link (R81). An output link of the switch carries no `destination`
(spec/22_bus_switch.md R110): it is 0 there. -/
structure Request where
  cycle : Bool
  strobe : Bool
  address : Nat
  writeEnable : Bool
  writeData : Nat
  destination : Nat
  deriving DecidableEq, Repr

/-- The wires a responder drives on a link (R81). -/
structure Response where
  ack : Bool
  readData : Nat
  deriving DecidableEq, Repr

/-- A link in one clock cycle. -/
structure LinkCycle where
  req : Request
  resp : Response
  deriving DecidableEq, Repr

/-- A value put on a wire of `w` bits: higher bits are dropped, a narrower value is zero-extended
(spec/22_bus_switch.md R123, spec/20_memory.md R65). -/
def adapt (w v : Nat) : Nat := v % 2 ^ w

/-- A port with no beat pending: all wires 0 (R98). -/
def Request.idle : Request := ⟨false, false, 0, false, 0, 0⟩

/-- No answer: `ack` = 0, `read_data` = 0 (spec/22_bus_switch.md R114). -/
def Response.none : Response := ⟨false, 0⟩

/-- A request cycle: `cycle` = 1 and `strobe` = 1 (R82). -/
def Request.isRequest (r : Request) : Bool := r.cycle && r.strobe

/-- A transfer: a request cycle in which `ack` = 1 (R82). -/
def LinkCycle.isTransfer (l : LinkCycle) : Bool := l.req.isRequest && l.resp.ack

/-- The handshake controller of every master port (R95): with a beat to issue, both `cycle` and
`strobe`; without one, nothing. -/
def controller (want : Bool) (a : Nat) (we : Bool) (wd dest : Nat) : Request :=
  if want then ⟨true, true, a, we, wd, dest⟩ else Request.idle

/-- The hold rule between a cycle and the next (R83, R84): after a request cycle without `ack`, the
master presents the same request. -/
def HoldStep (a b : LinkCycle) : Prop :=
  a.req.isRequest = true → a.resp.ack = false → b.req = a.req

/-- A trace of one link (R97): `link t` is what the link carries in cycle `t`, and `len` is the number of
cycles, `none` for an infinite trace. What `link` says of later cycles does not belong to the trace. -/
structure Trace where
  len : Option Nat
  link : Nat → LinkCycle

/-- Cycle `t` belongs to a trace of length `len`. -/
def inTrace (len : Option Nat) (t : Nat) : Prop := ∀ n, len = some n → t < n

/-- `MasterOK` (R97): the hold rule between every two neighbouring cycles of the trace. -/
def MasterOK (tr : Trace) : Prop :=
  ∀ t, inTrace tr.len (t + 1) → HoldStep (tr.link t) (tr.link (t + 1))

/-- `ResponderOK` (R97, R86): `ack` only in a request cycle. -/
def ResponderOK (tr : Trace) : Prop :=
  ∀ t, inTrace tr.len t → (tr.link t).resp.ack = true → (tr.link t).req.isRequest = true

/-- `Live` (R97): every request cycle is followed, after finitely many cycles, by a transfer; in a finite
trace the transfer belongs to the trace. -/
def Live (tr : Trace) : Prop :=
  ∀ t, inTrace tr.len t → (tr.link t).req.isRequest = true →
    ∃ k, inTrace tr.len (t + k) ∧ (tr.link (t + k)).isTransfer = true

/-- The reference responder's registered `ack` (R96): `ack' = cycle & strobe & ~ack`. -/
def refAck (r : Request) (ack : Bool) : Bool := r.cycle && r.strobe && !ack

/-- The reference responder's `ack` in every cycle, from 0 in cycle 0 (R96). -/
def refAckAt (reqs : Nat → Request) : Nat → Bool
  | 0 => false
  | t + 1 => refAck (reqs t) (refAckAt reqs t)

end Sys2Proof.Machine
end

