-- ==== Sys2Proof/Machine/CoreFsm.lean ====
section
/-! DEFINITION. The core as a clocked machine (spec/50_core_fsm.md): its input wires (R330), what it
drives on its two ports in every cycle (R340, R342, R345), and what its registers become at every clock
edge, phase by phase (R348 to R357), with the spec's own listing of the next-state function (R355)
beside it. The meanings of the instructions are those of the architectural step. -/

namespace Sys2Proof.Machine

/-- The core's inputs in one clock cycle (R330, R410). -/
structure CoreInputs where
  rst : Bool
  pAck : Bool
  pReadData : Word
  dAck : Bool
  dReadData : Byte
  deriving DecidableEq, Repr

/-- The program port is open (R340). -/
def State.fetchOpen (s : State) : Bool :=
  !s.halted && decide (s.xs = .none) && !(s.active && !single s.ir)

/-- The data port is open (R345). -/
def State.dataOpen (s : State) : Bool :=
  !s.halted && (decide (s.xs = .load) || decide (s.xs = .store))

/-- A destination tag as the core drives it, on a wire of `DEST_W` bits: a port wired straight to its
responder has none (R330, spec/21_bus_protocol.md R100). No tag of a configuration that passes the check
of R116 loses a bit, since 2^`DEST_W` is at least `N_PORTS` (spec/00_scope.md R9); the closed machine
refuses every other one (`System.cycle`). That the two ports share one wiring is log entry 25. -/
def State.tagWire (s : State) (m : TagMap) (a : Word) : Nat :=
  match s.cfg.wiring with
  | .direct => 0
  | .switched => adapt s.cfg.destW (m.tag a)

/-- The program port's outputs (R342). -/
def State.progRequest (s : State) : Request :=
  controller s.fetchOpen (adapt s.cfg.iaddrW s.pc.toNat) false 0 (s.tagWire s.cfg.progDest s.pc)

/-- The data port is writing. -/
def State.dataWrite (s : State) : Bool := s.dataOpen && decide (s.xs = .store)

/-- The data port's outputs (R345). -/
def State.dataRequest (s : State) : Request :=
  controller s.dataOpen (adapt s.cfg.daddrW s.ea.toNat) s.dataWrite
    (if s.dataWrite then s.storeByte.toNat else 0) (s.tagWire s.cfg.dataDest s.ea)

/-- The decode cycle's part of the edge (R348 to R352), for an instruction of the subset. -/
def State.decodeEdge (s : State) (i : Instr) : Host.Outcome State Fault Refusal :=
  match i.cls with
  | .alu => exec i s
  | .alui => exec i s
  | .lui => exec i s
  | .auipc => exec i s
  | .jal => exec i s
  | .jalr => exec i s
  | .branch => .next s.startBranch
  | .load => .next (s.startLoad (rdOf s.ir) (s.effAddr (rs1Of s.ir) (immIOf s.ir)) (beatsOf s.ir))
  | .store =>
    .next (s.startStore (s.effAddr (rs1Of s.ir) (immSOf s.ir)) (s.getReg (rs2Of s.ir)) (beatsOf s.ir))

/-- One clock edge of the core, by the phase it is in. An `ack` on a closed port changes nothing
(R343). A misaligned fetch is refused in the first cycle in which the port would be open
(spec/93_implementation_defined.md U1). -/
def coreEdge (inp : CoreInputs) (s : State) : Host.Outcome State Fault Refusal :=
  if inp.rst then .next s.afterReset
  else if s.fetchOpen && s.pcMisaligned then .refused .misalignedFetch
  else
    match s.phase with
    | .halt => .next s
    | .dec =>
      match decode s.ir with
      | .instr i =>
        andThen (s.decodeEdge i) fun t =>
          .next (if s.fetchOpen && inp.pAck then t.latchFetch inp.pReadData else t)
      | .fatal _ => .next s.raiseHalt
      | .unspecJalr => .refused .unspecJalrFunct
    | .xb => .next (s.resolveBranch s.branchTaken (offBOf s.ir))
    | .xl => .next (if inp.dAck then s.loadBeat (rdOf s.ir) inp.dReadData else s)
    | .xs => .next (if inp.dAck then s.storeBeat else s)
    | .fr => .next (if inp.pAck then s.latchFetch inp.pReadData else s)

/-! ### The listing of R355

Each part takes the current state `s`, from which every right-hand side is read, and the next state `n`
as the listing has built it so far. -/

/-- "decode cycle". -/
def listingDecode (s n : State) : Host.Outcome State Fault Refusal :=
  if s.active then
    match decode s.ir with
    | .instr i =>
      match i.cls with
      | .alu => andThen (exec i s) fun t => .next { n with x := t.x }
      | .alui => andThen (exec i s) fun t => .next { n with x := t.x }
      | .lui => andThen (exec i s) fun t => .next { n with x := t.x }
      | .auipc => andThen (exec i s) fun t => .next { n with x := t.x }
      | .jal => .next { n.setReg (rdOf s.ir) s.pc with pc := s.pc + (offJOf s.ir).signExtend 32 - 4#32 }
      | .jalr =>
        .next { n.setReg (rdOf s.ir) s.pc with
          pc := (s.getReg (rs1Of s.ir) + signExt12 (immIOf s.ir)) &&& 0xFFFFFFFE#32 }
      | .branch => .next { n with xs := .branch }
      | .load =>
        .next { n.setReg (rdOf s.ir) 0#32 with
          xs := .load
          ea := s.getReg (rs1Of s.ir) + signExt12 (immIOf s.ir)
          cnt := BitVec.ofNat 3 (beatsOf s.ir) }
      | .store =>
        .next { n with
          xs := .store
          ea := s.getReg (rs1Of s.ir) + signExt12 (immSOf s.ir)
          cnt := BitVec.ofNat 3 (beatsOf s.ir)
          sh := s.getReg (rs2Of s.ir) <<< (32 - 8 * beatsOf s.ir) }
    | .fatal _ => .next { n with halted := true }
    | .unspecJalr => .refused .unspecJalrFunct
  else .next n

/-- "fetch completion". -/
def listingFetch (inp : CoreInputs) (s n : State) : State :=
  if s.fetchOpen && inp.pAck then { n with ir := inp.pReadData, pc := s.pc + 4#32, active := true } else n

/-- "execute states", the branch. -/
def listingBranch (s n : State) : State :=
  if s.xs = .branch then
    { n with
      pc := if s.branchTaken then s.pc + (offBOf s.ir).signExtend 32 - 4#32 else n.pc
      xs := .none }
  else n

/-- "execute states", a load with `d_ack`. -/
def listingLoad (inp : CoreInputs) (s n : State) : State :=
  if s.xs = .load ∧ inp.dAck = true then
    { n.setReg (rdOf s.ir) ((s.getReg (rdOf s.ir) <<< 8) ||| inp.dReadData.setWidth 32) with
      ea := s.ea + 1#32
      cnt := s.cnt - 1#3
      xs := if s.cnt = 1#3 then .none else n.xs }
  else n

/-- "execute states", a store with `d_ack`. -/
def listingStore (inp : CoreInputs) (s n : State) : State :=
  if s.xs = .store ∧ inp.dAck = true then
    { n with
      sh := s.sh <<< 8
      ea := s.ea + 1#32
      cnt := s.cnt - 1#3
      xs := if s.cnt = 1#3 then .none else n.xs }
  else n

/-- The whole next-state function as R355 lists it, for `rst` = 0 and `halted` = 0. -/
def listingEdge (inp : CoreInputs) (s : State) : Host.Outcome State Fault Refusal :=
  andThen (listingDecode s { s with active := false, halted := false }) fun n =>
    .next (listingStore inp s (listingLoad inp s (listingBranch s (listingFetch inp s n))))

end Sys2Proof.Machine
end

