-- ==== Sys2Proof/Machine/Switch.lean ====
section
/-! DEFINITION. The bus switch (spec/22_bus_switch.md): the forward path (R112), the return path (R113),
the waiting master (R114), outputs not addressed and tags out of range (R115, R116), width adaptation
(R123) and arbitration (R117). Everything but `select` is combinational (R124). -/

namespace Sys2Proof.Machine

/-- The other master input. -/
def MasterId.other : MasterId → MasterId
  | .m0 => .m1
  | .m1 => .m0

/-- The master input that `select` names (R111). -/
def selectedMaster (sel : MasterId) (m0 m1 : Request) : Request :=
  match sel with
  | .m0 => m0
  | .m1 => m1

/-- A request as it enters a link of the given address and data widths (R123). -/
def Request.narrow (r : Request) (addrW dataW : Nat) : Request :=
  { r with address := adapt addrW r.address, writeData := adapt dataW r.writeData }

/-- What the switch drives on output `j` (R112, R115, R116): the selected master's request when `j` is
its tag, else nothing. -/
def switchOutput (ports : List PortParams) (sel : MasterId) (m0 m1 : Request) (j : Nat) : Request :=
  match ports[j]? with
  | some p =>
    if (selectedMaster sel m0 m1).destination = j then
      { (selectedMaster sel m0 m1).narrow p.addrW p.dataW with destination := 0 }
    else Request.idle
  | none => Request.idle

/-- What the switch returns to master `who` (R113, R114, R116): the addressed responder's answer to the
selected master, nothing to the waiting one and nothing for a tag with no port. -/
def switchReturn (nPorts : Nat) (sel who : MasterId) (m0 m1 : Request) (dataW : Nat)
    (resp : Nat → Response) : Response :=
  if sel = who ∧ (selectedMaster sel m0 m1).destination < nPorts then
    let r := resp (selectedMaster sel m0 m1).destination
    ⟨r.ack, adapt dataW r.readData⟩
  else Response.none

/-- Arbitration (R117): `select` flips exactly when the selected master has `cycle` = 0. -/
def nextSelect (sel : MasterId) (m0 m1 : Request) : MasterId :=
  if (selectedMaster sel m0 m1).cycle then sel else sel.other

end Sys2Proof.Machine
end

