-- ==== Sys2Proof/Machine/System.lean ====
section
/-! DEFINITION. The core joined to memory. `memEdge` is one clock cycle of the core with both ports wired
straight to memory responders that answer or not, as an argument says. `System` is the closed clocked
machine of the spec's traces (spec/50_core_fsm.md section 5, spec/95_test_vectors.md Part 3): the core,
the switch when the configuration has one (spec/22_bus_switch.md R125), and reference responders
(spec/21_bus_protocol.md R96) in front of the two address spaces. The responders are outside the hardware
(spec/00_scope.md R5): their `ack` registers stand here and not in `State`. -/

namespace Sys2Proof.Machine

/-- One clock cycle of the core with memory responders that accept the pending beat exactly when `ack`
is true: data is answered in the transfer cycle, a write is in place before any later beat
(spec/21_bus_protocol.md R88, R89, R92). -/
def memEdge (ack : Bool) (s : State) : Host.Outcome State Fault Refusal :=
  andThen
    (coreEdge
      { rst := false, pAck := s.fetchOpen && ack, pReadData := s.fetchWord,
        dAck := s.dataOpen && ack, dReadData := s.readByte s.ea } s)
    fun t => .next (if s.dataWrite && ack then t.writeByte s.ea s.storeByte else t)

/-- The core on a schedule of answers, one for each cycle. -/
def memRun : List Bool → State → Host.Outcome State Fault Refusal
  | [], s => .next s
  | a :: as, s => andThen (memEdge a s) (memRun as)

/-- The closed clocked machine: the core's state (with the switch's `select` and the contents of both
address spaces) and the registered `ack` of each responder, by port number. With direct wiring port 0 is
the program port's responder and port 1 the data port's. -/
structure System where
  core : State
  acks : List Bool
  deriving DecidableEq, Repr

/-- What a device drives on `read_data` for the address of a request (R88). -/
def deviceRead (s : State) (d : PortDevice) (r : Request) : Nat :=
  match d with
  | .progMem => (Cells.read s.imem (BitVec.ofNat 32 r.address)).toNat
  | .dataMem => (Cells.read s.dmem (BitVec.ofNat 32 r.address)).toNat
  | .absent => 0

/-- The address spaces after a cycle: a write transfer stores its datum (R96). -/
def deviceCommit (s : State) (d : PortDevice) (r : Request) (ack : Bool) : State :=
  if r.isRequest && ack && r.writeEnable then
    match d with
    | .progMem =>
      { s with imem := Cells.write s.imem (BitVec.ofNat 32 r.address) (BitVec.ofNat 32 r.writeData) }
    | .dataMem =>
      { s with dmem := Cells.write s.dmem (BitVec.ofNat 32 r.address) (BitVec.ofNat 8 r.writeData) }
    | .absent => s
  else s

/-- A device's `ack` in the next cycle: the reference responder's, or never. -/
def deviceAck (d : PortDevice) (r : Request) (ack : Bool) : Bool :=
  match d with
  | .progMem => refAck r ack
  | .dataMem => refAck r ack
  | .absent => false

/-- The core's inputs made of what it sees on its two ports. -/
def inputsOf (rst : Bool) (p d : Response) : CoreInputs where
  rst := rst
  pAck := p.ack
  pReadData := BitVec.ofNat 32 p.readData
  dAck := d.ack
  dReadData := BitVec.ofNat 8 d.readData

/-- `ack` of port `j` in this cycle. -/
def System.ack (y : System) (j : Nat) : Bool := y.acks.getD j false

/-- One clock cycle with both ports wired straight to their responders. -/
def System.cycleDirect (rst : Bool) (y : System) : Host.Outcome System Fault Refusal :=
  let s := y.core
  let p := s.progRequest
  let d := s.dataRequest
  andThen
    (coreEdge (inputsOf rst ⟨y.ack 0, deviceRead s .progMem p⟩ ⟨y.ack 1, deviceRead s .dataMem d⟩) s)
    fun t =>
      .next
        { core := deviceCommit (deviceCommit t .progMem p (y.ack 0)) .dataMem d (y.ack 1)
          acks := if rst then [] else [refAck p (y.ack 0), refAck d (y.ack 1)] }

/-- The request the switch sees on the input that a core port drives (R123). -/
def State.masterInput (s : State) (m : MasterId) : Request :=
  match m with
  | .m0 => s.progRequest.narrow s.cfg.m0AddrW s.cfg.m0DataW
  | .m1 => s.dataRequest.narrow s.cfg.m1AddrW s.cfg.m1DataW

/-- What the switch drives on output `j` in this state (R112). -/
def State.portRequest (s : State) (j : Nat) : Request :=
  switchOutput s.cfg.ports s.select (s.masterInput .m0) (s.masterInput .m1) j

/-- The device behind port `j`. -/
def State.deviceAt (s : State) (j : Nat) : PortDevice :=
  match s.cfg.ports[j]? with
  | some p => p.device
  | none => .absent

/-- What the responder behind port `j` answers in this cycle, on a data wire of the port's width. -/
def System.portResponse (y : System) (j : Nat) : Response :=
  match y.core.cfg.ports[j]? with
  | some p => ⟨y.ack j, adapt p.dataW (deviceRead y.core p.device (y.core.portRequest j))⟩
  | none => Response.none

/-- The write transfers of this cycle on ports `0` to `n - 1`, committed to the address spaces. -/
def System.commit (y : System) : Nat → State → State
  | 0, t => t
  | n + 1, t =>
    deviceCommit (System.commit y n t) (y.core.deviceAt n) (y.core.portRequest n) (y.ack n)

/-- One clock cycle with both ports on the switch (R125): the program port is `m[0]`, the data port is
`m[1]`. -/
def System.cycleSwitched (rst : Bool) (y : System) : Host.Outcome System Fault Refusal :=
  let s := y.core
  let m0 := s.masterInput .m0
  let m1 := s.masterInput .m1
  let n := s.cfg.nPorts
  andThen
    (coreEdge
      (inputsOf rst (switchReturn n s.select .m0 m0 m1 s.cfg.m0DataW y.portResponse)
        (switchReturn n s.select .m1 m0 m1 s.cfg.m1DataW y.portResponse)) s)
    fun t =>
      .next
        { core := { System.commit y n t with select := if rst then .m0 else nextSelect s.select m0 m1 }
          acks :=
            if rst then []
            else (List.range n).map fun j => deviceAck (s.deviceAt j) (s.portRequest j) (y.ack j) }

/-- One clock cycle of the closed machine, under a configuration that passes the check of R116; any other
is refused (spec/60_exceptions.md R395), in a reset cycle and in a halt too, since the check belongs to
the configuration and not to a run. -/
def System.cycle (rst : Bool) (y : System) : Host.Outcome System Fault Refusal :=
  if !y.core.cfg.tagsOk then .refused .badDestination
  else
    match y.core.cfg.wiring with
    | .direct => y.cycleDirect rst
    | .switched => y.cycleSwitched rst

/-- `k` clock cycles without reset. -/
def System.run : Nat → System → Host.Outcome System Fault Refusal
  | 0, y => .next y
  | k + 1, y => andThen (y.cycle false) (System.run k)

/-- The closed machine in cycle 0 (spec/70_reset_and_hazards.md R410, R411): every responder's `ack` is
0 (spec/21_bus_protocol.md R101). -/
def System.start (s : State) : System := ⟨s, []⟩

end Sys2Proof.Machine
end

