-- ==== Sys2Proof/Machine/Timing.lean ====
section
/-! DEFINITION. The cycle counts of spec/70_reset_and_hazards.md R430, for a core whose ports are wired
straight to their responders, and what the switch adds (R431). No rule of the architectural level depends on them. -/

namespace Sys2Proof.Machine

/-- The beats of an instruction's data access (R61); 0 for one that makes none. -/
def dataBeats : Instr → Nat
  | .lb _ _ _ => 1
  | .lh _ _ _ => 2
  | .lw _ _ _ => 4
  | .sb _ _ _ => 1
  | .sh _ _ _ => 2
  | .sw _ _ _ => 4
  | .add _ _ _ => 0
  | .sub _ _ _ => 0
  | .sll _ _ _ => 0
  | .slt _ _ _ => 0
  | .sltu _ _ _ => 0
  | .xor _ _ _ => 0
  | .srl _ _ _ => 0
  | .sra _ _ _ => 0
  | .or _ _ _ => 0
  | .and _ _ _ => 0
  | .addi _ _ _ => 0
  | .slti _ _ _ => 0
  | .sltiu _ _ _ => 0
  | .xori _ _ _ => 0
  | .andi _ _ _ => 0
  | .slli _ _ _ => 0
  | .srli _ _ _ => 0
  | .srai _ _ _ => 0
  | .lui _ _ => 0
  | .auipc _ _ => 0
  | .jal _ _ => 0
  | .jalr _ _ _ => 0
  | .beq _ _ _ => 0
  | .bne _ _ _ => 0
  | .blt _ _ _ => 0
  | .bge _ _ _ => 0
  | .bltu _ _ _ => 0
  | .bgeu _ _ _ => 0

/-- `F`: the fetch cycles that are not overlapped, `Lp` or, after a single-cycle instruction, `Lp - 1`
(R430). -/
def fetchCycles (lp : Nat) (previous : Option InstrClass) : Nat :=
  match previous with
  | some c => if c.single then lp - 1 else lp
  | none => lp

/-- The execute cycles of R430's table: one for a branch, `Ld` for each data beat. -/
def executeCycles (i : Instr) (ld : Nat) : Nat :=
  match i.cls with
  | .branch => 1
  | .load => dataBeats i * ld
  | .store => dataBeats i * ld
  | .alu => 0
  | .alui => 0
  | .lui => 0
  | .auipc => 0
  | .jal => 0
  | .jalr => 0

/-- An instruction's cost: fetch cycles, the decode cycle, execute cycles (R430). -/
def instrCycles (i : Instr) (lp ld : Nat) (previous : Option InstrClass) : Nat :=
  fetchCycles lp previous + 1 + executeCycles i ld

/-- The answers to an instruction that is fetched with the port idle before, cycle by cycle: the fetch
beat takes `lp` cycles, the decode cycle none, a branch's execute cycle none, each data beat `ld`
(R430). -/
def answerSchedule (i : Instr) (lp ld : Nat) : List Bool :=
  List.replicate (lp - 1) false ++ [true, false] ++
    match i.cls with
    | .branch => [false]
    | .load => (List.replicate (dataBeats i) (List.replicate (ld - 1) false ++ [true])).flatten
    | .store => (List.replicate (dataBeats i) (List.replicate (ld - 1) false ++ [true])).flatten
    | .alu => []
    | .alui => []
    | .lui => []
    | .auipc => []
    | .jal => []
    | .jalr => []

/-- The waiting cycle the switch adds to the fetch that follows an instruction, with no other master
(R431): one after a jump, a load or a store, none after a branch or a single-cycle instruction. -/
def switchWait (previous : Option InstrClass) : Nat :=
  match previous with
  | some .jal => 1
  | some .jalr => 1
  | some .load => 1
  | some .store => 1
  | some .branch => 0
  | some .alu => 0
  | some .alui => 0
  | some .lui => 0
  | some .auipc => 0
  | none => 0

end Sys2Proof.Machine
end

