-- ==== Sys2Proof/Safety.lean ====
section
/-! DEFINITION. The terms statements use: when a step fetches and runs an instruction, what a meaning
leaves unchanged (frames), the invariants of the architectural and of the clocked machine
(spec/50_core_fsm.md R361), the beats of a data access, and what a safe run is. -/

namespace Sys2Proof.Machine

/-! ### When a step fetches -/

/-- The core is in fetch-ready at an aligned `pc`, under a configuration whose tags name ports. -/
def Ready (s : State) : Prop :=
  s.phase = .fr ∧ s.pcMisaligned = false ∧ s.cfg.tagsOk = true

/-! ### Frames -/

/-- Everything but registers, `pc`, the data space and the latches of a data access is unchanged. -/
def RestSame (s t : State) : Prop :=
  t.ir = s.ir ∧ t.halted = s.halted ∧ t.select = s.select ∧ t.imem = s.imem ∧ t.cfg = s.cfg

/-- The latches of a data access are unchanged. -/
def LatchesSame (s t : State) : Prop :=
  t.xs = s.xs ∧ t.ea = s.ea ∧ t.cnt = s.cnt ∧ t.sh = s.sh

/-- Every byte of the data space reads as before. -/
def BytesSame (s t : State) : Prop := ∀ a : Word, t.readByte a = s.readByte a

/-- No register but `rd` changed. -/
def OtherRegsSame (s t : State) (rd : RegIdx) : Prop := ∀ r, r ≠ rd → t.getReg r = s.getReg r

/-- No register changed. -/
def RegsSame (s t : State) : Prop := ∀ r, t.getReg r = s.getReg r

/-- `t` is `s` after its decode cycle, with `v` in `x[rd]` and nothing else changed: the shape of a
single-cycle instruction (R348). -/
def ResultIn (s t : State) (rd : RegIdx) (v : Word) : Prop :=
  t.getReg rd = v ∧ OtherRegsSame s t rd ∧ t.pc = s.pc ∧ t.active = false ∧ LatchesSame s t ∧
    RestSame s t ∧ BytesSame s t

/-- `t` is `s` after a jump: the link in `x[rd]`, the target in `pc`, nothing else changed (R349). -/
def JumpedTo (s t : State) (rd : RegIdx) (target : Word) : Prop :=
  t.getReg rd = s.pc ∧ OtherRegsSame s t rd ∧ t.pc = target ∧ t.active = false ∧ LatchesSame s t ∧
    RestSame s t ∧ BytesSame s t

/-- `t` is `s` after a branch: `pc` is `target`, nothing else changed but the execute state, which is
over (R350). -/
def BranchedTo (s t : State) (target : Word) : Prop :=
  RegsSame s t ∧ t.pc = target ∧ t.active = false ∧ t.xs = .none ∧ t.ea = s.ea ∧ t.cnt = s.cnt ∧
    t.sh = s.sh ∧ RestSame s t ∧ BytesSame s t

/-- `t` is `s` after a load of `n` bytes from `a` into `x[rd]`: the value in `x[rd]`, the address latch
past the last byte, the count at 0, nothing else changed (R351). -/
def LoadedIn (s t : State) (rd : RegIdx) (a : Word) (n : Nat) (v : Word) : Prop :=
  t.getReg rd = v ∧ OtherRegsSame s t rd ∧ t.pc = s.pc ∧ t.active = false ∧ t.xs = .none ∧
    t.ea = a + BitVec.ofNat 32 n ∧ t.cnt = 0#3 ∧ t.sh = s.sh ∧ RestSame s t ∧ BytesSame s t

/-- The data address `b` is none of the `n` locations that start at `a`, as the data port of `s` carries
them (R65). -/
def OutsideStored (s : State) (a : Word) (n : Nat) (b : Word) : Prop :=
  ∀ i < n, busAddr s.cfg.daddrW b ≠ busAddr s.cfg.daddrW (a + BitVec.ofNat 32 i)

/-- `t` is `s` after a store of the `n` low bytes of `v` at `a`: no register changed, `pc` kept, every
byte outside the stored ones reads as before, and, where the data port tells the `n` addresses apart,
byte `i` holds byte `i` of the truncated copy, most significant first (R220, R56). -/
def StoredAt (s t : State) (a : Word) (n : Nat) (v : Word) : Prop :=
  RegsSame s t ∧ t.pc = s.pc ∧ t.active = false ∧ t.xs = .none ∧ t.ea = a + BitVec.ofNat 32 n ∧
    t.cnt = 0#3 ∧ t.sh = 0#32 ∧ RestSame s t ∧ (∀ b, OutsideStored s a n b → t.readByte b = s.readByte b) ∧
    (n ≤ 2 ^ s.cfg.daddrW → ∀ i < n,
      (t.readByte (a + BitVec.ofNat 32 i)).toNat = v.toNat / 2 ^ (8 * (n - 1 - i)) % 256)

/-! ### Which instructions write what (spec/10_state.md R22) -/

/-- The register an instruction writes, if any. -/
def destOf : Instr → Option RegIdx
  | .add rd _ _ => some rd
  | .sub rd _ _ => some rd
  | .sll rd _ _ => some rd
  | .slt rd _ _ => some rd
  | .sltu rd _ _ => some rd
  | .xor rd _ _ => some rd
  | .srl rd _ _ => some rd
  | .sra rd _ _ => some rd
  | .or rd _ _ => some rd
  | .and rd _ _ => some rd
  | .addi rd _ _ => some rd
  | .slti rd _ _ => some rd
  | .sltiu rd _ _ => some rd
  | .xori rd _ _ => some rd
  | .andi rd _ _ => some rd
  | .slli rd _ _ => some rd
  | .srli rd _ _ => some rd
  | .srai rd _ _ => some rd
  | .lui rd _ => some rd
  | .auipc rd _ => some rd
  | .jal rd _ => some rd
  | .jalr rd _ _ => some rd
  | .beq _ _ _ => none
  | .bne _ _ _ => none
  | .blt _ _ _ => none
  | .bge _ _ _ => none
  | .bltu _ _ _ => none
  | .bgeu _ _ _ => none
  | .lb rd _ _ => some rd
  | .lh rd _ _ => some rd
  | .lw rd _ _ => some rd
  | .sb _ _ _ => none
  | .sh _ _ _ => none
  | .sw _ _ _ => none

/-- The registers an instruction reads (R22). -/
def sourcesOf : Instr → List RegIdx
  | .add _ rs1 rs2 => [rs1, rs2]
  | .sub _ rs1 rs2 => [rs1, rs2]
  | .sll _ rs1 rs2 => [rs1, rs2]
  | .slt _ rs1 rs2 => [rs1, rs2]
  | .sltu _ rs1 rs2 => [rs1, rs2]
  | .xor _ rs1 rs2 => [rs1, rs2]
  | .srl _ rs1 rs2 => [rs1, rs2]
  | .sra _ rs1 rs2 => [rs1, rs2]
  | .or _ rs1 rs2 => [rs1, rs2]
  | .and _ rs1 rs2 => [rs1, rs2]
  | .addi _ rs _ => [rs]
  | .slti _ rs _ => [rs]
  | .sltiu _ rs _ => [rs]
  | .xori _ rs _ => [rs]
  | .andi _ rs _ => [rs]
  | .slli _ rs _ => [rs]
  | .srli _ rs _ => [rs]
  | .srai _ rs _ => [rs]
  | .lui _ _ => []
  | .auipc _ _ => []
  | .jal _ _ => []
  | .jalr _ rs _ => [rs]
  | .beq rs1 rs2 _ => [rs1, rs2]
  | .bne rs1 rs2 _ => [rs1, rs2]
  | .blt rs1 rs2 _ => [rs1, rs2]
  | .bge rs1 rs2 _ => [rs1, rs2]
  | .bltu rs1 rs2 _ => [rs1, rs2]
  | .bgeu rs1 rs2 _ => [rs1, rs2]
  | .lb _ rs _ => [rs]
  | .lh _ rs _ => [rs]
  | .lw _ rs _ => [rs]
  | .sb rs1 rs2 _ => [rs1, rs2]
  | .sh rs1 rs2 _ => [rs1, rs2]
  | .sw rs1 rs2 _ => [rs1, rs2]

/-- The classes that write `pc` (R22). -/
def writesPc : InstrClass → Bool
  | .jal => true
  | .jalr => true
  | .branch => true
  | .alu => false
  | .alui => false
  | .lui => false
  | .auipc => false
  | .load => false
  | .store => false

/-! ### Invariants -/

/-- Both address spaces are in canonical form. -/
def MemInv (s : State) : Prop := Memory.wf s.dmem ∧ ProgMemory.wf s.imem

/-- `pc[0]` = 0 (R29). -/
def PcEven (s : State) : Prop := s.pc.getLsbD 0 = false

/-- What holds between two architectural steps, beside the halted machine: no instruction is in hand. -/
def AtRest (s : State) : Prop := s.active = false ∧ s.xs = .none

/-- The invariant of the architectural step. -/
def ArchInv (s : State) : Prop := MemInv s ∧ PcEven s ∧ AtRest s

/-- The word in `ir` is an instruction of class `c`. -/
def LatchedClass (s : State) (c : InstrClass) : Prop := ∃ i, decode s.ir = .instr i ∧ i.cls = c

/-- Transfers already made of the load or store in its execute state: `n(ir)` - `cnt` (R361). -/
def beatsDone (s : State) : Nat := beatsOf s.ir - s.cnt.toNat

/-- R361 for a load in its execute state: the count, and the address of the next beat. The effective
address can be read back from the base register when the load does not overwrite it. -/
def LoadPhaseInv (s : State) : Prop :=
  s.xs = .load → LatchedClass s .load ∧ 1 ≤ s.cnt.toNat ∧ s.cnt.toNat ≤ beatsOf s.ir ∧
    (rdOf s.ir ≠ rs1Of s.ir →
      s.ea = s.effAddr (rs1Of s.ir) (immIOf s.ir) + BitVec.ofNat 32 (beatsDone s))

/-- R361 for a store in its execute state: the count, the address of the next beat, and the next byte
in `sh[31:24]`. -/
def StorePhaseInv (s : State) : Prop :=
  s.xs = .store → LatchedClass s .store ∧ 1 ≤ s.cnt.toNat ∧ s.cnt.toNat ≤ beatsOf s.ir ∧
    s.ea = s.effAddr (rs1Of s.ir) (immSOf s.ir) + BitVec.ofNat 32 (beatsDone s) ∧
    s.storeByte = storeByteOf (beatsOf s.ir) (s.getReg (rs2Of s.ir)) (beatsDone s) ∧
    s.sh = s.getReg (rs2Of s.ir) <<< (32 - 8 * beatsOf s.ir) <<< (8 * beatsDone s)

/-- The invariants of the clocked core (R361, R29), true in every cycle after reset. -/
def CoreInv (s : State) : Prop :=
  (s.active = true → s.xs = .none) ∧ (s.halted = true → s.active = false ∧ s.xs = .none) ∧
    (s.xs = .branch → LatchedClass s .branch) ∧ LoadPhaseInv s ∧ StorePhaseInv s ∧ PcEven s

/-- While an instruction is in hand, `ir` holds the word the instruction space has at `ia` = `pc` - 4
(R27, R361). -/
def InHandAtIa (s : State) : Prop :=
  s.halted = false → (s.active = true ∨ s.xs ≠ .none) →
    s.ir = Cells.read s.imem (busAddr s.cfg.iaddrW s.ia)

/-! ### The beats of a data access (R55, R56) -/

/-- One transfer on the data port: address, direction, datum of a write. -/
structure Beat where
  address : Word
  isWrite : Bool
  datum : Byte
  deriving DecidableEq, Repr

/-- The transfer on the data port in a cycle in which the pending beat is accepted or not. -/
def dataTransfer (ack : Bool) (s : State) : Option Beat :=
  if s.dataOpen && ack then
    some ⟨s.ea, s.dataWrite, if s.dataWrite then s.storeByte else 0#8⟩
  else none

/-- The data-port transfers of the core on a schedule of answers, in order. -/
def memTransfers : List Bool → State → List Beat
  | [], _ => []
  | a :: as, s =>
    (dataTransfer a s).toList ++
      match memEdge a s with
      | .next t => memTransfers as t
      | .fault _ => []
      | .refused _ => []

/-- The beats a load or store in its execute state still has to make, in order: increasing addresses,
each byte once, a store's bytes leaving `sh` from the top. -/
def remainingBeats (s : State) : Nat → List Beat
  | 0 => []
  | k + 1 =>
    remainingBeats s k ++
      [⟨s.ea + BitVec.ofNat 32 k, s.dataWrite,
        if s.dataWrite then (s.sh <<< (8 * k)).extractLsb' 24 8 else 0#8⟩]

/-! ### Runs -/

/-- `n` steps from `s` that neither stop nor reach the halt. -/
def SafeFor : Nat → State → Prop
  | 0, s => s.halted = false
  | n + 1, s => s.halted = false ∧ ∃ t, step s = .next t ∧ SafeFor n t

end Sys2Proof.Machine
end

