-- ==== Sys2Proof/Certificates/Slice0/Obligations.lean ====
section
/-! DEFINITION. The statements for the provers, each a proposition about the model. Every docstring names
the rules of spec/ the statement rests on; `ResultIn`, `JumpedTo`, `BranchedTo`, `LoadedIn` and `StoredAt`
(Sys2Proof/Safety.lean) hold the frames; that a meaning leaves the hidden registers `active`, `xs`, `ea`,
`cnt` and `sh` as the clocked machine does (spec/50_core_fsm.md R348 to R352) is the model's reading of the
architectural step, log entry 15. D<n> is a decision of spec/92_eei_decisions.md. -/

open Sys2Proof Sys2Proof.Machine

/-! ### Encoding (spec/30_encoding.md) -/

/-- Decoding the word of a well-formed instruction gives the instruction back, for all 34 (R141 to R155,
R165). -/
def Obligations.DecodeEncodeRoundTrip : Prop :=
  ∀ i : Instr, i.wellFormed = true → decode (encode i) = .instr i

/-- A decoded instruction is well-formed, its encoding agrees with the decoded word on every bit the
decoder examines, and the other bits, which R160 names, take no part in the decoding (R156). -/
def Obligations.DecodeDropsOnlyUnexaminedBits : Prop :=
  ∀ (w : Word) (i : Instr), decode w = .instr i →
    i.wellFormed = true ∧ encode i &&& i.examined = w &&& i.examined ∧
      ∀ v : Word, v &&& i.examined = w &&& i.examined → decode v = .instr i

/-- The words that decode to an instruction are the words of the opcode table, a decoded instruction
belongs to its own row, and no word belongs to two rows (spec/30_encoding.md, opening; R150 to R155). -/
def Obligations.TableRowsPartitionTheInstructions : Prop :=
  (∀ w : Word, (∃ i, decode w = .instr i) ↔ ∃ r ∈ tableRows, r.covers w) ∧
    (∀ (w : Word) (i : Instr), decode w = .instr i → i.row ∈ tableRows ∧ i.row.covers w) ∧
    tableRows.Pairwise fun r q => ∀ w : Word, ¬ (r.covers w ∧ q.covers w)

/-- A word halts for a reason exactly when it meets that reason's condition (R157, spec/60_exceptions.md
R381), and is left unspecified exactly when it has the JALR opcode and another function value than `000`
(R155). -/
def Obligations.FatalWordsHaveTheirReason : Prop :=
  (∀ (w : Word) (r : HaltReason), decode w = .fatal r ↔ haltCondition w r) ∧
    ∀ w : Word, decode w = .unspecJalr ↔ opcodeOf w = 0b1100111#7 ∧ functOf w ≠ 0b000#3

/-- One word of each class, and three fatal words, written out from the layouts decode as the spec's
examples say. -/
def Obligations.SampleWordsDecode : Prop :=
  decode 0x002081B3#32 = .instr (.add 3#5 1#5 2#5) ∧
    decode 0xFFF08193#32 = .instr (.addi 3#5 1#5 0xFFF#12) ∧
    decode 0x12345237#32 = .instr (.lui 4#5 0x12345#20) ∧
    decode 0x00001217#32 = .instr (.auipc 4#5 1#20) ∧
    decode 0x001000EF#32 = .instr (.jal 1#5 2048#21) ∧
    decode 0x004100E7#32 = .instr (.jalr 1#5 2#5 4#12) ∧
    decode 0xFE209EE3#32 = .instr (.bne 1#5 2#5 0x1FFC#13) ∧
    decode 0xFFE31283#32 = .instr (.lh 5#5 6#5 0xFFE#12) ∧
    decode 0xFE741E23#32 = .instr (.sh 8#5 7#5 0xFFC#12) ∧
    decode 0x00000000#32 = .fatal .opcode ∧
    decode 0x0010E193#32 = .fatal .aluImmFunct ∧
    decode 0x0840D193#32 = .fatal .shiftImmTop5

/-- The J and B offsets are the source's formulas over the raw fields, read as signed numbers of 21 and
13 bits; they are even and lie in the stated ranges (R148, R149). -/
def Obligations.OffsetsAreReassembled : Prop :=
  ∀ w : Word,
    (let f := w.toNat / 2 ^ 12;
      offJOf w = BitVec.ofNat 21
        (f % 2 ^ 8 * 2 ^ 12 + f / 2 ^ 8 % 2 * 2 ^ 11 + f / 2 ^ 9 % 2 ^ 10 * 2 + f / 2 ^ 19 * 2 ^ 20)) ∧
    offJOf w = w.extractLsb' 31 1 ++ w.extractLsb' 12 8 ++ w.extractLsb' 20 1 ++
      w.extractLsb' 21 10 ++ 0#1 ∧
    (offJOf w).toInt % 2 = 0 ∧ -1048576 ≤ (offJOf w).toInt ∧ (offJOf w).toInt ≤ 1048574 ∧
    (let lo := w.toNat / 2 ^ 7 % 2 ^ 5;
      let hi := w.toNat / 2 ^ 25;
      offBOf w = BitVec.ofNat 13
        (lo % 2 * 2 ^ 11 + lo / 2 % 2 ^ 4 * 2 + hi % 2 ^ 6 * 2 ^ 5 + hi / 2 ^ 6 * 2 ^ 12)) ∧
    offBOf w = w.extractLsb' 31 1 ++ w.extractLsb' 7 1 ++ w.extractLsb' 25 6 ++ w.extractLsb' 8 4 ++ 0#1 ∧
    (offBOf w).toInt % 2 = 0 ∧ -4096 ≤ (offBOf w).toInt ∧ (offBOf w).toInt ≤ 4094

/-- The three unscattered immediates as 32-bit values, with their ranges (R147). -/
def Obligations.ImmediatesAreExtended : Prop :=
  ∀ w : Word,
    signExt12 (immIOf w) = (w.extractLsb' 20 12).signExtend 32 ∧
    signExt12 (immSOf w) = (w.extractLsb' 25 7 ++ w.extractLsb' 7 5).signExtend 32 ∧
    immU (immUOf w) = w &&& 0xFFFFF000#32 ∧
    immU (immUOf w) = (immUOf w).signExtend 32 <<< 12 ∧
    (∀ imm : BitVec 12, (signExt12 imm).toInt = imm.toInt ∧ -2048 ≤ (signExt12 imm).toInt ∧
      (signExt12 imm).toInt ≤ 2047)

/-! ### Reset (spec/10_state.md R44, spec/70_reset_and_hazards.md R410 to R412) -/

/-- The values are those of R44, several of them decisions (D3, D14, D23, D33). At an edge with `rst` = 1 every register of the core and the switch takes its reset value, whatever
the state, a halt included, and both address spaces keep their contents; `State.reset` has those values
too; in the cycle after, the program port is open for a read at address 0 and the data port is idle. -/
def Obligations.ResetGivesTheResetValues : Prop :=
  (∀ (inp : CoreInputs) (s : State), inp.rst = true →
    ∃ t, coreEdge inp s = .next t ∧ (∀ r, t.getReg r = 0#32) ∧ t.pc = 0#32 ∧ t.ir = 0#32 ∧
      t.active = false ∧ t.xs = .none ∧ t.ea = 0#32 ∧ t.cnt = 0#3 ∧ t.sh = 0#32 ∧ t.halted = false ∧
      t.select = .m0 ∧ t.imem = s.imem ∧ t.dmem = s.dmem ∧ t.cfg = s.cfg ∧ t.phase = .fr ∧
      (t.progRequest.cycle = true ∧ t.progRequest.strobe = true ∧ t.progRequest.address = 0 ∧
        t.progRequest.writeEnable = false) ∧ t.dataRequest = Request.idle) ∧
    State.reset = State.reset.afterReset

/-- The machine after reset meets the invariants of the architectural step and of the clocked core. That
its two address spaces list nothing is the model's choice, log entry 3. -/
def Obligations.ResetMeetsTheInvariants : Prop :=
  ArchInv State.reset ∧ CoreInv State.reset ∧ InHandAtIa State.reset

/-! ### The architectural step -/

/-- A step in fetch-ready at an aligned `pc` reads the word of the instruction space at the address the
program port presents, latches it, adds 4 to `pc`, and is the meaning of the decoded instruction
(spec/10_state.md R26, R27; spec/20_memory.md R51). -/
def Obligations.StepRunsTheDecodedInstruction : Prop :=
  ∀ (s : State) (i : Instr), Ready s →
    decode (Cells.read s.imem (busAddr s.cfg.iaddrW s.pc)) = .instr i →
    step s = exec i
      { s with
        ir := Cells.read s.imem (busAddr s.cfg.iaddrW s.pc), pc := s.pc + 4#32, active := true }

/-- A fatal word halts the core: only `halted`, `ir` and `pc` = `ia` + 4 differ, and the reason can be
read back (spec/60_exceptions.md R380, R381; the sticky bit is the spec's decision D14). -/
def Obligations.FatalWordHaltsTheCore : Prop :=
  ∀ (s : State) (r : HaltReason), Ready s → decode s.fetchWord = .fatal r →
    ∃ t, step s = .next t ∧ t.halted = true ∧ RegsSame s t ∧ t.pc = s.pc + 4#32 ∧
      t.ir = s.fetchWord ∧ t.active = false ∧ LatchesSame s t ∧ t.dmem = s.dmem ∧ t.imem = s.imem ∧
      t.select = s.select ∧ t.cfg = s.cfg ∧ t.haltReason = some r

/-- A halted machine stays as it is, at every step and at every clock edge without reset, with both
ports idle (spec/50_core_fsm.md R356). -/
def Obligations.HaltedMachineKeepsEveryRegister : Prop :=
  ∀ s : State, s.halted = true →
    step s = .next s ∧ (∀ inp : CoreInputs, inp.rst = false → coreEdge inp s = .next s) ∧
      s.progRequest = Request.idle ∧ s.dataRequest = Request.idle

/-- A step that does not answer a next state is one of the three named refusals of
spec/60_exceptions.md R395, each where its rule says (decisions D13, D17); there is no fault. The model's
choices in it: `badDestination` is raised by the step of a machine that has not halted and only with
switched wiring (log entry 11), the halt is looked for first, then the tags, then the alignment (log
entry 22), and a step from a state with an instruction in its decode cycle completes it (log entry 15). -/
def Obligations.StepStopsOnlyAtTheNamedRefusals : Prop :=
  ∀ s : State,
    (step s = .refused .badDestination ↔ s.halted = false ∧ s.cfg.tagsOk = false) ∧
    (step s = .refused .misalignedFetch ↔
      s.cfg.tagsOk = true ∧ s.phase = .fr ∧ s.pcMisaligned = true) ∧
    (step s = .refused .unspecJalrFunct ↔
      s.cfg.tagsOk = true ∧
        ((s.phase = .fr ∧ s.pcMisaligned = false ∧ decode s.fetchWord = .unspecJalr) ∨
          (s.phase = .dec ∧ decode s.ir = .unspecJalr))) ∧
    ((∃ t, step s = .next t) ∨ step s = .refused .badDestination ∨
      step s = .refused .misalignedFetch ∨ step s = .refused .unspecJalrFunct)

/-- Every instruction completes in every state: none stops on any operand or at any address
(spec/60_exceptions.md R384, R386, spec/20_memory.md R59, R66). That a load or store always ends is the
model's choice, log entry 18: without an `ack` it hangs (spec/20_memory.md R74). -/
def Obligations.EveryInstructionCompletes : Prop :=
  ∀ (i : Instr) (s : State), ∃ t, exec i s = .next t

/-! ### Register-register arithmetic (spec/43_alu_reg.md) -/

/-- ADD and SUB are modulo 2^32, whether the operands are read as unsigned or as signed (R241, R242). -/
def Obligations.AddSubResults : Prop :=
  ∀ (rd rs1 rs2 : RegIdx) (s : State),
    let a := s.getReg rs1
    let b := s.getReg rs2
    decode (encR 0b0000000#7 rs2 rs1 0b000#3 rd 0b0110011#7) = .instr (.add rd rs1 rs2) ∧
    (∃ t, exec (.add rd rs1 rs2) s = .next t ∧ ResultIn s t rd (BitVec.ofNat 32 (a.toNat + b.toNat)) ∧
      t.getReg rd = BitVec.ofInt 32 (a.toInt + b.toInt)) ∧
    decode (encR 0b0100000#7 rs2 rs1 0b000#3 rd 0b0110011#7) = .instr (.sub rd rs1 rs2) ∧
    (∃ t, exec (.sub rd rs1 rs2) s = .next t ∧
      ResultIn s t rd (BitVec.ofInt 32 ((a.toNat : Int) - (b.toNat : Int))) ∧
      t.getReg rd = BitVec.ofInt 32 (a.toInt - b.toInt) ∧ (rs1 = rs2 → t.getReg rd = 0#32))

/-- SLL is the narrow shift-left: a count above `SLL_LIMIT` (5 or 7), read as unsigned over the whole
register, gives 0; others shift by the low three bits of the count (R243, decision D9). -/
def Obligations.NarrowShiftLeftResult : Prop :=
  ∀ (rd rs1 rs2 : RegIdx) (s : State),
    let a := (s.getReg rs1).toNat
    let n := (s.getReg rs2).toNat
    ∃ t, exec (.sll rd rs1 rs2) s = .next t ∧
      ResultIn s t rd
        (if n > (match s.cfg.sllLimit with | .five => 5 | .seven => 7) then 0#32
        else BitVec.ofNat 32 (a * 2 ^ (n % 8)))

/-- SRL and SRA divide, rounding down, by the power of two of the amount: the whole count under
`SHR_AMOUNT` = `full`, its low five bits under `low5` (R247, R248, decision D10; spec/00_scope.md R12). -/
def Obligations.RightShiftResults : Prop :=
  ∀ (rd rs1 rs2 : RegIdx) (s : State),
    let a := s.getReg rs1
    let n := match s.cfg.shrAmount with
      | .full => (s.getReg rs2).toNat
      | .low5 => (s.getReg rs2).toNat % 32
    (∃ t, exec (.srl rd rs1 rs2) s = .next t ∧ ResultIn s t rd (BitVec.ofNat 32 (a.toNat / 2 ^ n))) ∧
    (∃ t, exec (.sra rd rs1 rs2) s = .next t ∧ ResultIn s t rd (BitVec.ofInt 32 (a.toInt / 2 ^ n)))

/-- SLT, SLTU and SLTI write exactly 1 or 0 (R244, R245; spec/44_alu_imm.md R272). -/
def Obligations.SetLessThanResults : Prop :=
  ∀ (rd rs1 rs2 : RegIdx) (imm : BitVec 12) (s : State),
    let a := s.getReg rs1
    let b := s.getReg rs2
    decode (encR 0b0000000#7 rs2 rs1 0b010#3 rd 0b0110011#7) = .instr (.slt rd rs1 rs2) ∧
    (∃ t, exec (.slt rd rs1 rs2) s = .next t ∧
      ResultIn s t rd (if a.toInt < b.toInt then 1#32 else 0#32)) ∧
    decode (encR 0b0000000#7 rs2 rs1 0b011#3 rd 0b0110011#7) = .instr (.sltu rd rs1 rs2) ∧
    (∃ t, exec (.sltu rd rs1 rs2) s = .next t ∧
      ResultIn s t rd (if a.toNat < b.toNat then 1#32 else 0#32)) ∧
    decode (encI imm rs1 0b010#3 rd 0b0010011#7) = .instr (.slti rd rs1 imm) ∧
    (∃ t, exec (.slti rd rs1 imm) s = .next t ∧
      ResultIn s t rd (if a.toInt < imm.toInt then 1#32 else 0#32))

/-- XOR, OR and AND act bit by bit; XOR of a register with itself clears it, OR copies, AND leaves it
unchanged (R246, R249, R250). -/
def Obligations.LogicResults : Prop :=
  ∀ (rd rs1 rs2 : RegIdx) (s : State),
    decode (encR 0b0000000#7 rs2 rs1 0b100#3 rd 0b0110011#7) = .instr (.xor rd rs1 rs2) ∧
    (∃ t v, exec (.xor rd rs1 rs2) s = .next t ∧ ResultIn s t rd v ∧
      (∀ k < 32, v.getLsbD k = ((s.getReg rs1).getLsbD k != (s.getReg rs2).getLsbD k)) ∧
      (rs1 = rs2 → v = 0#32)) ∧
    decode (encR 0b0000000#7 rs2 rs1 0b110#3 rd 0b0110011#7) = .instr (.or rd rs1 rs2) ∧
    (∃ t v, exec (.or rd rs1 rs2) s = .next t ∧ ResultIn s t rd v ∧
      (∀ k < 32, v.getLsbD k = ((s.getReg rs1).getLsbD k || (s.getReg rs2).getLsbD k)) ∧
      (rs1 = rs2 → v = s.getReg rs1)) ∧
    decode (encR 0b0000000#7 rs2 rs1 0b111#3 rd 0b0110011#7) = .instr (.and rd rs1 rs2) ∧
    (∃ t v, exec (.and rd rs1 rs2) s = .next t ∧ ResultIn s t rd v ∧
      (∀ k < 32, v.getLsbD k = ((s.getReg rs1).getLsbD k && (s.getReg rs2).getLsbD k)) ∧
      (rs1 = rs2 → v = s.getReg rs1))

/-! ### Register-immediate arithmetic (spec/44_alu_imm.md) -/

/-- ADDI, XORI and ANDI with the sign-extended immediate, and their corner cases: ADDI by 0 copies, XORI
by -1 complements, ANDI by 0 clears (R271, R274, R275). -/
def Obligations.ImmediateArithmeticResults : Prop :=
  ∀ (rd rs : RegIdx) (imm : BitVec 12) (s : State),
    let a := s.getReg rs
    decode (encI imm rs 0b000#3 rd 0b0010011#7) = .instr (.addi rd rs imm) ∧
    (∃ t, exec (.addi rd rs imm) s = .next t ∧
      ResultIn s t rd (BitVec.ofInt 32 ((a.toNat : Int) + imm.toInt)) ∧
      (imm = 0#12 → t.getReg rd = a)) ∧
    decode (encI imm rs 0b100#3 rd 0b0010011#7) = .instr (.xori rd rs imm) ∧
    (∃ t, exec (.xori rd rs imm) s = .next t ∧ ResultIn s t rd (a ^^^ imm.signExtend 32) ∧
      (imm = 0xFFF#12 → t.getReg rd = ~~~a)) ∧
    decode (encI imm rs 0b111#3 rd 0b0010011#7) = .instr (.andi rd rs imm) ∧
    (∃ t, exec (.andi rd rs imm) s = .next t ∧ ResultIn s t rd (a &&& imm.signExtend 32) ∧
      (imm = 0#12 → t.getReg rd = 0#32))

/-- SLTIU compares as unsigned with the immediate sign-extended to 32 bits, so a negative immediate
stands for a number from 2^32 - 2048 up (R273). -/
def Obligations.SltiuResult : Prop :=
  ∀ (rd rs : RegIdx) (imm : BitVec 12) (s : State),
    let bound : Int := if imm.toInt < 0 then imm.toInt + 2 ^ 32 else imm.toInt
    ∃ t, exec (.sltiu rd rs imm) s = .next t ∧
      ResultIn s t rd (if ((s.getReg rs).toNat : Int) < bound then 1#32 else 0#32)

/-- SLLI, SRLI and SRAI are exact 32-bit shifts by 0 to 31, whatever the unexamined bits of the word are
(R276, R277, R278; decision D11). -/
def Obligations.ImmediateShiftResults : Prop :=
  ∀ (rd rs shamt : RegIdx) (x : BitVec 7) (s : State),
    let a := s.getReg rs
    decode (encR x shamt rs 0b001#3 rd 0b0010011#7) = .instr (.slli rd rs shamt) ∧
    (∃ t, exec (.slli rd rs shamt) s = .next t ∧
      ResultIn s t rd (BitVec.ofNat 32 (a.toNat * 2 ^ shamt.toNat))) ∧
    decode (encR (x &&& 0b0000011#7) shamt rs 0b101#3 rd 0b0010011#7) = .instr (.srli rd rs shamt) ∧
    (∃ t, exec (.srli rd rs shamt) s = .next t ∧
      ResultIn s t rd (BitVec.ofNat 32 (a.toNat / 2 ^ shamt.toNat))) ∧
    decode (encR (0b0100000#7 ||| x &&& 0b0000011#7) shamt rs 0b101#3 rd 0b0010011#7) =
      .instr (.srai rd rs shamt) ∧
    (∃ t, exec (.srai rd rs shamt) s = .next t ∧
      ResultIn s t rd (BitVec.ofInt 32 (a.toInt / 2 ^ shamt.toNat)))

/-! ### Upper immediates (spec/45_upper_imm.md) and jumps (spec/46_jump.md) -/

/-- LUI writes bits 31 to 12 from the instruction and zeros below (R301). -/
def Obligations.LuiResult : Prop :=
  ∀ (rd : RegIdx) (imm : BitVec 20) (s : State),
    decode (encU imm rd 0b0110111#7) = .instr (.lui rd imm) ∧
    ∃ t v, exec (.lui rd imm) s = .next t ∧ ResultIn s t rd v ∧ v.extractLsb' 12 20 = imm ∧
      v.extractLsb' 0 12 = 0#12

/-- AUIPC adds the placed immediate to the instruction's own address, or, under the alternative
parameter, to the address after it (R302, decision D5). -/
def Obligations.AuipcResult : Prop :=
  ∀ (rd : RegIdx) (imm : BitVec 20) (s : State),
    ∃ t, exec (.auipc rd imm) s = .next t ∧
      ResultIn s t rd (BitVec.ofInt 32 ((imm.toNat * 4096 : Nat) +
        (match s.cfg.auipcBase with
        | .instrAddr => (s.pc.toNat : Int) - 4
        | .nextAddr => (s.pc.toNat : Int))))

/-- JAL writes the link `ia` + 4 and jumps to `ia` + `off` modulo 2^32 (R311, R313). -/
def Obligations.JalJumps : Prop :=
  ∀ (rd : RegIdx) (off : BitVec 21) (s : State),
    ∃ t, exec (.jal rd off) s = .next t ∧
      JumpedTo s t rd (BitVec.ofInt 32 ((s.pc.toNat : Int) - 4 + off.toInt))

/-- JALR writes the link and jumps to the register plus the immediate, modulo 2^32, with bit 0 cleared;
the register is read before the link is written (R312, R313). -/
def Obligations.JalrJumps : Prop :=
  ∀ (rd rs : RegIdx) (imm : BitVec 12) (s : State),
    let sum := BitVec.ofInt 32 ((s.getReg rs).toNat + imm.toInt)
    ∃ t, exec (.jalr rd rs imm) s = .next t ∧
      JumpedTo s t rd (BitVec.ofNat 32 (sum.toNat / 2 * 2))

/-! ### Branches (spec/40_branch.md) -/

/-- BEQ and BNE: to `ia` + `off` when the registers are equal, or are not; otherwise `pc` keeps `ia` + 4
(R181, R182). -/
def Obligations.BranchOnEquality : Prop :=
  ∀ (rs1 rs2 : RegIdx) (off : BitVec 13) (s : State),
    let target := BitVec.ofInt 32 ((s.ia.toNat : Int) + off.toInt)
    (evenOffset off = true →
      decode (encB off rs2 rs1 0b000#3 0b1100011#7) = .instr (.beq rs1 rs2 off)) ∧
    (∃ t, exec (.beq rs1 rs2 off) s = .next t ∧
      BranchedTo s t (if s.getReg rs1 = s.getReg rs2 then target else s.ia + 4#32)) ∧
    (evenOffset off = true →
      decode (encB off rs2 rs1 0b001#3 0b1100011#7) = .instr (.bne rs1 rs2 off)) ∧
    (∃ t, exec (.bne rs1 rs2 off) s = .next t ∧
      BranchedTo s t (if s.getReg rs1 ≠ s.getReg rs2 then target else s.ia + 4#32))

/-- BLT and BGE compare as signed; exactly one of them is taken (R183, R184). -/
def Obligations.BranchOnSignedOrder : Prop :=
  ∀ (rs1 rs2 : RegIdx) (off : BitVec 13) (s : State),
    let target := BitVec.ofInt 32 ((s.ia.toNat : Int) + off.toInt)
    (evenOffset off = true →
      decode (encB off rs2 rs1 0b100#3 0b1100011#7) = .instr (.blt rs1 rs2 off)) ∧
    (∃ t, exec (.blt rs1 rs2 off) s = .next t ∧
      BranchedTo s t (if (s.getReg rs1).toInt < (s.getReg rs2).toInt then target else s.ia + 4#32)) ∧
    (evenOffset off = true →
      decode (encB off rs2 rs1 0b101#3 0b1100011#7) = .instr (.bge rs1 rs2 off)) ∧
    (∃ t, exec (.bge rs1 rs2 off) s = .next t ∧
      BranchedTo s t (if (s.getReg rs1).toInt ≥ (s.getReg rs2).toInt then target else s.ia + 4#32)) ∧
    (condTaken .ge (s.getReg rs1) (s.getReg rs2) = !condTaken .lt (s.getReg rs1) (s.getReg rs2))

/-- BLTU and BGEU compare as unsigned; exactly one of them is taken (R185, R186). -/
def Obligations.BranchOnUnsignedOrder : Prop :=
  ∀ (rs1 rs2 : RegIdx) (off : BitVec 13) (s : State),
    let target := BitVec.ofInt 32 ((s.ia.toNat : Int) + off.toInt)
    (evenOffset off = true →
      decode (encB off rs2 rs1 0b110#3 0b1100011#7) = .instr (.bltu rs1 rs2 off)) ∧
    (∃ t, exec (.bltu rs1 rs2 off) s = .next t ∧
      BranchedTo s t (if (s.getReg rs1).toNat < (s.getReg rs2).toNat then target else s.ia + 4#32)) ∧
    (evenOffset off = true →
      decode (encB off rs2 rs1 0b111#3 0b1100011#7) = .instr (.bgeu rs1 rs2 off)) ∧
    (∃ t, exec (.bgeu rs1 rs2 off) s = .next t ∧
      BranchedTo s t (if (s.getReg rs1).toNat ≥ (s.getReg rs2).toNat then target else s.ia + 4#32)) ∧
    (condTaken .geu (s.getReg rs1) (s.getReg rs2) = !condTaken .ltu (s.getReg rs1) (s.getReg rs2))

/-! ### Loads, stores and the data space (spec/41_load.md, spec/42_store.md, spec/20_memory.md) -/

/-- LB, LH and LW: the bytes from the effective address on, most significant first, zero-extended; the
address uses the old base register, also when that is the destination (R200 to R203, R205; decisions D6
and D8). That a read beat returns the byte last stored and changes no byte, and that the load ends, are
the model's choices, log entries 6 and 18. -/
def Obligations.LoadResults : Prop :=
  ∀ (rd rs : RegIdx) (imm : BitVec 12) (s : State),
    let a := BitVec.ofInt 32 ((s.getReg rs).toNat + imm.toInt)
    let byte := fun k : Nat => (s.readByte (a + BitVec.ofNat 32 k)).toNat
    (∃ t, exec (.lb rd rs imm) s = .next t ∧
      LoadedIn s t rd a 1 (BitVec.ofNat 32 (byte 0)) ∧ t.getReg rd = s.memRead a .byte) ∧
    (∃ t, exec (.lh rd rs imm) s = .next t ∧
      LoadedIn s t rd a 2 (BitVec.ofNat 32 (byte 0 * 256 + byte 1)) ∧
      t.getReg rd = s.memRead a .half) ∧
    (∃ t, exec (.lw rd rs imm) s = .next t ∧
      LoadedIn s t rd a 4
        (BitVec.ofNat 32 (((byte 0 * 256 + byte 1) * 256 + byte 2) * 256 + byte 3)) ∧
      t.getReg rd = s.memRead a .word)

/-- After `k` beats of a load of `n` the destination holds the first `k` bytes, zero-extended: 0, then
`b_0`, then `b_0 ++ b_1` … (R206). That the beats return the bytes of the data space as it stands is the
model's choice, log entry 6. -/
def Obligations.LoadAccumulatesInTheDestination : Prop :=
  ∀ (rd : RegIdx) (a : Word) (n k : Nat) (s : State), n ≤ 4 → k ≤ n →
    ((State.loadBeats rd k (s.startLoad rd a n)).getReg rd).toNat =
      (List.range k).foldl (fun v j => v * 256 + (s.readByte (a + BitVec.ofNat 32 j)).toNat) 0

/-- SB, SH and SW: the bytes of the truncated copy from the effective address on, most significant first,
and no other byte, no register and no `pc` change (R220 to R223, spec/20_memory.md R56). That a location
then reads the byte written, that a store leaves the instruction space alone and that it ends, are the
model's choices, log entries 6, 5 and 18. Where the port cannot tell the `n` addresses apart, the bytes of
the access itself are left out. -/
def Obligations.StoreResults : Prop :=
  ∀ (rs1 rs2 : RegIdx) (imm : BitVec 12) (s : State),
    let a := s.effAddr rs1 imm
    a = BitVec.ofInt 32 ((s.getReg rs1).toNat + imm.toInt) ∧
    (∃ t, exec (.sb rs1 rs2 imm) s = .next t ∧ StoredAt s t a 1 (s.getReg rs2)) ∧
    (∃ t, exec (.sh rs1 rs2 imm) s = .next t ∧ StoredAt s t a 2 (s.getReg rs2)) ∧
    (∃ t, exec (.sw rs1 rs2 imm) s = .next t ∧ StoredAt s t a 4 (s.getReg rs2))

/-- A load of the same width from the address of a store gives the stored bytes, zero-extended, and a
narrow load sees the bytes a wide store wrote, on a data port that tells the stored addresses apart
(spec/20_memory.md R58; R225 g). R58 speaks of a responder that stores what it is written; that the data
space is one is the model's choice, log entry 6. -/
def Obligations.StoredBytesAreLoadedBack : Prop :=
  ∀ (rs1 rs2 rd rs : RegIdx) (imm off : BitVec 12) (s : State), 2 ≤ s.cfg.daddrW →
    let v := (s.getReg rs2).toNat
    (∃ t u, exec (.sb rs1 rs2 imm) s = .next t ∧ exec (.lb rd rs1 imm) t = .next u ∧
      (u.getReg rd).toNat = v % 2 ^ 8) ∧
    (∃ t u, exec (.sh rs1 rs2 imm) s = .next t ∧ exec (.lh rd rs1 imm) t = .next u ∧
      (u.getReg rd).toNat = v % 2 ^ 16) ∧
    (∃ t u, exec (.sw rs1 rs2 imm) s = .next t ∧ exec (.lw rd rs1 imm) t = .next u ∧
      (u.getReg rd).toNat = v) ∧
    (∃ t, exec (.sw rs1 rs2 imm) s = .next t ∧
      (t.effAddr rs off = s.effAddr rs1 imm →
        ∃ u w, exec (.lb rd rs off) t = .next u ∧ (u.getReg rd).toNat = v / 2 ^ 24 ∧
          exec (.lh rd rs off) t = .next w ∧ (w.getReg rd).toNat = v / 2 ^ 16) ∧
      (t.effAddr rs off = s.effAddr rs1 imm + 2#32 →
        ∃ u, exec (.lh rd rs off) t = .next u ∧ (u.getReg rd).toNat = v % 2 ^ 16) ∧
      (t.effAddr rs off = s.effAddr rs1 imm + 3#32 →
        ∃ u, exec (.lb rd rs off) t = .next u ∧ (u.getReg rd).toNat = v % 2 ^ 8))

/-- Addresses that differ only above the port width reach the same location, for fetches, reads and
writes (spec/20_memory.md R65, decision D16). -/
def Obligations.AddressesAreTruncated : Prop :=
  ∀ (s : State) (a b : Word),
    (a.toNat % 2 ^ s.cfg.daddrW = b.toNat % 2 ^ s.cfg.daddrW →
      s.readByte a = s.readByte b ∧ ∀ v : Byte, s.writeByte a v = s.writeByte b v) ∧
    (a.toNat % 2 ^ s.cfg.iaddrW = b.toNat % 2 ^ s.cfg.iaddrW →
      { s with pc := a }.fetchWord = { s with pc := b }.fetchWord)

/-! ### Whole-machine rules -/

/-- Register 0 is an ordinary register: an instruction with `rd` = 0 changes it, and an instruction with
source field 0 reads what it last received (spec/10_state.md R21). -/
def Obligations.RegisterZeroIsOrdinary : Prop :=
  ∀ (rd : RegIdx) (imm : BitVec 20) (s : State),
    ∃ t u, exec (.lui 0#5 imm) s = .next t ∧ (t.getReg 0#5).toNat = imm.toNat * 4096 ∧
      exec (.or rd 0#5 0#5) t = .next u ∧ (u.getReg rd).toNat = imm.toNat * 4096

/-- What an instruction writes, over all of the state: only its destination register, `pc` only in the
jumps and branches, the data space only in the stores and there only the stored bytes, the latches of a
data access only in loads and stores; never the instruction space, `ir`, the halt, the switch or the
configuration (spec/10_state.md R22, R25; spec/20_memory.md R50). That a load leaves the data space alone
and a store the instruction space is the model's choice, log entries 6 and 5; the hidden registers are
log entry 15. -/
def Obligations.InstructionsWriteOnlyTheirOwn : Prop :=
  ∀ (i : Instr) (s : State),
    ∃ t, exec i s = .next t ∧ (∀ r, destOf i ≠ some r → t.getReg r = s.getReg r) ∧
      (writesPc i.cls = false → t.pc = s.pc) ∧ (i.cls ≠ .store → t.dmem = s.dmem) ∧
      (∀ rs1 rs2 imm b,
        (i = .sb rs1 rs2 imm → OutsideStored s (s.effAddr rs1 imm) 1 b → t.readByte b = s.readByte b) ∧
        (i = .sh rs1 rs2 imm → OutsideStored s (s.effAddr rs1 imm) 2 b → t.readByte b = s.readByte b) ∧
        (i = .sw rs1 rs2 imm → OutsideStored s (s.effAddr rs1 imm) 4 b → t.readByte b = s.readByte b)) ∧
      t.xs = (if i.cls = .branch ∨ i.cls = .load ∨ i.cls = .store then .none else s.xs) ∧
      (i.cls ≠ .load → i.cls ≠ .store → t.ea = s.ea ∧ t.cnt = s.cnt) ∧
      (i.cls ≠ .store → t.sh = s.sh) ∧ t.active = false ∧ RestSame s t

/-- What an instruction reads: changing a register that is none of its sources changes nothing else in
the outcome (spec/10_state.md R22). -/
def Obligations.InstructionsReadOnlyTheirSources : Prop :=
  ∀ (i : Instr) (s : State) (r : RegIdx) (v : Word), r ∉ sourcesOf i →
    ∃ t, exec i s = .next t ∧
      exec i (s.setReg r v) = .next (if destOf i = some r then t else t.setReg r v)

/-- The invariant of the architectural machine is kept by every step from every state that has it: both
address spaces stay in canonical form, `pc[0]` stays 0, no instruction is left in hand. -/
def Obligations.StepKeepsTheInvariant : Prop :=
  ∀ s t : State, ArchInv s → step s = .next t → ArchInv t

/-! ### The clocked core (spec/50_core_fsm.md) -/

/-- The invariants of R361 (with `pc[0]` = 0, spec/10_state.md R29) are kept at every clock edge, for every
answer of the responders. -/
def Obligations.ClockEdgeKeepsTheInvariants : Prop :=
  ∀ (inp : CoreInputs) (s t : State), CoreInv s → coreEdge inp s = .next t → CoreInv t

/-- While an instruction is in hand, `pc` is its own address plus 4: the word at `pc` - 4 of the
instruction space is the one in `ir` (R361, spec/10_state.md R27). That the instruction space still holds
that word while a store makes its beats rests on the two spaces being distinct, the model's choice, log
entry 5. -/
def Obligations.InstructionInHandIsTheOneAtPcMinusFour : Prop :=
  ∀ (ack : Bool) (s t : State), CoreInv s → InHandAtIa s → memEdge ack s = .next t → InHandAtIa t

/-- The clocked core refines the architectural step (R362, spec/00_scope.md R7): an edge that does not
end a fetch leaves the outcome of the instruction in hand as it is, and an edge that ends a fetch turns
the finished state `u` into one whose instruction in hand finishes as `step u`. It holds in unreachable
states too, where the outcome rests on the model's choices of log entries 16 and 17; the responders are
the model's memories, log entry 6. -/
def Obligations.ClockedCoreRefinesTheStep : Prop :=
  ∀ (ack : Bool) (s t : State), s.cfg.tagsOk = true → (s.active = true → s.xs = .none) →
    memEdge ack s = .next t →
    if (s.fetchOpen && ack) = true then ∃ u, s.finish = .next u ∧ t.finish = step u
    else t.finish = s.finish

/-- The phase-by-phase edge is the next-state function as R355 lists it. -/
def Obligations.EdgeIsTheListing : Prop :=
  ∀ (inp : CoreInputs) (s : State), inp.rst = false → s.halted = false →
    (s.active = true → s.xs = .none) → (s.fetchOpen = true → s.pcMisaligned = false) →
    coreEdge inp s = listingEdge inp s

/-- Both core ports keep the hold rule for every behaviour of the responders (R360,
spec/21_bus_protocol.md R83, R84), over infinite runs and over finite ones of any number of cycles, also
those after whose last cycle the clock edge is a refusal. -/
def Obligations.CorePortsKeepTheHoldRule : Prop :=
  ∀ (len : Option Nat) (inp : Nat → CoreInputs) (run : Nat → State), CoreInv (run 0) →
    (∀ k, inTrace len (k + 1) → (inp k).rst = false ∧ coreEdge (inp k) (run k) = .next (run (k + 1))) →
    MasterOK ⟨len, fun k => ⟨(run k).progRequest, ⟨(inp k).pAck, (inp k).pReadData.toNat⟩⟩⟩ ∧
      MasterOK ⟨len, fun k => ⟨(run k).dataRequest, ⟨(inp k).dAck, (inp k).dReadData.toNat⟩⟩⟩

/-- The two ports are never open in the same cycle, and a closed port drives nothing (R347,
spec/20_memory.md R68, spec/21_bus_protocol.md R98). -/
def Obligations.PortsAreNeverBothOpen : Prop :=
  ∀ s : State,
    ¬ (s.progRequest.cycle = true ∧ s.dataRequest.cycle = true) ∧
      (s.progRequest.cycle = false → s.progRequest = Request.idle) ∧
      (s.dataRequest.cycle = false → s.dataRequest = Request.idle) ∧
      s.progRequest.writeEnable = false

/-- What the core takes from its inputs: an answer on a closed port, read data outside a transfer, and the
read data of a write transfer change no register (R343, decision D20; spec/21_bus_protocol.md R88;
spec/42_store.md R225 e). -/
def Obligations.AnswersOutsideATransferAreIgnored : Prop :=
  ∀ (a b : CoreInputs) (s : State), CoreInv s → a.rst = b.rst →
    (s.fetchOpen = true → a.pAck = b.pAck ∧ (a.pAck = true → a.pReadData = b.pReadData)) →
    (s.dataOpen = true → a.dAck = b.dAck) →
    (s.dataOpen = true → s.dataWrite = false → a.dAck = true → a.dReadData = b.dReadData) →
    coreEdge a s = coreEdge b s

/-- Waiting (R357): without an answer fetch-ready, a load and a store stay exactly as they are, for any
number of cycles; a single-cycle instruction in its decode cycle completes without waiting, and the same
fetch is then pending in fetch-ready. A fetch at a misaligned `pc`, which a model refuses (decision D17),
is left out. -/
def Obligations.WaitingChangesNothing : Prop :=
  ∀ s : State, CoreInv s →
    (∀ inp : CoreInputs, inp.rst = false →
      (s.phase = .fr → s.pcMisaligned = false → inp.pAck = false → coreEdge inp s = .next s) ∧
      (s.phase = .xl → inp.dAck = false → coreEdge inp s = .next s) ∧
      (s.phase = .xs → inp.dAck = false → coreEdge inp s = .next s) ∧
      (∀ i, s.phase = .dec → decode s.ir = .instr i → i.cls.single = true →
        s.pcMisaligned = false → inp.pAck = false →
        ∃ t, coreEdge inp s = .next t ∧ exec i s = .next t ∧ t.phase = .fr ∧
          t.progRequest = s.progRequest ∧ s.progRequest.isRequest = true)) ∧
    ((s.phase = .fr ∧ s.pcMisaligned = false) ∨ s.phase = .xl ∨ s.phase = .xs →
      ∀ n, memRun (List.replicate n false) s = .next s)

/-- A load or store in its execute state makes exactly its remaining beats, each once and in increasing
address order, however the answers are spaced, keeps its request up from the first to the last of them, and is
then in fetch-ready (spec/20_memory.md R55, R56, R63; spec/21_bus_protocol.md R91). -/
def Obligations.DataBeatsAreMadeExactlyOnce : Prop :=
  ∀ (s : State) (acks : List Bool), CoreInv s → s.dataOpen = true → s.pcMisaligned = false →
    acks.count true ≤ s.cnt.toNat →
    memTransfers acks s = (remainingBeats s s.cnt.toNat).take (acks.count true) ∧
      ∃ t, memRun acks s = .next t ∧
        (acks.count true < s.cnt.toNat → t.dataRequest.isRequest = true) ∧
        (acks.count true = s.cnt.toNat → t.phase = .fr)

/-- One edge of a load or store in its execute state: without an answer nothing changes; an answered edge
makes the first of the remaining beats and leaves the others as the remaining ones (R351, R352;
spec/20_memory.md R63). The pending beat is the port's request. -/
def Obligations.AnsweredBeatIsTheFirstRemaining : Prop :=
  ∀ s : State, CoreInv s → s.dataOpen = true →
    memEdge false s = .next s ∧
      ∃ t b, memEdge true s = .next t ∧ dataTransfer true s = some b ∧
        remainingBeats s s.cnt.toNat = b :: remainingBeats t t.cnt.toNat ∧
        t.cnt.toNat + 1 = s.cnt.toNat ∧
        s.dataRequest.isRequest = true ∧ s.dataRequest.address = b.address.toNat % 2 ^ s.cfg.daddrW ∧
        s.dataRequest.writeEnable = b.isWrite ∧ s.dataRequest.writeData = b.datum.toNat

/-- The beats a store begins with are those of `MemWrite`: byte `k` of the truncated copy, counted from
the most significant, at `a + k`; those of a load are the reads of `MemRead` (spec/20_memory.md R55,
R56). -/
def Obligations.BeatsAreThoseOfMemReadAndMemWrite : Prop :=
  ∀ (s : State) (rd : RegIdx) (a v : Word) (n : Nat), s.halted = false → n = 1 ∨ n = 2 ∨ n = 4 →
    remainingBeats (s.startStore a v n) n =
      (List.range n).map (fun k =>
        ⟨a + BitVec.ofNat 32 k, true, BitVec.ofNat 8 (v.toNat % 2 ^ (8 * n) / 2 ^ (8 * (n - 1 - k)))⟩) ∧
    remainingBeats (s.startLoad rd a n) n =
      (List.range n).map fun k => ⟨a + BitVec.ofNat 32 k, false, 0#8⟩

/-- From fetch-ready, an instruction whose fetch beat takes `lp` cycles and whose data beats take `ld`
each ends after exactly the cycles of the table of R430, in the state the architectural step gives: the
case `F` = `Lp`, for the first instruction and after a jump, branch, load or store. -/
def Obligations.InstructionsTakeTheTabledCycles : Prop :=
  ∀ (s : State) (i : Instr) (lp ld : Nat), Ready s → decode s.fetchWord = .instr i → 1 ≤ lp → 1 ≤ ld →
    memRun (answerSchedule i lp ld) s = step s ∧
      ∀ previous : Option InstrClass, (∀ c, previous = some c → c.single = false) →
        (answerSchedule i lp ld).length = instrCycles i lp ld previous

/-- The overlapped case of R430, `F` = `Lp` - 1: the first request cycle of a fetch is the decode cycle of
the single-cycle instruction `j` before it, and the same `lp` request cycles, decode and data beats,
counted from there, end in the step after `j`; all of them but `j`'s decode cycle are the instruction's
cost. -/
def Obligations.OverlappedFetchSavesOneCycle : Prop :=
  ∀ (s : State) (i j : Instr) (lp ld : Nat), CoreInv s → s.phase = .dec → s.cfg.tagsOk = true →
    s.pcMisaligned = false → decode s.ir = .instr j → j.cls.single = true →
    decode s.fetchWord = .instr i → 1 ≤ lp → 1 ≤ ld →
    (∃ u, exec j s = .next u ∧ memRun (answerSchedule i lp ld) s = step u) ∧
      (answerSchedule i lp ld).length = 1 + instrCycles i lp ld (some j.cls)

/-- The closed clocked machine with direct wiring moves the core as `memEdge` does, with the answer of
the responder behind the open port; the responders are the model's, log entry 21 (spec/50_core_fsm.md R330,
spec/21_bus_protocol.md R88, R96). -/
def Obligations.DirectSystemIsTheCoreWithItsMemory : Prop :=
  ∀ y z : System, y.core.cfg.wiring = .direct → CoreInv y.core → y.cycle false = .next z →
    memEdge (if y.core.dataOpen then y.ack 1 else y.ack 0) y.core = .next z.core ∧
      z.ack 0 = refAck y.core.progRequest (y.ack 0) ∧ z.ack 1 = refAck y.core.dataRequest (y.ack 1)

/-- The configuration check (R116, spec/60_exceptions.md R395): a switched configuration passes exactly
when both tag functions name a port at every address; then no tag loses a bit on its wire (under the
bound of spec/00_scope.md R9 on `DEST_W`), and the closed machine refuses every other configuration. That
a port wired straight is not checked, that both ports share one wiring, and that the refusal comes before
everything else in a cycle, are the model's choices, log entries 11, 25 and 22. -/
def Obligations.ConfigurationCheckIsExact : Prop :=
  (∀ c : Config, c.tagsOk = true ↔
    c.wiring = .direct ∨ ∀ a : Word, c.progDest.tag a < c.nPorts ∧ c.dataDest.tag a < c.nPorts) ∧
    (∀ (s : State) (a : Word), s.cfg.wiring = .switched → s.cfg.tagsOk = true →
      s.cfg.nPorts ≤ 2 ^ s.cfg.destW →
      s.tagWire s.cfg.progDest a = s.cfg.progDest.tag a ∧
        s.tagWire s.cfg.dataDest a = s.cfg.dataDest.tag a) ∧
    ∀ (y : System) (rst : Bool), y.cycle rst = .refused .badDestination ↔ y.core.cfg.tagsOk = false

/-! ### The bus switch (spec/22_bus_switch.md) and the bus protocol (spec/21_bus_protocol.md) -/

/-- The routing of the switch: the selected master's request goes to the output its tag names and to no
other, that output's answer goes back to it, and the waiting master gets none (R112 to R116, R123). -/
def Obligations.SwitchRoutesTheSelectedMaster : Prop :=
  ∀ (ports : List PortParams) (sel : MasterId) (m : MasterId → Request) (dataW : Nat)
    (resp : Nat → Response),
    let d := (m sel).destination
    let out := switchOutput ports sel (m .m0) (m .m1)
    (∀ p, ports[d]? = some p →
      (out d).cycle = (m sel).cycle ∧ (out d).strobe = (m sel).strobe ∧
        (out d).address = (m sel).address % 2 ^ p.addrW ∧
        (out d).writeEnable = (m sel).writeEnable ∧
        (out d).writeData = (m sel).writeData % 2 ^ p.dataW ∧
        switchReturn ports.length sel sel (m .m0) (m .m1) dataW resp =
          ⟨(resp d).ack, (resp d).readData % 2 ^ dataW⟩) ∧
    (∀ j, j ≠ d → out j = Request.idle) ∧
    (ports[d]? = none → (∀ j, out j = Request.idle) ∧
      switchReturn ports.length sel sel (m .m0) (m .m1) dataW resp = Response.none) ∧
    switchReturn ports.length sel sel.other (m .m0) (m .m1) dataW resp = Response.none

/-- The switch's bit flips exactly when the selected master has `cycle` = 0, whatever the two masters are;
in the closed machine, where they are the core's two ports, nothing else writes it (R117). -/
def Obligations.SelectFlipsWhenTheSelectedMasterIsIdle : Prop :=
  (∀ (sel : MasterId) (m : MasterId → Request),
    nextSelect sel (m .m0) (m .m1) = if (m sel).cycle = false then sel.other else sel) ∧
    ∀ y z : System, y.core.cfg.wiring = .switched → y.cycle false = .next z →
      z.core.select =
        if (match y.core.select with
          | .m0 => y.core.progRequest.cycle
          | .m1 => y.core.dataRequest.cycle) = false then y.core.select.other
        else y.core.select

/-- A fetch that starts while the switch still names the data port's input waits exactly one cycle: in it
nothing but `select` changes (R114, R120; spec/70_reset_and_hazards.md R431). -/
def Obligations.FetchWaitsOneCycleForTheSwitch : Prop :=
  ∀ y : System, y.core.cfg.wiring = .switched → y.core.cfg.tagsOk = true → y.core.phase = .fr →
    y.core.pcMisaligned = false → y.core.select = .m1 → ∃ z, y.cycle false = .next z ∧ z.core = { y.core with select := .m0 }

/-- No pre-emption and hand-over, for any two masters: while the selected master keeps `cycle` = 1 it
stays selected, however long; when it lowers `cycle`, the other is selected in the next cycle; a master
that opens a transaction while it waits is served after one cycle if the other stays idle (R118 to
R120). -/
def Obligations.SwitchDoesNotPreempt : Prop :=
  ∀ (m : Nat → MasterId → Request) (sel : Nat → MasterId),
    (∀ t, sel (t + 1) = nextSelect (sel t) (m t .m0) (m t .m1)) →
    (∀ t n, (∀ k < n, (m (t + k) (sel t)).cycle = true) → sel (t + n) = sel t) ∧
    (∀ t, (m t (sel t)).cycle = false → sel (t + 1) = (sel t).other) ∧
    (∀ t a, (∀ k, (m k (MasterId.other a)).cycle = false) → (m t a).cycle = true →
      sel t = a ∨ sel (t + 1) = a)

/-- If both masters keep the hold rule towards the switch, every output keeps it towards its responder
(R126), over finite and infinite traces. -/
def Obligations.SwitchOutputsKeepTheHoldRule : Prop :=
  ∀ (ports : List PortParams) (dataW : MasterId → Nat) (m : Nat → MasterId → Request)
    (sel : Nat → MasterId) (resp : Nat → Nat → Response) (len : Option Nat),
    (∀ t, inTrace len (t + 1) → sel (t + 1) = nextSelect (sel t) (m t .m0) (m t .m1)) →
    (∀ who, MasterOK ⟨len, fun t =>
      ⟨m t who, switchReturn ports.length (sel t) who (m t .m0) (m t .m1) (dataW who) (resp t)⟩⟩) →
    ∀ j, MasterOK ⟨len, fun t => ⟨switchOutput ports (sel t) (m t .m0) (m t .m1) j, resp t j⟩⟩

/-- The reference responder keeps the responder's obligations towards every master that keeps its own,
and answers every beat in its second request cycle, if the trace has that cycle (R86, R96, R97); so an
infinite trace is live. -/
def Obligations.ReferenceResponderComplies : Prop :=
  ∀ (len : Option Nat) (reqs : Nat → Request) (data : Nat → Nat),
    let tr : Trace := ⟨len, fun t => ⟨reqs t, ⟨refAckAt reqs t, data t⟩⟩⟩
    MasterOK tr →
    ResponderOK tr ∧ (len = none → Live tr) ∧
      ∀ t, inTrace len (t + 1) → (reqs t).isRequest = true → refAckAt reqs t = false →
        (tr.link (t + 1)).isTransfer = true
end

