-- ==== Sys2Proof/Laws/Config.lean ====
section
/-! SUPPORT. The bounds check of a tag table says exactly that every address has a tag in range
(spec/22_bus_switch.md R116). -/

namespace Sys2Proof

/-- Two addresses that lie in the same regions have the same tag. -/
theorem TagMap.lookup_congr (fb a b : Nat) (rs : List TagRegion)
    (h : ∀ r ∈ rs, (r.base ≤ a ∧ a < r.base + r.size) ↔ (r.base ≤ b ∧ b < r.base + r.size)) :
    TagMap.lookup fb a rs = TagMap.lookup fb b rs := by
  induction rs with
  | nil => rfl
  | cons r rs ih =>
    simp only [TagMap.lookup, h r (by simp), ih fun q hq => h q (by simp [hq])]

/-- Among the numbers of a list that holds 0, some is the highest one not above `a`. -/
theorem exists_last_cut (a : Nat) (l : List Nat) (h0 : 0 ∈ l) :
    ∃ b ∈ l, b ≤ a ∧ ∀ c ∈ l, c ≤ a → c ≤ b := by
  induction a with
  | zero => exact ⟨0, h0, Nat.le_refl 0, fun _ _ h => h⟩
  | succ a ih =>
    by_cases h : a + 1 ∈ l
    · exact ⟨a + 1, h, Nat.le_refl _, fun _ _ h => h⟩
    · obtain ⟨b, hb, hba, hmax⟩ := ih
      refine ⟨b, hb, by omega, fun c hc hca => hmax c hc ?_⟩
      have : c ≠ a + 1 := fun e => h (e ▸ hc)
      omega

/-- Both ends of a region are cuts. -/
theorem TagMap.ends_mem_cuts {m : TagMap} {r : TagRegion} (hr : r ∈ m.regions) :
    r.base ∈ m.cuts ∧ r.base + r.size ∈ m.cuts := by
  constructor <;> exact List.mem_cons_of_mem _ (List.mem_flatMap.mpr ⟨r, hr, by simp⟩)

/-- The check is exact: it passes when, and only when, every address has a tag below `n`. -/
theorem TagMap.inRange_iff (m : TagMap) (n : Nat) : m.inRange n = true ↔ ∀ a : Word, m.tag a < n := by
  simp only [TagMap.inRange, TagMap.tag, List.all_eq_true, decide_eq_true_eq]
  constructor
  · intro h a
    obtain ⟨b, hb, hba, hmax⟩ := exists_last_cut a.toNat m.cuts (by simp [TagMap.cuts])
    have hlt := a.isLt
    rw [TagMap.lookup_congr m.fallback a.toNat b m.regions]
    · exact (h b hb).resolve_left (by omega)
    · intro r hr
      have h1 := hmax r.base (TagMap.ends_mem_cuts hr).1
      have h2 := hmax (r.base + r.size) (TagMap.ends_mem_cuts hr).2
      omega
  · intro h b _
    by_cases hb : 2 ^ 32 ≤ b
    · exact .inl hb
    · have := h (BitVec.ofNat 32 b)
      rw [BitVec.toNat_ofNat, Nat.mod_eq_of_lt (by omega)] at this
      exact .inr this

end Sys2Proof
end

