-- ==== Sys2Proof/Laws/Encoding.lean ====
section
/-! SUPPORT. What the fields of an encoded word are: for each layout, every field the decoder reads
gives back the operand the encoder put there (spec/30_encoding.md R141 to R149, R165). -/

namespace Sys2Proof

/-- A bit of a placed field. -/
theorem getElem_fieldAt (w : Nat) {n : Nat} (v : BitVec n) (lo i : Nat) (h : i < w) :
    (fieldAt w v lo)[i] = (decide (lo ≤ i) && v.getLsbD (i - lo)) := by
  unfold fieldAt
  rw [BitVec.getElem_shiftLeft]
  by_cases h2 : i < lo
  · simp [h2]
  · have : lo ≤ i := by omega
    have : i - lo < w := by omega
    simp [*]

/-- A bit of a placed field, at any position. -/
theorem getLsbD_fieldAt (w : Nat) {n : Nat} (v : BitVec n) (lo i : Nat) :
    (fieldAt w v lo).getLsbD i = (decide (i < w) && (decide (lo ≤ i) && v.getLsbD (i - lo))) := by
  by_cases h : i < w
  · rw [BitVec.getLsbD_eq_getElem h, getElem_fieldAt w v lo i h]
    simp [h]
  · rw [BitVec.getLsbD_of_ge _ _ (by omega)]
    simp [h]

/-! ### encR -/

@[simp] theorem opcodeOf_encR (a : BitVec 7) (b c : RegIdx) (d : BitVec 3) (e : RegIdx) (f : BitVec 7) :
    opcodeOf (encR a b c d e f) = f := by
  apply BitVec.eq_of_getLsbD_eq
  intro i hi
  interval_cases i <;> simp [encR, opcodeOf, getElem_fieldAt]

@[simp] theorem rdOf_encR (a : BitVec 7) (b c : RegIdx) (d : BitVec 3) (e : RegIdx) (f : BitVec 7) :
    rdOf (encR a b c d e f) = e := by
  apply BitVec.eq_of_getLsbD_eq
  intro i hi
  interval_cases i <;> simp [encR, rdOf, getElem_fieldAt]

@[simp] theorem functOf_encR (a : BitVec 7) (b c : RegIdx) (d : BitVec 3) (e : RegIdx) (f : BitVec 7) :
    functOf (encR a b c d e f) = d := by
  apply BitVec.eq_of_getLsbD_eq
  intro i hi
  interval_cases i <;> simp [encR, functOf, getElem_fieldAt]

@[simp] theorem rs1Of_encR (a : BitVec 7) (b c : RegIdx) (d : BitVec 3) (e : RegIdx) (f : BitVec 7) :
    rs1Of (encR a b c d e f) = c := by
  apply BitVec.eq_of_getLsbD_eq
  intro i hi
  interval_cases i <;> simp [encR, rs1Of, getElem_fieldAt]

@[simp] theorem rs2Of_encR (a : BitVec 7) (b c : RegIdx) (d : BitVec 3) (e : RegIdx) (f : BitVec 7) :
    rs2Of (encR a b c d e f) = b := by
  apply BitVec.eq_of_getLsbD_eq
  intro i hi
  interval_cases i <;> simp [encR, rs2Of, getElem_fieldAt]

@[simp] theorem shamtOf_encR (a : BitVec 7) (b c : RegIdx) (d : BitVec 3) (e : RegIdx) (f : BitVec 7) :
    shamtOf (encR a b c d e f) = b := by
  apply BitVec.eq_of_getLsbD_eq
  intro i hi
  interval_cases i <;> simp [encR, shamtOf, getElem_fieldAt]

@[simp] theorem functHiOf_encR (a : BitVec 7) (b c : RegIdx) (d : BitVec 3) (e : RegIdx) (f : BitVec 7) :
    functHiOf (encR a b c d e f) = a := by
  apply BitVec.eq_of_getLsbD_eq
  intro i hi
  interval_cases i <;> simp [encR, functHiOf, getElem_fieldAt]

@[simp] theorem top5Of_encR (a : BitVec 7) (b c : RegIdx) (d : BitVec 3) (e : RegIdx) (f : BitVec 7) :
    top5Of (encR a b c d e f) = a.extractLsb' 2 5 := by
  apply BitVec.eq_of_getLsbD_eq
  intro i hi
  interval_cases i <;> simp [encR, top5Of, getElem_fieldAt]

/-! ### encI -/

@[simp] theorem opcodeOf_encI (imm : BitVec 12) (c : RegIdx) (d : BitVec 3) (e : RegIdx) (f : BitVec 7) :
    opcodeOf (encI imm c d e f) = f := by
  apply BitVec.eq_of_getLsbD_eq
  intro i hi
  interval_cases i <;> simp [encI, opcodeOf, getElem_fieldAt]

@[simp] theorem rdOf_encI (imm : BitVec 12) (c : RegIdx) (d : BitVec 3) (e : RegIdx) (f : BitVec 7) :
    rdOf (encI imm c d e f) = e := by
  apply BitVec.eq_of_getLsbD_eq
  intro i hi
  interval_cases i <;> simp [encI, rdOf, getElem_fieldAt]

@[simp] theorem functOf_encI (imm : BitVec 12) (c : RegIdx) (d : BitVec 3) (e : RegIdx) (f : BitVec 7) :
    functOf (encI imm c d e f) = d := by
  apply BitVec.eq_of_getLsbD_eq
  intro i hi
  interval_cases i <;> simp [encI, functOf, getElem_fieldAt]

@[simp] theorem rs1Of_encI (imm : BitVec 12) (c : RegIdx) (d : BitVec 3) (e : RegIdx) (f : BitVec 7) :
    rs1Of (encI imm c d e f) = c := by
  apply BitVec.eq_of_getLsbD_eq
  intro i hi
  interval_cases i <;> simp [encI, rs1Of, getElem_fieldAt]

@[simp] theorem immIOf_encI (imm : BitVec 12) (c : RegIdx) (d : BitVec 3) (e : RegIdx) (f : BitVec 7) :
    immIOf (encI imm c d e f) = imm := by
  apply BitVec.eq_of_getLsbD_eq
  intro i hi
  interval_cases i <;> simp [encI, immIOf, getElem_fieldAt]

/-! ### encU -/

@[simp] theorem opcodeOf_encU (imm : BitVec 20) (e : RegIdx) (f : BitVec 7) :
    opcodeOf (encU imm e f) = f := by
  apply BitVec.eq_of_getLsbD_eq
  intro i hi
  interval_cases i <;> simp [encU, opcodeOf, getElem_fieldAt]

@[simp] theorem rdOf_encU (imm : BitVec 20) (e : RegIdx) (f : BitVec 7) :
    rdOf (encU imm e f) = e := by
  apply BitVec.eq_of_getLsbD_eq
  intro i hi
  interval_cases i <;> simp [encU, rdOf, getElem_fieldAt]

@[simp] theorem immUOf_encU (imm : BitVec 20) (e : RegIdx) (f : BitVec 7) :
    immUOf (encU imm e f) = imm := by
  apply BitVec.eq_of_getLsbD_eq
  intro i hi
  interval_cases i <;> simp [encU, immUOf, getElem_fieldAt]

/-! ### encS -/

@[simp] theorem opcodeOf_encS (imm : BitVec 12) (b c : RegIdx) (d : BitVec 3) (f : BitVec 7) :
    opcodeOf (encS imm b c d f) = f := by
  apply BitVec.eq_of_getLsbD_eq
  intro i hi
  interval_cases i <;> simp [encS, opcodeOf, getElem_fieldAt]

@[simp] theorem functOf_encS (imm : BitVec 12) (b c : RegIdx) (d : BitVec 3) (f : BitVec 7) :
    functOf (encS imm b c d f) = d := by
  apply BitVec.eq_of_getLsbD_eq
  intro i hi
  interval_cases i <;> simp [encS, functOf, getElem_fieldAt]

@[simp] theorem rs1Of_encS (imm : BitVec 12) (b c : RegIdx) (d : BitVec 3) (f : BitVec 7) :
    rs1Of (encS imm b c d f) = c := by
  apply BitVec.eq_of_getLsbD_eq
  intro i hi
  interval_cases i <;> simp [encS, rs1Of, getElem_fieldAt]

@[simp] theorem rs2Of_encS (imm : BitVec 12) (b c : RegIdx) (d : BitVec 3) (f : BitVec 7) :
    rs2Of (encS imm b c d f) = b := by
  apply BitVec.eq_of_getLsbD_eq
  intro i hi
  interval_cases i <;> simp [encS, rs2Of, getElem_fieldAt]

@[simp] theorem immSOf_encS (imm : BitVec 12) (b c : RegIdx) (d : BitVec 3) (f : BitVec 7) :
    immSOf (encS imm b c d f) = imm := by
  apply BitVec.eq_of_getLsbD_eq
  intro i hi
  interval_cases i <;> simp [encS, immSOf, getElem_fieldAt]

/-! ### encJ -/

@[simp] theorem opcodeOf_encJ (off : BitVec 21) (e : RegIdx) (f : BitVec 7) :
    opcodeOf (encJ off e f) = f := by
  apply BitVec.eq_of_getLsbD_eq
  intro i hi
  interval_cases i <;> simp [encJ, opcodeOf, getElem_fieldAt]

@[simp] theorem rdOf_encJ (off : BitVec 21) (e : RegIdx) (f : BitVec 7) :
    rdOf (encJ off e f) = e := by
  apply BitVec.eq_of_getLsbD_eq
  intro i hi
  interval_cases i <;> simp [encJ, rdOf, getElem_fieldAt]

theorem offJOf_encJ (off : BitVec 21) (e : RegIdx) (f : BitVec 7)
    (h : off.getLsbD 0 = false) :
    offJOf (encJ off e f) = off := by
  rw [BitVec.getLsbD_eq_getElem (by decide)] at h
  apply BitVec.eq_of_getLsbD_eq
  intro i hi
  interval_cases i <;> simp [encJ, offJOf, getElem_fieldAt, h]

/-! ### encB -/

@[simp] theorem opcodeOf_encB (off : BitVec 13) (b c : RegIdx) (d : BitVec 3) (f : BitVec 7) :
    opcodeOf (encB off b c d f) = f := by
  apply BitVec.eq_of_getLsbD_eq
  intro i hi
  interval_cases i <;> simp [encB, opcodeOf, getElem_fieldAt]

@[simp] theorem functOf_encB (off : BitVec 13) (b c : RegIdx) (d : BitVec 3) (f : BitVec 7) :
    functOf (encB off b c d f) = d := by
  apply BitVec.eq_of_getLsbD_eq
  intro i hi
  interval_cases i <;> simp [encB, functOf, getElem_fieldAt]

@[simp] theorem rs1Of_encB (off : BitVec 13) (b c : RegIdx) (d : BitVec 3) (f : BitVec 7) :
    rs1Of (encB off b c d f) = c := by
  apply BitVec.eq_of_getLsbD_eq
  intro i hi
  interval_cases i <;> simp [encB, rs1Of, getElem_fieldAt]

@[simp] theorem rs2Of_encB (off : BitVec 13) (b c : RegIdx) (d : BitVec 3) (f : BitVec 7) :
    rs2Of (encB off b c d f) = b := by
  apply BitVec.eq_of_getLsbD_eq
  intro i hi
  interval_cases i <;> simp [encB, rs2Of, getElem_fieldAt]

theorem offBOf_encB (off : BitVec 13) (b c : RegIdx) (d : BitVec 3) (f : BitVec 7)
    (h : off.getLsbD 0 = false) :
    offBOf (encB off b c d f) = off := by
  rw [BitVec.getLsbD_eq_getElem (by decide)] at h
  apply BitVec.eq_of_getLsbD_eq
  intro i hi
  interval_cases i <;> simp [encB, offBOf, getElem_fieldAt, h]

end Sys2Proof
end

