-- ==== Sys2Proof/Laws/Memory.lean ====
section
/-! SUPPORT. The laws of the two address spaces: read after write, and that writing keeps the canonical
form. They hold of every list; the canonical form is needed only where it is claimed. -/

namespace Sys2Proof.Machine

variable {w : Nat}

theorem Cells.read_erase_same (m : List (Nat × BitVec w)) (a : Word) :
    Cells.read (Cells.erase m a.toNat) a = 0#w := by
  induction m with
  | nil => rfl
  | cons c rest ih =>
    simp only [Cells.erase, List.filter_cons] at ih ⊢
    by_cases h : c.1 = a.toNat
    · simpa [h] using ih
    · simpa [h, Cells.read] using ih

theorem Cells.read_erase_of_ne (m : List (Nat × BitVec w)) (k : Nat) (b : Word)
    (h : b.toNat ≠ k) : Cells.read (Cells.erase m k) b = Cells.read m b := by
  induction m with
  | nil => rfl
  | cons c rest ih =>
    simp only [Cells.erase, List.filter_cons] at ih ⊢
    by_cases hc : c.1 = k
    · have : c.1 ≠ b.toNat := fun e => h (e ▸ hc)
      simp only [hc, ne_eq, not_true_eq_false, decide_false, Bool.false_eq_true, if_false, ih,
        Cells.read]
      rw [if_neg (hc ▸ this)]
    · rw [if_pos (by simpa using hc)]
      simp only [Cells.read]
      rw [ih]

theorem Cells.read_insert_same (m : List (Nat × BitVec w)) (a : Word) (v : BitVec w)
    (h : ∀ c ∈ m, c.1 ≠ a.toNat) : Cells.read (Cells.insert a.toNat v m) a = v := by
  induction m with
  | nil => simp [Cells.insert, Cells.read]
  | cons c rest ih =>
    simp only [List.mem_cons, forall_eq_or_imp] at h
    simp only [Cells.insert]
    split
    · simp [Cells.read]
    · simp [Cells.read, h.1, ih h.2]

theorem Cells.read_insert_of_ne (m : List (Nat × BitVec w)) (k : Nat) (v : BitVec w) (b : Word)
    (h : b.toNat ≠ k) : Cells.read (Cells.insert k v m) b = Cells.read m b := by
  induction m with
  | nil => simp [Cells.insert, Cells.read, h.symm]
  | cons c rest ih =>
    simp only [Cells.insert]
    split
    · simp [Cells.read, h.symm]
    · simp [Cells.read, ih]

theorem Cells.mem_erase {m : List (Nat × BitVec w)} {k : Nat} {c : Nat × BitVec w} :
    c ∈ Cells.erase m k ↔ c ∈ m ∧ c.1 ≠ k := by
  simp [Cells.erase]

/-- Reading where a value was written gives that value. -/
theorem Cells.read_write_same (m : List (Nat × BitVec w)) (a : Word) (v : BitVec w) :
    Cells.read (Cells.write m a v) a = v := by
  unfold Cells.write
  split
  · next h => rw [Cells.read_erase_same, h]
  · exact Cells.read_insert_same _ a v fun c hc => (Cells.mem_erase.1 hc).2

/-- A write leaves every other address alone. -/
theorem Cells.read_write_of_ne (m : List (Nat × BitVec w)) (a b : Word) (v : BitVec w)
    (h : b ≠ a) : Cells.read (Cells.write m a v) b = Cells.read m b := by
  have h' : b.toNat ≠ a.toNat := fun e => h (BitVec.eq_of_toNat_eq e)
  unfold Cells.write
  split
  · exact Cells.read_erase_of_ne m _ b h'
  · rw [Cells.read_insert_of_ne _ _ _ _ h', Cells.read_erase_of_ne m _ b h']

theorem Cells.mem_insert {k : Nat} {v : BitVec w} {m : List (Nat × BitVec w)}
    {c : Nat × BitVec w} : c ∈ Cells.insert k v m ↔ c = (k, v) ∨ c ∈ m := by
  induction m with
  | nil => simp [Cells.insert]
  | cons d rest ih =>
    simp only [Cells.insert]
    split
    · simp
    · simp [ih, or_left_comm]

theorem Cells.pairwise_insert {k : Nat} {v : BitVec w} {m : List (Nat × BitVec w)}
    (hm : m.Pairwise fun c d => c.1 < d.1) (hk : ∀ c ∈ m, c.1 ≠ k) :
    (Cells.insert k v m).Pairwise fun c d => c.1 < d.1 := by
  induction m with
  | nil => simp [Cells.insert]
  | cons d rest ih =>
    rw [List.pairwise_cons] at hm
    simp only [List.mem_cons, forall_eq_or_imp] at hk
    simp only [Cells.insert]
    split
    · next hlt =>
      refine List.pairwise_cons.2 ⟨fun c hc => ?_, List.pairwise_cons.2 hm⟩
      rcases List.mem_cons.1 hc with rfl | hc
      · exact hlt
      · exact Nat.lt_trans hlt (hm.1 c hc)
    · next hge =>
      refine List.pairwise_cons.2 ⟨fun c hc => ?_, ih hm.2 hk.2⟩
      rcases Cells.mem_insert.1 hc with rfl | hc
      · exact Nat.lt_of_le_of_ne (Nat.le_of_not_lt hge) hk.1
      · exact hm.1 c hc

/-- Erasing keeps the canonical form. -/
theorem Cells.wf_erase {m : List (Nat × BitVec w)} (h : Cells.wf m) (k : Nat) :
    Cells.wf (Cells.erase m k) :=
  ⟨h.1.filter _, fun c hc => h.2 c (Cells.mem_erase.1 hc).1⟩

/-- Writing keeps the canonical form. -/
theorem Cells.wf_write {m : List (Nat × BitVec w)} (h : Cells.wf m) (a : Word) (v : BitVec w) :
    Cells.wf (Cells.write m a v) := by
  have he := Cells.wf_erase h a.toNat
  unfold Cells.write
  split
  · exact he
  · next hv =>
    refine ⟨Cells.pairwise_insert he.1 fun c hc => (Cells.mem_erase.1 hc).2, fun c hc => ?_⟩
    rcases Cells.mem_insert.1 hc with rfl | hc
    · exact ⟨a.isLt, hv⟩
    · exact he.2 c hc

/-- The empty space, which `State.reset` has, is in canonical form. -/
theorem Cells.wf_nil : Cells.wf ([] : List (Nat × BitVec w)) := by simp [Cells.wf]

theorem busAddr_toNat (k : Nat) (a : Word) : (busAddr k a).toNat = a.toNat % 2 ^ k := by
  have h := a.isLt
  have h2 : a.toNat % 2 ^ k ≤ a.toNat := Nat.mod_le _ _
  simp only [busAddr, BitVec.toNat_ofNat]
  exact Nat.mod_eq_of_lt (Nat.lt_of_le_of_lt h2 h)

end Sys2Proof.Machine
end

