-- ==== Sys2Proof/Laws/State.lean ====
section
/-! SUPPORT. One lemma per field per named update of the state, true by `rfl`, and the reading of
registers after a write. -/

namespace Sys2Proof.Machine

variable (s : State)

/-! ### Registers -/

@[simp] theorem State.getReg_setReg_same (r : RegIdx) (v : Word) : (s.setReg r v).getReg r = v := by
  simp [State.getReg, State.setReg]

theorem State.getReg_setReg_of_ne (r q : RegIdx) (v : Word) (h : q ≠ r) :
    (s.setReg r v).getReg q = s.getReg q := by
  have h' : r.toNat ≠ q.toNat := fun e => h (BitVec.eq_of_toNat_eq e.symm)
  simp only [State.getReg, State.setReg]
  exact Vector.getElem_set_ne _ _ h'

theorem State.getReg_setReg (r q : RegIdx) (v : Word) :
    (s.setReg r v).getReg q = if q = r then v else s.getReg q := by
  split
  · next h => rw [h, State.getReg_setReg_same]
  · next h => exact s.getReg_setReg_of_ne r q v h

/-! ### `State.setReg` -/

@[simp] theorem State.setReg_pc (r : RegIdx) (v : Word) : (s.setReg r v).pc = s.pc := rfl
@[simp] theorem State.setReg_ir (r : RegIdx) (v : Word) : (s.setReg r v).ir = s.ir := rfl
@[simp] theorem State.setReg_active (r : RegIdx) (v : Word) : (s.setReg r v).active = s.active := rfl
@[simp] theorem State.setReg_xs (r : RegIdx) (v : Word) : (s.setReg r v).xs = s.xs := rfl
@[simp] theorem State.setReg_ea (r : RegIdx) (v : Word) : (s.setReg r v).ea = s.ea := rfl
@[simp] theorem State.setReg_cnt (r : RegIdx) (v : Word) : (s.setReg r v).cnt = s.cnt := rfl
@[simp] theorem State.setReg_sh (r : RegIdx) (v : Word) : (s.setReg r v).sh = s.sh := rfl
@[simp] theorem State.setReg_halted (r : RegIdx) (v : Word) : (s.setReg r v).halted = s.halted := rfl
@[simp] theorem State.setReg_select (r : RegIdx) (v : Word) : (s.setReg r v).select = s.select := rfl
@[simp] theorem State.setReg_imem (r : RegIdx) (v : Word) : (s.setReg r v).imem = s.imem := rfl
@[simp] theorem State.setReg_dmem (r : RegIdx) (v : Word) : (s.setReg r v).dmem = s.dmem := rfl
@[simp] theorem State.setReg_cfg (r : RegIdx) (v : Word) : (s.setReg r v).cfg = s.cfg := rfl
@[simp] theorem State.setReg_readByte (r : RegIdx) (v : Word) (q : Word) :
    (s.setReg r v).readByte q = s.readByte q := rfl

/-! ### `State.writeByte` -/

@[simp] theorem State.writeByte_x (a : Word) (b : Byte) : (s.writeByte a b).x = s.x := rfl
@[simp] theorem State.writeByte_pc (a : Word) (b : Byte) : (s.writeByte a b).pc = s.pc := rfl
@[simp] theorem State.writeByte_ir (a : Word) (b : Byte) : (s.writeByte a b).ir = s.ir := rfl
@[simp] theorem State.writeByte_active (a : Word) (b : Byte) : (s.writeByte a b).active = s.active := rfl
@[simp] theorem State.writeByte_xs (a : Word) (b : Byte) : (s.writeByte a b).xs = s.xs := rfl
@[simp] theorem State.writeByte_ea (a : Word) (b : Byte) : (s.writeByte a b).ea = s.ea := rfl
@[simp] theorem State.writeByte_cnt (a : Word) (b : Byte) : (s.writeByte a b).cnt = s.cnt := rfl
@[simp] theorem State.writeByte_sh (a : Word) (b : Byte) : (s.writeByte a b).sh = s.sh := rfl
@[simp] theorem State.writeByte_halted (a : Word) (b : Byte) : (s.writeByte a b).halted = s.halted := rfl
@[simp] theorem State.writeByte_select (a : Word) (b : Byte) : (s.writeByte a b).select = s.select := rfl
@[simp] theorem State.writeByte_imem (a : Word) (b : Byte) : (s.writeByte a b).imem = s.imem := rfl
@[simp] theorem State.writeByte_dmem (a : Word) (b : Byte) : (s.writeByte a b).dmem = Cells.write s.dmem (busAddr s.cfg.daddrW a) b := rfl
@[simp] theorem State.writeByte_cfg (a : Word) (b : Byte) : (s.writeByte a b).cfg = s.cfg := rfl
@[simp] theorem State.writeByte_getReg (a : Word) (b : Byte) (q : RegIdx) :
    (s.writeByte a b).getReg q = s.getReg q := rfl

/-! ### `State.latchFetch` -/

@[simp] theorem State.latchFetch_x (w : Word) : (s.latchFetch w).x = s.x := rfl
@[simp] theorem State.latchFetch_pc (w : Word) : (s.latchFetch w).pc = s.pc + 4#32 := rfl
@[simp] theorem State.latchFetch_ir (w : Word) : (s.latchFetch w).ir = w := rfl
@[simp] theorem State.latchFetch_active (w : Word) : (s.latchFetch w).active = true := rfl
@[simp] theorem State.latchFetch_xs (w : Word) : (s.latchFetch w).xs = s.xs := rfl
@[simp] theorem State.latchFetch_ea (w : Word) : (s.latchFetch w).ea = s.ea := rfl
@[simp] theorem State.latchFetch_cnt (w : Word) : (s.latchFetch w).cnt = s.cnt := rfl
@[simp] theorem State.latchFetch_sh (w : Word) : (s.latchFetch w).sh = s.sh := rfl
@[simp] theorem State.latchFetch_halted (w : Word) : (s.latchFetch w).halted = s.halted := rfl
@[simp] theorem State.latchFetch_select (w : Word) : (s.latchFetch w).select = s.select := rfl
@[simp] theorem State.latchFetch_imem (w : Word) : (s.latchFetch w).imem = s.imem := rfl
@[simp] theorem State.latchFetch_dmem (w : Word) : (s.latchFetch w).dmem = s.dmem := rfl
@[simp] theorem State.latchFetch_cfg (w : Word) : (s.latchFetch w).cfg = s.cfg := rfl
@[simp] theorem State.latchFetch_getReg (w : Word) (q : RegIdx) :
    (s.latchFetch w).getReg q = s.getReg q := rfl
@[simp] theorem State.latchFetch_readByte (w : Word) (q : Word) :
    (s.latchFetch w).readByte q = s.readByte q := rfl

/-! ### `State.retire` -/

@[simp] theorem State.retire_x : (s.retire).x = s.x := rfl
@[simp] theorem State.retire_pc : (s.retire).pc = s.pc := rfl
@[simp] theorem State.retire_ir : (s.retire).ir = s.ir := rfl
@[simp] theorem State.retire_active : (s.retire).active = false := rfl
@[simp] theorem State.retire_xs : (s.retire).xs = s.xs := rfl
@[simp] theorem State.retire_ea : (s.retire).ea = s.ea := rfl
@[simp] theorem State.retire_cnt : (s.retire).cnt = s.cnt := rfl
@[simp] theorem State.retire_sh : (s.retire).sh = s.sh := rfl
@[simp] theorem State.retire_halted : (s.retire).halted = s.halted := rfl
@[simp] theorem State.retire_select : (s.retire).select = s.select := rfl
@[simp] theorem State.retire_imem : (s.retire).imem = s.imem := rfl
@[simp] theorem State.retire_dmem : (s.retire).dmem = s.dmem := rfl
@[simp] theorem State.retire_cfg : (s.retire).cfg = s.cfg := rfl
@[simp] theorem State.retire_getReg (q : RegIdx) :
    (s.retire).getReg q = s.getReg q := rfl
@[simp] theorem State.retire_readByte (q : Word) :
    (s.retire).readByte q = s.readByte q := rfl

/-! ### `State.writeResult` -/

@[simp] theorem State.writeResult_pc (rd : RegIdx) (v : Word) : (s.writeResult rd v).pc = s.pc := rfl
@[simp] theorem State.writeResult_ir (rd : RegIdx) (v : Word) : (s.writeResult rd v).ir = s.ir := rfl
@[simp] theorem State.writeResult_active (rd : RegIdx) (v : Word) : (s.writeResult rd v).active = false := rfl
@[simp] theorem State.writeResult_xs (rd : RegIdx) (v : Word) : (s.writeResult rd v).xs = s.xs := rfl
@[simp] theorem State.writeResult_ea (rd : RegIdx) (v : Word) : (s.writeResult rd v).ea = s.ea := rfl
@[simp] theorem State.writeResult_cnt (rd : RegIdx) (v : Word) : (s.writeResult rd v).cnt = s.cnt := rfl
@[simp] theorem State.writeResult_sh (rd : RegIdx) (v : Word) : (s.writeResult rd v).sh = s.sh := rfl
@[simp] theorem State.writeResult_halted (rd : RegIdx) (v : Word) : (s.writeResult rd v).halted = s.halted := rfl
@[simp] theorem State.writeResult_select (rd : RegIdx) (v : Word) : (s.writeResult rd v).select = s.select := rfl
@[simp] theorem State.writeResult_imem (rd : RegIdx) (v : Word) : (s.writeResult rd v).imem = s.imem := rfl
@[simp] theorem State.writeResult_dmem (rd : RegIdx) (v : Word) : (s.writeResult rd v).dmem = s.dmem := rfl
@[simp] theorem State.writeResult_cfg (rd : RegIdx) (v : Word) : (s.writeResult rd v).cfg = s.cfg := rfl
@[simp] theorem State.writeResult_readByte (rd : RegIdx) (v : Word) (q : Word) :
    (s.writeResult rd v).readByte q = s.readByte q := rfl
theorem State.writeResult_getReg (rd : RegIdx) (v : Word) (q : RegIdx) :
    (s.writeResult rd v).getReg q = if q = rd then v else s.getReg q := s.getReg_setReg rd q v

/-! ### `State.jumpTo` -/

@[simp] theorem State.jumpTo_pc (rd : RegIdx) (t : Word) : (s.jumpTo rd t).pc = t := rfl
@[simp] theorem State.jumpTo_ir (rd : RegIdx) (t : Word) : (s.jumpTo rd t).ir = s.ir := rfl
@[simp] theorem State.jumpTo_active (rd : RegIdx) (t : Word) : (s.jumpTo rd t).active = false := rfl
@[simp] theorem State.jumpTo_xs (rd : RegIdx) (t : Word) : (s.jumpTo rd t).xs = s.xs := rfl
@[simp] theorem State.jumpTo_ea (rd : RegIdx) (t : Word) : (s.jumpTo rd t).ea = s.ea := rfl
@[simp] theorem State.jumpTo_cnt (rd : RegIdx) (t : Word) : (s.jumpTo rd t).cnt = s.cnt := rfl
@[simp] theorem State.jumpTo_sh (rd : RegIdx) (t : Word) : (s.jumpTo rd t).sh = s.sh := rfl
@[simp] theorem State.jumpTo_halted (rd : RegIdx) (t : Word) : (s.jumpTo rd t).halted = s.halted := rfl
@[simp] theorem State.jumpTo_select (rd : RegIdx) (t : Word) : (s.jumpTo rd t).select = s.select := rfl
@[simp] theorem State.jumpTo_imem (rd : RegIdx) (t : Word) : (s.jumpTo rd t).imem = s.imem := rfl
@[simp] theorem State.jumpTo_dmem (rd : RegIdx) (t : Word) : (s.jumpTo rd t).dmem = s.dmem := rfl
@[simp] theorem State.jumpTo_cfg (rd : RegIdx) (t : Word) : (s.jumpTo rd t).cfg = s.cfg := rfl
@[simp] theorem State.jumpTo_readByte (rd : RegIdx) (t : Word) (q : Word) :
    (s.jumpTo rd t).readByte q = s.readByte q := rfl
theorem State.jumpTo_getReg (rd : RegIdx) (t : Word) (q : RegIdx) :
    (s.jumpTo rd t).getReg q = if q = rd then s.pc else s.getReg q := s.getReg_setReg rd q s.pc

/-! ### `State.startBranch` -/

@[simp] theorem State.startBranch_x : (s.startBranch).x = s.x := rfl
@[simp] theorem State.startBranch_pc : (s.startBranch).pc = s.pc := rfl
@[simp] theorem State.startBranch_ir : (s.startBranch).ir = s.ir := rfl
@[simp] theorem State.startBranch_active : (s.startBranch).active = false := rfl
@[simp] theorem State.startBranch_xs : (s.startBranch).xs = .branch := rfl
@[simp] theorem State.startBranch_ea : (s.startBranch).ea = s.ea := rfl
@[simp] theorem State.startBranch_cnt : (s.startBranch).cnt = s.cnt := rfl
@[simp] theorem State.startBranch_sh : (s.startBranch).sh = s.sh := rfl
@[simp] theorem State.startBranch_halted : (s.startBranch).halted = s.halted := rfl
@[simp] theorem State.startBranch_select : (s.startBranch).select = s.select := rfl
@[simp] theorem State.startBranch_imem : (s.startBranch).imem = s.imem := rfl
@[simp] theorem State.startBranch_dmem : (s.startBranch).dmem = s.dmem := rfl
@[simp] theorem State.startBranch_cfg : (s.startBranch).cfg = s.cfg := rfl
@[simp] theorem State.startBranch_getReg (q : RegIdx) :
    (s.startBranch).getReg q = s.getReg q := rfl
@[simp] theorem State.startBranch_readByte (q : Word) :
    (s.startBranch).readByte q = s.readByte q := rfl

/-! ### `State.resolveBranch` -/

@[simp] theorem State.resolveBranch_x (b : Bool) (off : BitVec 13) : (s.resolveBranch b off).x = s.x := rfl
@[simp] theorem State.resolveBranch_pc (b : Bool) (off : BitVec 13) : (s.resolveBranch b off).pc = if b then s.branchTarget off else s.pc := rfl
@[simp] theorem State.resolveBranch_ir (b : Bool) (off : BitVec 13) : (s.resolveBranch b off).ir = s.ir := rfl
@[simp] theorem State.resolveBranch_active (b : Bool) (off : BitVec 13) : (s.resolveBranch b off).active = s.active := rfl
@[simp] theorem State.resolveBranch_xs (b : Bool) (off : BitVec 13) : (s.resolveBranch b off).xs = .none := rfl
@[simp] theorem State.resolveBranch_ea (b : Bool) (off : BitVec 13) : (s.resolveBranch b off).ea = s.ea := rfl
@[simp] theorem State.resolveBranch_cnt (b : Bool) (off : BitVec 13) : (s.resolveBranch b off).cnt = s.cnt := rfl
@[simp] theorem State.resolveBranch_sh (b : Bool) (off : BitVec 13) : (s.resolveBranch b off).sh = s.sh := rfl
@[simp] theorem State.resolveBranch_halted (b : Bool) (off : BitVec 13) : (s.resolveBranch b off).halted = s.halted := rfl
@[simp] theorem State.resolveBranch_select (b : Bool) (off : BitVec 13) : (s.resolveBranch b off).select = s.select := rfl
@[simp] theorem State.resolveBranch_imem (b : Bool) (off : BitVec 13) : (s.resolveBranch b off).imem = s.imem := rfl
@[simp] theorem State.resolveBranch_dmem (b : Bool) (off : BitVec 13) : (s.resolveBranch b off).dmem = s.dmem := rfl
@[simp] theorem State.resolveBranch_cfg (b : Bool) (off : BitVec 13) : (s.resolveBranch b off).cfg = s.cfg := rfl
@[simp] theorem State.resolveBranch_getReg (b : Bool) (off : BitVec 13) (q : RegIdx) :
    (s.resolveBranch b off).getReg q = s.getReg q := rfl
@[simp] theorem State.resolveBranch_readByte (b : Bool) (off : BitVec 13) (q : Word) :
    (s.resolveBranch b off).readByte q = s.readByte q := rfl

/-! ### `State.startLoad` -/

@[simp] theorem State.startLoad_pc (rd : RegIdx) (a : Word) (n : Nat) : (s.startLoad rd a n).pc = s.pc := rfl
@[simp] theorem State.startLoad_ir (rd : RegIdx) (a : Word) (n : Nat) : (s.startLoad rd a n).ir = s.ir := rfl
@[simp] theorem State.startLoad_active (rd : RegIdx) (a : Word) (n : Nat) : (s.startLoad rd a n).active = false := rfl
@[simp] theorem State.startLoad_xs (rd : RegIdx) (a : Word) (n : Nat) : (s.startLoad rd a n).xs = .load := rfl
@[simp] theorem State.startLoad_ea (rd : RegIdx) (a : Word) (n : Nat) : (s.startLoad rd a n).ea = a := rfl
@[simp] theorem State.startLoad_cnt (rd : RegIdx) (a : Word) (n : Nat) : (s.startLoad rd a n).cnt = BitVec.ofNat 3 n := rfl
@[simp] theorem State.startLoad_sh (rd : RegIdx) (a : Word) (n : Nat) : (s.startLoad rd a n).sh = s.sh := rfl
@[simp] theorem State.startLoad_halted (rd : RegIdx) (a : Word) (n : Nat) : (s.startLoad rd a n).halted = s.halted := rfl
@[simp] theorem State.startLoad_select (rd : RegIdx) (a : Word) (n : Nat) : (s.startLoad rd a n).select = s.select := rfl
@[simp] theorem State.startLoad_imem (rd : RegIdx) (a : Word) (n : Nat) : (s.startLoad rd a n).imem = s.imem := rfl
@[simp] theorem State.startLoad_dmem (rd : RegIdx) (a : Word) (n : Nat) : (s.startLoad rd a n).dmem = s.dmem := rfl
@[simp] theorem State.startLoad_cfg (rd : RegIdx) (a : Word) (n : Nat) : (s.startLoad rd a n).cfg = s.cfg := rfl
@[simp] theorem State.startLoad_readByte (rd : RegIdx) (a : Word) (n : Nat) (q : Word) :
    (s.startLoad rd a n).readByte q = s.readByte q := rfl
theorem State.startLoad_getReg (rd : RegIdx) (a : Word) (n : Nat) (q : RegIdx) :
    (s.startLoad rd a n).getReg q = if q = rd then 0#32 else s.getReg q := s.getReg_setReg rd q 0#32

/-! ### `State.loadBeat` -/

@[simp] theorem State.loadBeat_pc (rd : RegIdx) (b : Byte) : (s.loadBeat rd b).pc = s.pc := rfl
@[simp] theorem State.loadBeat_ir (rd : RegIdx) (b : Byte) : (s.loadBeat rd b).ir = s.ir := rfl
@[simp] theorem State.loadBeat_active (rd : RegIdx) (b : Byte) : (s.loadBeat rd b).active = s.active := rfl
@[simp] theorem State.loadBeat_xs (rd : RegIdx) (b : Byte) : (s.loadBeat rd b).xs = xsAfterBeat s.cnt s.xs := rfl
@[simp] theorem State.loadBeat_ea (rd : RegIdx) (b : Byte) : (s.loadBeat rd b).ea = s.ea + 1#32 := rfl
@[simp] theorem State.loadBeat_cnt (rd : RegIdx) (b : Byte) : (s.loadBeat rd b).cnt = s.cnt - 1#3 := rfl
@[simp] theorem State.loadBeat_sh (rd : RegIdx) (b : Byte) : (s.loadBeat rd b).sh = s.sh := rfl
@[simp] theorem State.loadBeat_halted (rd : RegIdx) (b : Byte) : (s.loadBeat rd b).halted = s.halted := rfl
@[simp] theorem State.loadBeat_select (rd : RegIdx) (b : Byte) : (s.loadBeat rd b).select = s.select := rfl
@[simp] theorem State.loadBeat_imem (rd : RegIdx) (b : Byte) : (s.loadBeat rd b).imem = s.imem := rfl
@[simp] theorem State.loadBeat_dmem (rd : RegIdx) (b : Byte) : (s.loadBeat rd b).dmem = s.dmem := rfl
@[simp] theorem State.loadBeat_cfg (rd : RegIdx) (b : Byte) : (s.loadBeat rd b).cfg = s.cfg := rfl
@[simp] theorem State.loadBeat_readByte (rd : RegIdx) (b : Byte) (q : Word) :
    (s.loadBeat rd b).readByte q = s.readByte q := rfl
theorem State.loadBeat_getReg (rd : RegIdx) (b : Byte) (q : RegIdx) :
    (s.loadBeat rd b).getReg q =
      if q = rd then (s.getReg rd <<< 8) ||| b.setWidth 32 else s.getReg q := s.getReg_setReg rd q _

/-! ### `State.startStore` -/

@[simp] theorem State.startStore_x (a v : Word) (n : Nat) : (s.startStore a v n).x = s.x := rfl
@[simp] theorem State.startStore_pc (a v : Word) (n : Nat) : (s.startStore a v n).pc = s.pc := rfl
@[simp] theorem State.startStore_ir (a v : Word) (n : Nat) : (s.startStore a v n).ir = s.ir := rfl
@[simp] theorem State.startStore_active (a v : Word) (n : Nat) : (s.startStore a v n).active = false := rfl
@[simp] theorem State.startStore_xs (a v : Word) (n : Nat) : (s.startStore a v n).xs = .store := rfl
@[simp] theorem State.startStore_ea (a v : Word) (n : Nat) : (s.startStore a v n).ea = a := rfl
@[simp] theorem State.startStore_cnt (a v : Word) (n : Nat) : (s.startStore a v n).cnt = BitVec.ofNat 3 n := rfl
@[simp] theorem State.startStore_sh (a v : Word) (n : Nat) : (s.startStore a v n).sh = v <<< (32 - 8 * n) := rfl
@[simp] theorem State.startStore_halted (a v : Word) (n : Nat) : (s.startStore a v n).halted = s.halted := rfl
@[simp] theorem State.startStore_select (a v : Word) (n : Nat) : (s.startStore a v n).select = s.select := rfl
@[simp] theorem State.startStore_imem (a v : Word) (n : Nat) : (s.startStore a v n).imem = s.imem := rfl
@[simp] theorem State.startStore_dmem (a v : Word) (n : Nat) : (s.startStore a v n).dmem = s.dmem := rfl
@[simp] theorem State.startStore_cfg (a v : Word) (n : Nat) : (s.startStore a v n).cfg = s.cfg := rfl
@[simp] theorem State.startStore_getReg (a v : Word) (n : Nat) (q : RegIdx) :
    (s.startStore a v n).getReg q = s.getReg q := rfl
@[simp] theorem State.startStore_readByte (a v : Word) (n : Nat) (q : Word) :
    (s.startStore a v n).readByte q = s.readByte q := rfl

/-! ### `State.storeBeat` -/

@[simp] theorem State.storeBeat_x : (s.storeBeat).x = s.x := rfl
@[simp] theorem State.storeBeat_pc : (s.storeBeat).pc = s.pc := rfl
@[simp] theorem State.storeBeat_ir : (s.storeBeat).ir = s.ir := rfl
@[simp] theorem State.storeBeat_active : (s.storeBeat).active = s.active := rfl
@[simp] theorem State.storeBeat_xs : (s.storeBeat).xs = xsAfterBeat s.cnt s.xs := rfl
@[simp] theorem State.storeBeat_ea : (s.storeBeat).ea = s.ea + 1#32 := rfl
@[simp] theorem State.storeBeat_cnt : (s.storeBeat).cnt = s.cnt - 1#3 := rfl
@[simp] theorem State.storeBeat_sh : (s.storeBeat).sh = s.sh <<< 8 := rfl
@[simp] theorem State.storeBeat_halted : (s.storeBeat).halted = s.halted := rfl
@[simp] theorem State.storeBeat_select : (s.storeBeat).select = s.select := rfl
@[simp] theorem State.storeBeat_imem : (s.storeBeat).imem = s.imem := rfl
@[simp] theorem State.storeBeat_dmem : (s.storeBeat).dmem = s.dmem := rfl
@[simp] theorem State.storeBeat_cfg : (s.storeBeat).cfg = s.cfg := rfl
@[simp] theorem State.storeBeat_getReg (q : RegIdx) :
    (s.storeBeat).getReg q = s.getReg q := rfl
@[simp] theorem State.storeBeat_readByte (q : Word) :
    (s.storeBeat).readByte q = s.readByte q := rfl

/-! ### `State.raiseHalt` -/

@[simp] theorem State.raiseHalt_x : (s.raiseHalt).x = s.x := rfl
@[simp] theorem State.raiseHalt_pc : (s.raiseHalt).pc = s.pc := rfl
@[simp] theorem State.raiseHalt_ir : (s.raiseHalt).ir = s.ir := rfl
@[simp] theorem State.raiseHalt_active : (s.raiseHalt).active = false := rfl
@[simp] theorem State.raiseHalt_xs : (s.raiseHalt).xs = .none := rfl
@[simp] theorem State.raiseHalt_ea : (s.raiseHalt).ea = s.ea := rfl
@[simp] theorem State.raiseHalt_cnt : (s.raiseHalt).cnt = s.cnt := rfl
@[simp] theorem State.raiseHalt_sh : (s.raiseHalt).sh = s.sh := rfl
@[simp] theorem State.raiseHalt_halted : (s.raiseHalt).halted = true := rfl
@[simp] theorem State.raiseHalt_select : (s.raiseHalt).select = s.select := rfl
@[simp] theorem State.raiseHalt_imem : (s.raiseHalt).imem = s.imem := rfl
@[simp] theorem State.raiseHalt_dmem : (s.raiseHalt).dmem = s.dmem := rfl
@[simp] theorem State.raiseHalt_cfg : (s.raiseHalt).cfg = s.cfg := rfl
@[simp] theorem State.raiseHalt_getReg (q : RegIdx) :
    (s.raiseHalt).getReg q = s.getReg q := rfl
@[simp] theorem State.raiseHalt_readByte (q : Word) :
    (s.raiseHalt).readByte q = s.readByte q := rfl

end Sys2Proof.Machine
end

