-- ==== Sys2Proof/Laws/Ops.lean ====
section
/-! SUPPORT. One lemma per shared operation that says what it does: the byte accesses, the beats of loads
and stores (by induction on the number of beats), a whole branch. -/

namespace Sys2Proof.Machine

/-! ### Bytes -/

/-- A write is read back at every address the port carries as the same location (R65). -/
theorem State.readByte_writeByte_same (s : State) (a b : Word) (v : Byte)
    (h : busAddr s.cfg.daddrW b = busAddr s.cfg.daddrW a) : (s.writeByte a v).readByte b = v := by
  simp only [State.readByte, State.writeByte_dmem, State.writeByte_cfg, h]
  exact Cells.read_write_same _ _ _

/-- A write leaves every other location alone. -/
theorem State.readByte_writeByte_of_ne (s : State) (a b : Word) (v : Byte)
    (h : busAddr s.cfg.daddrW b ≠ busAddr s.cfg.daddrW a) :
    (s.writeByte a v).readByte b = s.readByte b := by
  simp only [State.readByte, State.writeByte_dmem, State.writeByte_cfg]
  exact Cells.read_write_of_ne _ _ _ _ h

/-! ### Branches -/

/-- Everything a branch does (R180, R350). -/
theorem State.runBranch_eq (s : State) (c : BranchCond) (r q : RegIdx) (off : BitVec 13) :
    s.runBranch c r q off =
      { s with
        active := false
        xs := .none
        pc := if condTaken c (s.getReg r) (s.getReg q) then s.branchTarget off else s.pc } := rfl

/-! ### Loads -/

/-- `k` read beats change only `x[rd]`, `ea`, `cnt` and `xs` (R351). -/
theorem State.loadBeats_frame (rd : RegIdx) (k : Nat) (s : State) :
    let t := State.loadBeats rd k s
    (∀ q, q ≠ rd → t.getReg q = s.getReg q) ∧ t.pc = s.pc ∧ t.ir = s.ir ∧ t.active = s.active ∧
      t.sh = s.sh ∧ t.halted = s.halted ∧ t.select = s.select ∧ t.imem = s.imem ∧ t.dmem = s.dmem ∧
      t.cfg = s.cfg ∧ t.ea = s.ea + BitVec.ofNat 32 k ∧ t.cnt = s.cnt - BitVec.ofNat 3 k := by
  induction k generalizing s with
  | zero => simp [State.loadBeats]
  | succ k ih =>
    have h := ih (s.loadBeat rd (s.readByte s.ea))
    simp only [State.loadBeats]
    obtain ⟨hr, h2, h3, h4, h5, h6, h7, h8, h9, h10, h11, h12⟩ := h
    refine ⟨fun q hq => ?_, h2, h3, h4, h5, h6, h7, h8, h9, h10, ?_, ?_⟩
    · rw [hr q hq, State.loadBeat_getReg, if_neg hq]
    · rw [h11, State.loadBeat_ea, BitVec.add_assoc]
      congr 1
      rw [Nat.add_comm k 1, BitVec.ofNat_add]
    · rw [h12, State.loadBeat_cnt, BitVec.sub_sub]
      congr 1
      rw [Nat.add_comm k 1, BitVec.ofNat_add]

/-- The bytes at `a`, `a + 1`, …, shifted one after the other into `acc` (R55, R200). -/
def State.shiftIn (s : State) (a : Word) : Nat → Word → Word
  | 0, acc => acc
  | k + 1, acc => s.shiftIn (a + 1#32) k ((acc <<< 8) ||| (s.readByte a).setWidth 32)

/-- The destination accumulates the bytes in increasing address order (R200, R206). -/
theorem State.loadBeats_getReg_same (rd : RegIdx) (k : Nat) (s : State) :
    (State.loadBeats rd k s).getReg rd = s.shiftIn s.ea k (s.getReg rd) := by
  suffices H : ∀ (k : Nat) (s t : State), (∀ a, t.readByte a = s.readByte a) →
      (State.loadBeats rd k t).getReg rd = s.shiftIn t.ea k (t.getReg rd) from
    H k s s fun _ => rfl
  intro k
  induction k with
  | zero => intro s t _; rfl
  | succ k ih =>
    intro s t h
    rw [State.loadBeats, ih s (t.loadBeat rd (t.readByte t.ea)) fun a => h a,
      State.loadBeat_getReg, if_pos rfl, h]
    rfl

/-- The execute state ends with the transfer at `cnt` = 1 (R351). -/
theorem State.loadBeats_xs (rd : RegIdx) (k : Nat) (s : State) (h : s.cnt = BitVec.ofNat 3 (k + 1))
    (hk : k < 7) : (State.loadBeats rd (k + 1) s).xs = .none := by
  induction k generalizing s with
  | zero => simp [State.loadBeats, xsAfterBeat, h]
  | succ k ih =>
    rw [State.loadBeats]
    refine ih _ ?_ (by omega)
    rw [State.loadBeat_cnt, h, Nat.add_comm (k + 1) 1, BitVec.ofNat_add]
    simp

/-! ### Stores -/

/-- `k` write beats change only the data space, `sh`, `ea`, `cnt` and `xs` (R352). -/
theorem State.storeBeats_frame (k : Nat) (s : State) :
    let t := State.storeBeats k s
    t.x = s.x ∧ t.pc = s.pc ∧ t.ir = s.ir ∧ t.active = s.active ∧ t.halted = s.halted ∧
      t.select = s.select ∧ t.imem = s.imem ∧ t.cfg = s.cfg ∧ t.ea = s.ea + BitVec.ofNat 32 k ∧
      t.cnt = s.cnt - BitVec.ofNat 3 k ∧ t.sh = s.sh <<< (8 * k) := by
  induction k generalizing s with
  | zero => simp [State.storeBeats]
  | succ k ih =>
    obtain ⟨h1, h2, h3, h4, h5, h6, h7, h8, h9, h10, h11⟩ :=
      ih (s.writeByte s.ea s.storeByte).storeBeat
    simp only [State.storeBeats]
    refine ⟨h1, h2, h3, h4, h5, h6, h7, h8, ?_, ?_, ?_⟩
    · rw [h9, State.storeBeat_ea, State.writeByte_ea, BitVec.add_assoc]
      congr 1
      rw [Nat.add_comm k 1, BitVec.ofNat_add]
    · rw [h10, State.storeBeat_cnt, State.writeByte_cnt, BitVec.sub_sub]
      congr 1
      rw [Nat.add_comm k 1, BitVec.ofNat_add]
    · rw [h11, State.storeBeat_sh, State.writeByte_sh, ← BitVec.shiftLeft_add]
      congr 1
      omega

/-- Write beats leave every location but those they write alone (R220, R65). -/
theorem State.storeBeats_readByte_outside (k : Nat) (s : State) (b : Word)
    (h : ∀ i < k, busAddr s.cfg.daddrW b ≠ busAddr s.cfg.daddrW (s.ea + BitVec.ofNat 32 i)) :
    (State.storeBeats k s).readByte b = s.readByte b := by
  induction k generalizing s with
  | zero => rfl
  | succ k ih =>
    rw [State.storeBeats, ih]
    · rw [State.storeBeat_readByte]
      exact State.readByte_writeByte_of_ne s _ _ _ (by simpa using h 0 (by omega))
    · intro i hi
      have := h (i + 1) (by omega)
      rw [Nat.add_comm i 1, BitVec.ofNat_add, ← BitVec.add_assoc] at this
      exact this

/-- The execute state ends with the transfer at `cnt` = 1 (R352). -/
theorem State.storeBeats_xs (k : Nat) (s : State) (h : s.cnt = BitVec.ofNat 3 (k + 1)) (hk : k < 7) :
    (State.storeBeats (k + 1) s).xs = .none := by
  induction k generalizing s with
  | zero => simp [State.storeBeats, xsAfterBeat, h]
  | succ k ih =>
    rw [State.storeBeats]
    refine ih _ ?_ (by omega)
    rw [State.storeBeat_cnt, State.writeByte_cnt, h, Nat.add_comm (k + 1) 1, BitVec.ofNat_add]
    simp

/-! ### The canonical form -/

/-- A write beat keeps the data space in canonical form. -/
theorem State.writeByte_wf (s : State) (a : Word) (b : Byte) (h : Memory.wf s.dmem) :
    Memory.wf (s.writeByte a b).dmem := Cells.wf_write h _ _

/-- Write beats keep the data space in canonical form. -/
theorem State.storeBeats_wf (k : Nat) (s : State) (h : Memory.wf s.dmem) :
    Memory.wf (State.storeBeats k s).dmem := by
  induction k generalizing s with
  | zero => exact h
  | succ k ih => exact ih _ (State.writeByte_wf s _ _ h)

end Sys2Proof.Machine
end

