-- ==== Sys2Proof/Laws/Execute.lean ====
section
/-! SUPPORT. What a decoded word does, said once for its class in terms of the fields of the word, so that
a proof about the decode cycle needs no split over the 34 instructions; and that targets are even
(spec/10_state.md R29). -/

namespace Sys2Proof.Machine

/-- What the instruction `i` decoded from `w` does: a result for a single-cycle class, a jump, a branch, a
load or a store, each from the fields of `w`. -/
def DecodedAs (w : Word) (i : Instr) : Prop :=
  (i.cls.single = true ∧ ∀ s, ∃ v, exec i s = .next (s.writeResult (rdOf w) v)) ∨
  i = .jal (rdOf w) (offJOf w) ∨
  i = .jalr (rdOf w) (rs1Of w) (immIOf w) ∨
  (i.cls = .branch ∧ ∃ c, condOf w = some c ∧
    ∀ s, exec i s = .next (s.runBranch c (rs1Of w) (rs2Of w) (offBOf w))) ∨
  (i.cls = .load ∧ (beatsOf w = 1 ∨ beatsOf w = 2 ∨ beatsOf w = 4) ∧
    ∀ s, exec i s = .next (s.runLoad (rdOf w) (s.effAddr (rs1Of w) (immIOf w)) (beatsOf w))) ∨
  (i.cls = .store ∧ (beatsOf w = 1 ∨ beatsOf w = 2 ∨ beatsOf w = 4) ∧
    ∀ s, exec i s = .next
      (s.runStore (s.effAddr (rs1Of w) (immSOf w)) (s.getReg (rs2Of w)) (beatsOf w)))

theorem decodeAlu_decodedAs (w : Word) (i : Instr) (h : decodeAlu w = .instr i) : DecodedAs w i := by
  unfold decodeAlu at h
  simp only at h
  repeat' split at h
  all_goals cases h
  all_goals exact .inl ⟨rfl, fun s => ⟨_, rfl⟩⟩

theorem decodeAluImm_decodedAs (w : Word) (i : Instr) (h : decodeAluImm w = .instr i) :
    DecodedAs w i := by
  unfold decodeAluImm at h
  simp only at h
  repeat' split at h
  all_goals cases h
  all_goals exact .inl ⟨rfl, fun s => ⟨_, rfl⟩⟩

theorem decodeBranch_decodedAs (w : Word) (i : Instr) (h : decodeBranch w = .instr i) :
    DecodedAs w i := by
  unfold decodeBranch at h
  simp only at h
  repeat' split at h
  all_goals cases h
  all_goals
    refine .inr (.inr (.inr (.inl ⟨rfl, ?_⟩)))
    simp only [condOf, *]
    exact ⟨_, rfl, fun s => rfl⟩

theorem decodeLoad_decodedAs (w : Word) (i : Instr) (h : decodeLoad w = .instr i) :
    DecodedAs w i := by
  unfold decodeLoad at h
  repeat' split at h
  all_goals cases h
  all_goals
    refine .inr (.inr (.inr (.inr (.inl ⟨rfl, ?_⟩))))
    simp only [beatsOf, *]
    exact ⟨by decide, fun s => rfl⟩

theorem decodeStore_decodedAs (w : Word) (i : Instr) (h : decodeStore w = .instr i) :
    DecodedAs w i := by
  unfold decodeStore at h
  repeat' split at h
  all_goals cases h
  all_goals
    refine .inr (.inr (.inr (.inr (.inr ⟨rfl, ?_⟩))))
    simp only [beatsOf, *]
    exact ⟨by decide, fun s => rfl⟩

/-- Every decoded instruction does what its word's fields say. -/
theorem decode_decodedAs (w : Word) (i : Instr) (h : decode w = .instr i) : DecodedAs w i := by
  unfold decode at h
  split at h
  · exact decodeAlu_decodedAs w i h
  split at h
  · exact decodeAluImm_decodedAs w i h
  split at h
  · cases h
    exact .inl ⟨rfl, fun s => ⟨_, rfl⟩⟩
  split at h
  · cases h
    exact .inl ⟨rfl, fun s => ⟨_, rfl⟩⟩
  split at h
  · cases h
    exact .inr (.inl rfl)
  split at h
  · split at h
    · cases h
      exact .inr (.inr (.inl rfl))
    · cases h
  split at h
  · exact decodeBranch_decodedAs w i h
  split at h
  · exact decodeLoad_decodedAs w i h
  split at h
  · exact decodeStore_decodedAs w i h
  · cases h

/-! ### Even values of the program counter -/

theorem getLsbD_zero_eq_false_iff (v : Word) : v.getLsbD 0 = false ↔ v.toNat % 2 = 0 := by
  rw [BitVec.getLsbD, Nat.testBit_zero]
  simp

theorem offJOf_even (w : Word) : (offJOf w).getLsbD 0 = false := by simp [offJOf, getElem_fieldAt]

theorem offBOf_even (w : Word) : (offBOf w).getLsbD 0 = false := by simp [offBOf, getElem_fieldAt]

theorem add_four_even (p : Word) (h : p.getLsbD 0 = false) : (p + 4#32).getLsbD 0 = false := by
  rw [getLsbD_zero_eq_false_iff] at *
  rw [BitVec.toNat_add]
  simp
  omega

/-- `pc` + offset - 4 is even when both are. -/
theorem target_even {n : Nat} (hn : 0 < n) (p : Word) (off : BitVec n) (hp : p.getLsbD 0 = false)
    (ho : off.getLsbD 0 = false) : (p + off.signExtend 32 - 4#32).getLsbD 0 = false := by
  have hs : (off.signExtend 32).getLsbD 0 = false := by
    rw [BitVec.getLsbD_signExtend, ho]
    simp [hn]
  rw [getLsbD_zero_eq_false_iff] at *
  rw [BitVec.toNat_sub, BitVec.toNat_add]
  simp
  omega

theorem State.jalrTarget_even (s : State) (rs : RegIdx) (imm : BitVec 12) :
    (s.jalrTarget rs imm).getLsbD 0 = false := by simp [State.jalrTarget]

end Sys2Proof.Machine
end

