-- ==== Sys2Proof/Laws/PerInstr.lean ====
section
/-! SUPPORT. The family `EncodeMatchesTable`: the word the encoder writes for an instruction is a word of
that instruction's row of spec/opcode_table.json (`w & mask == match`), one lemma for each constructor. -/

namespace Sys2Proof.Laws

/-- The encoder's word carries the fixed bits of the instruction's table row. -/
def EncodeMatchesTable.Statement (i : Instr) : Prop := i.row.covers (encode i)

variable (rd rs rs1 rs2 shamt : RegIdx)

/-! ### The fixed bits of each layout -/

theorem encR_mask (a : BitVec 7) (d : BitVec 3) (f : BitVec 7) :
    encR a rs2 rs1 d rd f &&& 0xFE00707F#32 = encR a 0#5 0#5 d 0#5 f := by
  apply BitVec.eq_of_getLsbD_eq
  intro i hi
  interval_cases i <;> simp [encR, getElem_fieldAt]

theorem encR_mask_funct (d : BitVec 3) (f : BitVec 7) :
    encR 0b0000000#7 rs2 rs1 d rd f &&& 0x0000707F#32 = encR 0b0000000#7 0#5 0#5 d 0#5 f := by
  apply BitVec.eq_of_getLsbD_eq
  intro i hi
  interval_cases i <;> simp [encR, getElem_fieldAt]

theorem encR_mask_top5 (a : BitVec 5) (d : BitVec 3) (f : BitVec 7) :
    encR (fieldAt 7 a 2) rs2 rs1 d rd f &&& 0xF800707F#32 = encR (fieldAt 7 a 2) 0#5 0#5 d 0#5 f := by
  apply BitVec.eq_of_getLsbD_eq
  intro i hi
  interval_cases i <;> simp [encR, getElem_fieldAt]

theorem encI_mask (imm : BitVec 12) (d : BitVec 3) (f : BitVec 7) :
    encI imm rs d rd f &&& 0x0000707F#32 = encI 0#12 0#5 d 0#5 f := by
  apply BitVec.eq_of_getLsbD_eq
  intro i hi
  interval_cases i <;> simp [encI, getElem_fieldAt]

theorem encU_mask (imm : BitVec 20) (f : BitVec 7) :
    encU imm rd f &&& 0x0000007F#32 = encU 0#20 0#5 f := by
  apply BitVec.eq_of_getLsbD_eq
  intro i hi
  interval_cases i <;> simp [encU, getElem_fieldAt]

theorem encS_mask (imm : BitVec 12) (d : BitVec 3) (f : BitVec 7) :
    encS imm rs2 rs1 d f &&& 0x0000707F#32 = encS 0#12 0#5 0#5 d f := by
  apply BitVec.eq_of_getLsbD_eq
  intro i hi
  interval_cases i <;> simp [encS, getElem_fieldAt]

theorem encJ_mask (off : BitVec 21) (f : BitVec 7) :
    encJ off rd f &&& 0x0000007F#32 = encJ 0#21 0#5 f := by
  apply BitVec.eq_of_getLsbD_eq
  intro i hi
  interval_cases i <;> simp [encJ, getElem_fieldAt]

theorem encB_mask (off : BitVec 13) (d : BitVec 3) (f : BitVec 7) :
    encB off rs2 rs1 d f &&& 0x0000707F#32 = encB 0#13 0#5 0#5 d f := by
  apply BitVec.eq_of_getLsbD_eq
  intro i hi
  interval_cases i <;> simp [encB, getElem_fieldAt]

/-! ### The lemma of each instruction -/

theorem EncodeMatchesTable.add : EncodeMatchesTable.Statement (.add rd rs1 rs2) :=
  (encR_mask rd rs1 rs2 _ _ _).trans rfl

theorem EncodeMatchesTable.sub : EncodeMatchesTable.Statement (.sub rd rs1 rs2) :=
  (encR_mask rd rs1 rs2 _ _ _).trans rfl

theorem EncodeMatchesTable.sll : EncodeMatchesTable.Statement (.sll rd rs1 rs2) :=
  (encR_mask rd rs1 rs2 _ _ _).trans rfl

theorem EncodeMatchesTable.slt : EncodeMatchesTable.Statement (.slt rd rs1 rs2) :=
  (encR_mask rd rs1 rs2 _ _ _).trans rfl

theorem EncodeMatchesTable.sltu : EncodeMatchesTable.Statement (.sltu rd rs1 rs2) :=
  (encR_mask rd rs1 rs2 _ _ _).trans rfl

theorem EncodeMatchesTable.xor : EncodeMatchesTable.Statement (.xor rd rs1 rs2) :=
  (encR_mask rd rs1 rs2 _ _ _).trans rfl

theorem EncodeMatchesTable.srl : EncodeMatchesTable.Statement (.srl rd rs1 rs2) :=
  (encR_mask rd rs1 rs2 _ _ _).trans rfl

theorem EncodeMatchesTable.sra : EncodeMatchesTable.Statement (.sra rd rs1 rs2) :=
  (encR_mask rd rs1 rs2 _ _ _).trans rfl

theorem EncodeMatchesTable.or : EncodeMatchesTable.Statement (.or rd rs1 rs2) :=
  (encR_mask rd rs1 rs2 _ _ _).trans rfl

theorem EncodeMatchesTable.and : EncodeMatchesTable.Statement (.and rd rs1 rs2) :=
  (encR_mask rd rs1 rs2 _ _ _).trans rfl

theorem EncodeMatchesTable.addi (imm : BitVec 12) : EncodeMatchesTable.Statement (.addi rd rs imm) :=
  (encI_mask rd rs _ _ _).trans rfl

theorem EncodeMatchesTable.slti (imm : BitVec 12) : EncodeMatchesTable.Statement (.slti rd rs imm) :=
  (encI_mask rd rs _ _ _).trans rfl

theorem EncodeMatchesTable.sltiu (imm : BitVec 12) : EncodeMatchesTable.Statement (.sltiu rd rs imm) :=
  (encI_mask rd rs _ _ _).trans rfl

theorem EncodeMatchesTable.xori (imm : BitVec 12) : EncodeMatchesTable.Statement (.xori rd rs imm) :=
  (encI_mask rd rs _ _ _).trans rfl

theorem EncodeMatchesTable.andi (imm : BitVec 12) : EncodeMatchesTable.Statement (.andi rd rs imm) :=
  (encI_mask rd rs _ _ _).trans rfl

theorem EncodeMatchesTable.slli : EncodeMatchesTable.Statement (.slli rd rs shamt) :=
  (encR_mask_funct rd rs shamt _ _).trans rfl

theorem EncodeMatchesTable.srli : EncodeMatchesTable.Statement (.srli rd rs shamt) :=
  (encR_mask_top5 rd rs shamt 0#5 _ _).trans rfl

theorem EncodeMatchesTable.srai : EncodeMatchesTable.Statement (.srai rd rs shamt) :=
  (encR_mask_top5 rd rs shamt 0b01000#5 _ _).trans rfl

theorem EncodeMatchesTable.lui (imm : BitVec 20) : EncodeMatchesTable.Statement (.lui rd imm) :=
  (encU_mask rd _ _).trans rfl

theorem EncodeMatchesTable.auipc (imm : BitVec 20) : EncodeMatchesTable.Statement (.auipc rd imm) :=
  (encU_mask rd _ _).trans rfl

theorem EncodeMatchesTable.jal (off : BitVec 21) : EncodeMatchesTable.Statement (.jal rd off) :=
  (encJ_mask rd _ _).trans rfl

theorem EncodeMatchesTable.jalr (imm : BitVec 12) : EncodeMatchesTable.Statement (.jalr rd rs imm) :=
  (encI_mask rd rs _ _ _).trans rfl

theorem EncodeMatchesTable.beq (off : BitVec 13) : EncodeMatchesTable.Statement (.beq rs1 rs2 off) :=
  (encB_mask rs1 rs2 _ _ _).trans rfl

theorem EncodeMatchesTable.bne (off : BitVec 13) : EncodeMatchesTable.Statement (.bne rs1 rs2 off) :=
  (encB_mask rs1 rs2 _ _ _).trans rfl

theorem EncodeMatchesTable.blt (off : BitVec 13) : EncodeMatchesTable.Statement (.blt rs1 rs2 off) :=
  (encB_mask rs1 rs2 _ _ _).trans rfl

theorem EncodeMatchesTable.bge (off : BitVec 13) : EncodeMatchesTable.Statement (.bge rs1 rs2 off) :=
  (encB_mask rs1 rs2 _ _ _).trans rfl

theorem EncodeMatchesTable.bltu (off : BitVec 13) : EncodeMatchesTable.Statement (.bltu rs1 rs2 off) :=
  (encB_mask rs1 rs2 _ _ _).trans rfl

theorem EncodeMatchesTable.bgeu (off : BitVec 13) : EncodeMatchesTable.Statement (.bgeu rs1 rs2 off) :=
  (encB_mask rs1 rs2 _ _ _).trans rfl

theorem EncodeMatchesTable.lb (imm : BitVec 12) : EncodeMatchesTable.Statement (.lb rd rs imm) :=
  (encI_mask rd rs _ _ _).trans rfl

theorem EncodeMatchesTable.lh (imm : BitVec 12) : EncodeMatchesTable.Statement (.lh rd rs imm) :=
  (encI_mask rd rs _ _ _).trans rfl

theorem EncodeMatchesTable.lw (imm : BitVec 12) : EncodeMatchesTable.Statement (.lw rd rs imm) :=
  (encI_mask rd rs _ _ _).trans rfl

theorem EncodeMatchesTable.sb (imm : BitVec 12) : EncodeMatchesTable.Statement (.sb rs1 rs2 imm) :=
  (encS_mask rs1 rs2 _ _ _).trans rfl

theorem EncodeMatchesTable.sh (imm : BitVec 12) : EncodeMatchesTable.Statement (.sh rs1 rs2 imm) :=
  (encS_mask rs1 rs2 _ _ _).trans rfl

theorem EncodeMatchesTable.sw (imm : BitVec 12) : EncodeMatchesTable.Statement (.sw rs1 rs2 imm) :=
  (encS_mask rs1 rs2 _ _ _).trans rfl

end Sys2Proof.Laws
end

