-- ==== Sys2Proof/Tests/Slice0.lean ====
section
/-! SUPPORT. The model's own tests: the well-formedness smoke tests, decoding of words written out from
the layouts of spec/30_encoding.md, single steps and single clock edges against the vectors of
spec/95_test_vectors.md (whose section each group names), and for every obligation with hypotheses a
witness that meets them. -/

namespace Sys2Proof.Tests

open Sys2Proof Sys2Proof.Machine

/-! ### Helpers -/

/-- What `f` says of the next state, if there is one. -/
def probe {σ α : Type} (o : Host.Outcome σ Fault Refusal) (f : σ → α) : Option α :=
  match o with
  | .next s => some (f s)
  | .fault _ => none
  | .refused _ => none

/-- The outcome is this refusal. -/
def refusedWith {σ : Type} (o : Host.Outcome σ Fault Refusal) : Option Refusal :=
  match o with
  | .next _ => none
  | .fault _ => none
  | .refused r => some r

/-- The machine after reset, with word `w` at `ia`, `pc` = `ia`, and the given registers and data bytes. -/
def at_ (ia w : Word) (regs : List (RegIdx × Word)) (bytes : List Host.Cell) : State :=
  { regs.foldl (fun s c => s.setReg c.1 c.2) State.reset with
    pc := ia, imem := Cells.write [] ia w, dmem := bytes }

/-- What `f` says after one step of that machine. -/
def after {α : Type} (ia w : Word) (regs : List (RegIdx × Word)) (bytes : List Host.Cell)
    (f : State → α) : Option α := probe (step (at_ ia w regs bytes)) f

/-- The same with the other value of each parameter of spec/00_scope.md R10. -/
def afterAlt {α : Type} (ia w : Word) (regs : List (RegIdx × Word)) (f : State → α) : Option α :=
  probe
    (step
      { at_ ia w regs [] with
        cfg := { Config.default with sllLimit := .seven, shrAmount := .low5, auipcBase := .nextAddr } }) f

/-- The data bytes of 2.2. -/
def someBytes : List Host.Cell := [(0x10, 0xDE), (0x11, 0xAD), (0x12, 0xBE), (0x13, 0xEF), (0x14, 1)]

/-- `x[r]` and `pc`. -/
def regPc (r : RegIdx) (t : State) : Word × Word := (t.getReg r, t.pc)

/-! ### Well-formedness: an odd offset is refused (spec/30_encoding.md R165) -/

theorem test_wf_jal_odd : (Instr.jal 1 7).wellFormed = false := by decide
theorem test_wf_beq_odd : (Instr.beq 1 2 7).wellFormed = false := by decide
theorem test_wf_bne_odd : (Instr.bne 1 2 7).wellFormed = false := by decide
theorem test_wf_blt_odd : (Instr.blt 1 2 7).wellFormed = false := by decide
theorem test_wf_bge_odd : (Instr.bge 1 2 7).wellFormed = false := by decide
theorem test_wf_bltu_odd : (Instr.bltu 1 2 7).wellFormed = false := by decide
theorem test_wf_bgeu_odd : (Instr.bgeu 1 2 7).wellFormed = false := by decide
theorem test_wf_even : (Instr.jal 1 6).wellFormed = true ∧ (Instr.bgeu 1 2 6).wellFormed = true := by decide

/-! ### Decoding: words of the vectors, every instruction (spec/95_test_vectors.md Part 2) -/

theorem test_decode_add : decode 0x002081B3#32 = .instr (.add 3 1 2) := by decide
theorem test_decode_sub : decode 0x402081B3#32 = .instr (.sub 3 1 2) := by decide
theorem test_decode_sll : decode 0x002091B3#32 = .instr (.sll 3 1 2) := by decide
theorem test_decode_slt : decode 0x0020A1B3#32 = .instr (.slt 3 1 2) := by decide
theorem test_decode_sltu : decode 0x0020B1B3#32 = .instr (.sltu 3 1 2) := by decide
theorem test_decode_xor : decode 0x0020C1B3#32 = .instr (.xor 3 1 2) := by decide
theorem test_decode_srl : decode 0x0020D1B3#32 = .instr (.srl 3 1 2) := by decide
theorem test_decode_sra : decode 0x4020D1B3#32 = .instr (.sra 3 1 2) := by decide
theorem test_decode_or : decode 0x0020E1B3#32 = .instr (.or 3 1 2) := by decide
theorem test_decode_and : decode 0x0020F1B3#32 = .instr (.and 3 1 2) := by decide
theorem test_decode_addi : decode 0xFFF08193#32 = .instr (.addi 3 1 0xFFF) := by decide
theorem test_decode_slti : decode 0x0050A193#32 = .instr (.slti 3 1 5) := by decide
theorem test_decode_sltiu : decode 0xFFF0B193#32 = .instr (.sltiu 3 1 0xFFF) := by decide
theorem test_decode_xori : decode 0xFFF0C193#32 = .instr (.xori 3 1 0xFFF) := by decide
theorem test_decode_andi : decode 0x0FF0F193#32 = .instr (.andi 3 1 0x0FF) := by decide
theorem test_decode_slli : decode 0x01F09193#32 = .instr (.slli 3 1 31) := by decide
theorem test_decode_srli : decode 0x0040D193#32 = .instr (.srli 3 1 4) := by decide
theorem test_decode_srai : decode 0x41F0D193#32 = .instr (.srai 3 1 31) := by decide
theorem test_decode_lui : decode 0x12345237#32 = .instr (.lui 4 0x12345) := by decide
theorem test_decode_auipc : decode 0xFFFFF217#32 = .instr (.auipc 4 0xFFFFF) := by decide
theorem test_decode_jal : decode 0xFF9FF0EF#32 = .instr (.jal 1 (-8)) := by decide
theorem test_decode_jalr : decode 0xFFF100E7#32 = .instr (.jalr 1 2 (-1)) := by decide
theorem test_decode_beq : decode 0x80208063#32 = .instr (.beq 1 2 (-4096)) := by decide
theorem test_decode_bne : decode 0xFE209EE3#32 = .instr (.bne 1 2 (-4)) := by decide
theorem test_decode_blt : decode 0x0020C863#32 = .instr (.blt 1 2 16) := by decide
theorem test_decode_bge : decode 0xFE20DCE3#32 = .instr (.bge 1 2 (-8)) := by decide
theorem test_decode_bltu : decode 0x0020E663#32 = .instr (.bltu 1 2 12) := by decide
theorem test_decode_bgeu : decode 0x7E20FFE3#32 = .instr (.bgeu 1 2 4094) := by decide
theorem test_decode_lb : decode 0x7FF30283#32 = .instr (.lb 5 6 2047) := by decide
theorem test_decode_lh : decode 0xFFE31283#32 = .instr (.lh 5 6 (-2)) := by decide
theorem test_decode_lw : decode 0x80032283#32 = .instr (.lw 5 6 (-2048)) := by decide
theorem test_decode_sb : decode 0x7E740FA3#32 = .instr (.sb 8 7 2047) := by decide
theorem test_decode_sh : decode 0x80741023#32 = .instr (.sh 8 7 (-2048)) := by decide
theorem test_decode_sw : decode 0xFE742FA3#32 = .instr (.sw 8 7 (-1)) := by decide

/-! ### Decoding: one word of each layout, field by field (spec/30_encoding.md R141 to R146) -/

theorem test_layoutR :
    decode (0b0100000#7 ++ 0b00010#5 ++ 0b00001#5 ++ 0b101#3 ++ 0b00011#5 ++ 0b0110011#7) =
      .instr (.sra 3 1 2) := by decide
theorem test_layoutI :
    decode (0b111111111110#12 ++ 0b00110#5 ++ 0b001#3 ++ 0b00101#5 ++ 0b0000011#7) =
      .instr (.lh 5 6 (-2)) := by decide
theorem test_layoutI_imm :
    decode (0b000011111111#12 ++ 0b00001#5 ++ 0b111#3 ++ 0b00011#5 ++ 0b0010011#7) =
      .instr (.andi 3 1 255) := by decide
theorem test_layoutI_jalr :
    decode (0b000000000100#12 ++ 0b00010#5 ++ 0b000#3 ++ 0b00001#5 ++ 0b1100111#7) =
      .instr (.jalr 1 2 4) := by decide
theorem test_layoutU_lui :
    decode (0b00010010001101000101#20 ++ 0b00100#5 ++ 0b0110111#7) =
      .instr (.lui 4 0x12345) := by decide
theorem test_layoutU_auipc :
    decode (0b00000000000000000001#20 ++ 0b00100#5 ++ 0b0010111#7) =
      .instr (.auipc 4 1) := by decide
theorem test_layoutS :
    decode (0b1111111#7 ++ 0b00111#5 ++ 0b01000#5 ++ 0b001#3 ++ 0b11100#5 ++ 0b0100011#7) =
      .instr (.sh 8 7 (-4)) := by decide
theorem test_layoutJ :
    decode (0b0#1 ++ 0b0000000000#10 ++ 0b1#1 ++ 0b00000000#8 ++ 0b00001#5 ++ 0b1101111#7) =
      .instr (.jal 1 2048) := by decide
theorem test_layoutB :
    decode (0b1#1 ++ 0b111111#6 ++ 0b00010#5 ++ 0b00001#5 ++ 0b001#3 ++ 0b1110#4 ++ 0b1#1 ++ 0b1100011#7) =
      .instr (.bne 1 2 (-4)) := by decide

/-! ### Words that are no instruction of the subset (spec/95_test_vectors.md 2.7 and 2.8), and bits the
decoder does not examine (2.5) -/

theorem test_fatal_opcode :
    decode 0x00000000#32 = .fatal .opcode ∧
    decode 0xFFFFFFFF#32 = .fatal .opcode ∧
    decode 0x0000000F#32 = .fatal .opcode ∧
    decode 0x00000073#32 = .fatal .opcode ∧
    decode 0x00100073#32 = .fatal .opcode ∧
    decode 0x30200073#32 = .fatal .opcode ∧
    decode 0x0000002F#32 = .fatal .opcode ∧
    decode 0x00000007#32 = .fatal .opcode ∧
    decode 0x00000001#32 = .fatal .opcode := by decide
theorem test_fatal_aluRegFunct :
    decode 0x02208033#32 = .fatal .aluRegFunct ∧
    decode 0x022081B3#32 = .fatal .aluRegFunct ∧
    decode 0x4020F1B3#32 = .fatal .aluRegFunct := by decide
theorem test_fatal_aluImmFunct :
    decode 0x0010E193#32 = .fatal .aluImmFunct := by decide
theorem test_fatal_shiftImmTop5 :
    decode 0x0840D193#32 = .fatal .shiftImmTop5 := by decide
theorem test_fatal_branchFunct :
    decode 0x0020A463#32 = .fatal .branchFunct := by decide
theorem test_fatal_loadFunct :
    decode 0x00034283#32 = .fatal .loadFunct := by decide
theorem test_fatal_storeFunct :
    decode 0x00743023#32 = .fatal .storeFunct := by decide
theorem test_unspecJalr : decode 0x004110E7#32 = .unspecJalr := by decide
theorem test_unexamined_slli : decode 0xFE409193#32 = .instr (.slli 3 1 4) := by decide
theorem test_unexamined_srli : decode 0x0240D193#32 = .instr (.srli 3 1 4) := by decide
theorem test_decodeTableWord :
    decodeTableWord 32 0x002081B3 = some (.add 3 1 2) ∧ decodeTableWord 32 0x00000073 = none ∧
      decodeTableWord 32 0x004110E7 = none := by decide

/-! ### Encoding the offsets of T4 (spec/95_test_vectors.md Part 1) -/

theorem test_encode_jal_offsets :
    (
    [(0, 0x0000006F#32), (2, 0x0020006F#32), (4, 0x0040006F#32), (2046, 0x7FE0006F#32),
      (2048, 0x0010006F#32), (4096, 0x0000106F#32), (1044480, 0x000FF06F#32),
      (349524, 0x5545506F#32), (1048574, 0x7FFFF06F#32), (-2, 0xFFFFF06F#32), (-4, 0xFFDFF06F#32),
      (-349526, 0xAABAA06F#32), (-1048576, 0x8000006F#32)] : List (Int × Word)).all (fun c =>
      decide (encode (.jal 0 (BitVec.ofInt 21 c.1)) = c.2 ∧ (offJOf c.2).toInt = c.1)) = true := by
  decide
theorem test_encode_beq_offsets :
    (
    [(0, 0x00000063#32), (2, 0x00000163#32), (4, 0x00000263#32), (16, 0x00000863#32),
      (30, 0x00000F63#32), (32, 0x02000063#32), (2046, 0x7E000F63#32), (2048, 0x000000E3#32),
      (2730, 0x2A0005E3#32), (4094, 0x7E000FE3#32), (-2, 0xFE000FE3#32), (-2048, 0x800000E3#32),
      (-2732, 0xD4000A63#32), (-4096, 0x80000063#32)] : List (Int × Word)).all (fun c =>
      decide (encode (.beq 0 0 (BitVec.ofInt 13 c.1)) = c.2 ∧ (offBOf c.2).toInt = c.1)) = true := by
  decide

/-! ### Single steps (spec/95_test_vectors.md 2.1 to 2.7) -/

theorem test_step_add :
    after 0x100 0x002081B3 [(1, 0x7FFFFFFF), (2, 1)] [] (regPc 3) =
      some (0x80000000, 0x104) := by decide
theorem test_step_add_rd_is_source :
    after 0x100 0x001080B3 [(1, 0x80000000)] [] (regPc 1) =
      some (0, 0x104) := by decide
theorem test_step_sub :
    after 0x100 0x402081B3 [(1, 0x0F0F00FF), (2, 0x00FF0F0F)] [] (regPc 3) =
      some (0x0E0FF1F0, 0x104) := by decide
theorem test_step_sll :
    after 0x100 0x002091B3 [(1, 0x80000001), (2, 6)] [] (regPc 3) =
      some (0, 0x104) := by decide
theorem test_step_sll_limit7 :
    afterAlt 0x100 0x002091B3 [(1, 0x80000001), (2, 6)] (regPc 3) =
      some (0x40, 0x104) := by decide
theorem test_step_slt :
    after 0x100 0x0020A1B3 [(1, 0x80000000), (2, 0xFFFFFFFF)] [] (regPc 3) =
      some (1, 0x104) := by decide
theorem test_step_slt_not :
    after 0x100 0x0020A1B3 [(1, 0x7FFFFFFF), (2, 1)] [] (regPc 3) =
      some (0, 0x104) := by decide
theorem test_step_sltu :
    after 0x100 0x0020B1B3 [(1, 0x80000000), (2, 0xFFFFFFFF)] [] (regPc 3) =
      some (1, 0x104) := by decide
theorem test_step_xor :
    after 0x100 0x0020C1B3 [(1, 0x0F0F00FF), (2, 0x00FF0F0F)] [] (regPc 3) =
      some (0x0FF00FF0, 0x104) := by decide
theorem test_step_srl_full :
    after 0x100 0x0020D1B3 [(1, 0x80000010), (2, 33)] [] (regPc 3) =
      some (0, 0x104) := by decide
theorem test_step_srl_low5 :
    afterAlt 0x100 0x0020D1B3 [(1, 0x80000010), (2, 33)] (regPc 3) =
      some (0x40000008, 0x104) := by decide
theorem test_step_sra_full :
    after 0x100 0x4020D1B3 [(1, 0x80000010), (2, 4)] [] (regPc 3) =
      some (0xF8000001, 0x104) := by decide
theorem test_step_sra_low5 :
    afterAlt 0x100 0x4020D1B3 [(1, 0x40000000), (2, 40)] (regPc 3) =
      some (0x00400000, 0x104) := by decide
theorem test_step_or :
    after 0x100 0x0020E1B3 [(1, 0x0F0F00FF), (2, 0x00FF0F0F)] [] (regPc 3) =
      some (0x0FFF0FFF, 0x104) := by decide
theorem test_step_and :
    after 0x100 0x0020F1B3 [(1, 0x0F0F00FF), (2, 0x00FF0F0F)] [] (regPc 3) =
      some (0x000F000F, 0x104) := by decide
theorem test_step_and_register_zero :
    after 0 0x00007033 [(0, 9)] [] (regPc 0) =
      some (9, 4) := by decide
theorem test_step_addi :
    after 0x100 0xFFF08193 [(1, 0x80000000)] [] (regPc 3) =
      some (0x7FFFFFFF, 0x104) := by decide
theorem test_step_slti :
    after 0x100 0x0050A193 [(1, 0xFFFFFFFF)] [] (regPc 3) =
      some (1, 0x104) := by decide
theorem test_step_slti_equal :
    after 0x100 0x0050A193 [(1, 5)] [] (regPc 3) =
      some (0, 0x104) := by decide
theorem test_step_sltiu :
    after 0x100 0xFFF0B193 [(1, 0xFFFFFFFE)] [] (regPc 3) =
      some (1, 0x104) := by decide
theorem test_step_sltiu_equal :
    after 0x100 0xFFF0B193 [(1, 0xFFFFFFFF)] [] (regPc 3) =
      some (0, 0x104) := by decide
theorem test_step_xori :
    after 0x100 0xFFF0C193 [(1, 0x12345678)] [] (regPc 3) =
      some (0xEDCBA987, 0x104) := by decide
theorem test_step_andi :
    after 0x100 0x0FF0F193 [(1, 0x12345678)] [] (regPc 3) =
      some (0x78, 0x104) := by decide
theorem test_step_slli :
    after 0x100 0x01F09193 [(1, 0x12345679)] [] (regPc 3) =
      some (0x80000000, 0x104) := by decide
theorem test_step_srli :
    after 0x100 0x0040D193 [(1, 0x87654321)] [] (regPc 3) =
      some (0x08765432, 0x104) := by decide
theorem test_step_srai :
    after 0x100 0x4040D193 [(1, 0x87654321)] [] (regPc 3) =
      some (0xF8765432, 0x104) := by decide
theorem test_step_lui :
    after 0x100 0x12345237 [(4, 0xFFFFFFFF)] [] (regPc 4) =
      some (0x12345000, 0x104) := by decide
theorem test_step_auipc :
    after 0x100 0xFFFFF217 [] [] (regPc 4) =
      some (0xFFFFF100, 0x104) := by decide
theorem test_step_auipc_next :
    afterAlt 0x100 0x00001217 [] (regPc 4) =
      some (0x1104, 0x104) := by decide
theorem test_step_jal :
    after 0x100 0xFF9FF0EF [] [] (regPc 1) =
      some (0x104, 0xF8) := by decide
theorem test_step_jal_register_zero :
    after 0x100 0x0080006F [] [] (regPc 0) =
      some (0x104, 0x108) := by decide
theorem test_step_jalr :
    after 0x100 0x004100E7 [(2, 0x201)] [] (regPc 1) =
      some (0x104, 0x204) := by decide
theorem test_step_jalr_rd_is_source :
    after 0x100 0x00010167 [(2, 0x200)] [] (regPc 2) =
      some (0x104, 0x200) := by decide
theorem test_step_beq :
    after 0x10 0x80208063 [(1, 0), (2, 0)] [] (State.pc) =
      some 0xFFFFF010 := by decide
theorem test_step_beq_not :
    after 0x100 0x00208463 [(1, 5), (2, 6)] [] (State.pc) =
      some 0x104 := by decide
theorem test_step_bne :
    after 0x100 0xFE209EE3 [(1, 5), (2, 6)] [] (State.pc) =
      some 0xFC := by decide
theorem test_step_bne_not :
    after 0x100 0xFE209EE3 [(1, 5), (2, 5)] [] (State.pc) =
      some 0x104 := by decide
theorem test_step_blt :
    after 0x100 0x0020C863 [(1, 0x80000000), (2, 0x7FFFFFFF)] [] (State.pc) =
      some 0x110 := by decide
theorem test_step_blt_not :
    after 0x100 0x0020C863 [(1, 7), (2, 7)] [] (State.pc) =
      some 0x104 := by decide
theorem test_step_bge :
    after 0x100 0xFE20DCE3 [(1, 7), (2, 7)] [] (State.pc) =
      some 0xF8 := by decide
theorem test_step_bge_not :
    after 0x100 0xFE20DCE3 [(1, 0xFFFFFFFF), (2, 1)] [] (State.pc) =
      some 0x104 := by decide
theorem test_step_bltu :
    after 0x100 0x0020E663 [(1, 1), (2, 0xFFFFFFFF)] [] (State.pc) =
      some 0x10C := by decide
theorem test_step_bltu_not :
    after 0x100 0x0020E663 [(1, 0x80000000), (2, 0x7FFFFFFF)] [] (State.pc) =
      some 0x104 := by decide
theorem test_step_bgeu :
    after 0x100 0x7E20FFE3 [(1, 0xFFFFFFFF), (2, 1)] [] (State.pc) =
      some 0x10FE := by decide
theorem test_step_bgeu_not :
    after 0x100 0x7E20FFE3 [(1, 1), (2, 0xFFFFFFFF)] [] (State.pc) =
      some 0x104 := by decide
theorem test_step_lb :
    after 0x100 0x00330283 [(6, 0x10), (5, 0xFFFFFFFF)] someBytes (regPc 5) =
      some (0xEF, 0x104) := by decide
theorem test_step_lh :
    after 0x100 0xFFE31283 [(6, 0x14), (5, 0xFFFFFFFF)] someBytes (regPc 5) =
      some (0xBEEF, 0x104) := by decide
theorem test_step_lh_wraps :
    after 0x100 0xFFE31283 [(6, 1)] [(0, 0x5B), (0xFFFFFFFF, 0x7A)] (regPc 5) =
      some (0x7A5B, 0x104) := by decide
theorem test_step_lw_unaligned :
    after 0x100 0x00032283 [(6, 0x11)] someBytes (regPc 5) =
      some (0xADBEEF01, 0x104) := by decide
theorem test_step_lw_rd_is_base :
    after 0x100 0x00032303 [(6, 0x10)] someBytes (regPc 6) =
      some (0xDEADBEEF, 0x104) := by decide
theorem test_step_sb :
    after 0x100 0x007400A3 [(7, 0x11223344), (8, 0x20)] [] (State.dmem) =
      some [(0x21, 0x44)] := by decide
theorem test_step_sh :
    after 0x100 0xFE741E23 [(7, 0x11223344), (8, 0x20)] [] (State.dmem) =
      some [(0x1C, 0x33), (0x1D, 0x44)] := by decide
theorem test_step_sw_wraps :
    after 0x100 0x00742423 [(7, 0xA1B2C3D4), (8, 0xFFFFFFF6)] [] (State.dmem) =
      some [(0, 0xC3), (1, 0xD4), (0xFFFFFFFE, 0xA1), (0xFFFFFFFF, 0xB2)] := by decide
theorem test_step_sw_scenario :
    after 0x10 0x0000A023 [(0, 11), (1, 13)] [(14, 5)] (State.dmem) =
      some [(16, 0x0B)] := by decide

/-! ### The halt and the refusals (spec/95_test_vectors.md 2.8, spec/60_exceptions.md R395) -/

theorem test_step_halt :
    after 0x40 0x0010E193 [] [] (fun t => (t.halted, t.pc, t.haltReason)) =
      some (true, 0x44, some .aluImmFunct) := by decide
theorem test_step_erased_word :
    after 0x40 0 [] [] (fun t => (t.halted, t.pc, t.haltReason)) = some (true, 0x44, some .opcode) := by
  decide
theorem test_step_unspecJalr :
    refusedWith (step (at_ 0x40 0x004110E7 [] [])) = some .unspecJalrFunct := by decide
theorem test_step_misaligned :
    refusedWith (step (at_ 0x10FE 0x002081B3 [] [])) = some .misalignedFetch := by decide
theorem test_step_badDestination :
    refusedWith
      (step { at_ 0 0x002081B3 [] [] with cfg := { Config.default with dataDest := ⟨[], 2⟩ } }) =
      some .badDestination := by decide
theorem test_withFetchWord :
    probe (step (State.reset.withFetchWord 32 0x00B00013)) (regPc 0) = some (11, 4) := by decide
theorem test_reset_fatal :
    probe (step State.reset) (fun t => (t.halted, t.pc)) = some (true, 4) := by decide

/-! ### Single clock edges (spec/50_core_fsm.md R348 to R356) -/

/-- `at_` with the word in its decode cycle: `pc` has advanced. -/
def decoding (ia w : Word) (regs : List (RegIdx × Word)) : State := (at_ ia w regs []).latchFetch w

/-- Inputs with no answer. -/
def quiet : CoreInputs := ⟨false, false, 0, false, 0⟩

/-- `xs`, `cnt`, `ea`, `active`. -/
def latches (t : State) : ExecState × BitVec 3 × Word × Bool := (t.xs, t.cnt, t.ea, t.active)

theorem test_edge_load_decode :
    probe (coreEdge quiet (decoding 0x100 0x00032283 [(6, 0x10), (5, 9)]))
      (fun t => (latches t, t.getReg 5)) = some ((.load, 4, 0x10, false), 0) := by decide
theorem test_edge_load_beat :
    probe
      (coreEdge { quiet with dAck := true, dReadData := 0x34 }
        { decoding 0x100 0x00031283 [(5, 0x12)] with active := false, xs := .load, cnt := 1, ea := 2 })
      (fun t => (latches t, t.getReg 5)) = some ((.none, 0, 3, false), 0x1234) := by decide
theorem test_edge_store_decode :
    probe (coreEdge quiet (decoding 0x100 0xFE741E23 [(7, 0x11223344), (8, 0x20)]))
      (fun t => (latches t, t.sh)) = some ((.store, 2, 0x1C, false), 0x33440000) := by decide
theorem test_edge_branch_decode :
    probe (coreEdge quiet (decoding 0x100 0x00208463 [])) (fun t => (t.xs, t.pc, t.active)) =
      some (.branch, 0x104, false) := by decide
theorem test_edge_overlapped_fetch :
    probe
      (coreEdge { quiet with pAck := true, pReadData := 0x13 } (decoding 0x100 0x002081B3 [(1, 3), (2, 4)]))
      (fun t => (t.getReg 3, t.ir, t.pc, t.active)) = some (7, 0x13, 0x108, true) := by decide
theorem test_edge_halt :
    probe (coreEdge quiet (decoding 0x40 0x00000073 [])) (fun t => (t.halted, t.progRequest.cycle)) =
      some (true, false) := by decide
theorem test_edge_reset :
    probe (coreEdge { quiet with rst := true } { decoding 0x40 0x00000073 [(1, 5)] with halted := true })
      (fun t => (t.halted, t.pc, t.getReg 1)) = some (false, 0, 0) := by decide
theorem test_ports_in_store :
    let s := { decoding 0x100 0x00742423 [] with
      active := false, xs := .store, cnt := 4, ea := 0x28, sh := 0x11223344 }
    s.dataRequest = ⟨true, true, 0x28, true, 0x11, 1⟩ ∧ s.progRequest = Request.idle := by decide
theorem test_system_two_cycles :
    probe (System.run 2 (System.start (at_ 0 0x00B00013 [] []))) (fun z => (z.core.ir, z.core.active)) =
      some (0x00B00013, true) := by decide

/-! ### The switch (spec/95_test_vectors.md 2.10) and the reference responder (2.9) -/

/-- A master's request for port `d`. -/
def req (cyc : Bool) (d : Nat) : Request := ⟨cyc, cyc, 7, true, 0x1FF, d⟩

theorem test_switch_next :
    [(MasterId.m0, false, false, MasterId.m1), (.m0, false, true, .m1), (.m0, true, false, .m0),
      (.m0, true, true, .m0), (.m1, false, false, .m0), (.m1, false, true, .m1), (.m1, true, false, .m0),
      (.m1, true, true, .m1)].all (fun c =>
        decide (nextSelect c.1 (req c.2.1 0) (req c.2.2.1 1) = c.2.2.2)) = true := by decide
theorem test_switch_S1_t0 :
    switchOutput Config.default.ports .m0 (req true 0) (req true 1) 0 = { req true 0 with } ∧
      switchOutput Config.default.ports .m0 (req true 0) (req true 1) 1 = Request.idle := by decide
theorem test_switch_S1_t3 :
    switchOutput Config.default.ports .m1 (req true 0) (req true 1) 0 = Request.idle ∧
      switchOutput Config.default.ports .m1 (req true 0) (req true 1) 1 =
        { req true 0 with writeData := 0xFF } ∧
      (switchReturn 2 .m1 .m0 (req true 0) (req true 1) 32 (fun _ => ⟨true, 5⟩)).ack = false := by decide
/-- A region that no address reaches, or that an earlier one hides, does not count. -/
theorem test_tag_check :
    TagMap.inRange ⟨[⟨0, 2 ^ 32, 1⟩, ⟨16, 4, 7⟩, ⟨2 ^ 32, 4, 9⟩], 5⟩ 2 = true ∧
      TagMap.inRange ⟨[⟨16, 4, 7⟩, ⟨0, 2 ^ 32, 1⟩], 0⟩ 2 = false ∧
      TagMap.inRange ⟨[⟨0, 2 ^ 32 - 1, 0⟩], 2⟩ 2 = false := by decide
theorem test_system_badDestination :
    refusedWith
      ((System.start { at_ 0 0 [] [] with cfg := { Config.default with dataDest := ⟨[], 2⟩ } }).cycle false) =
      some .badDestination := by decide
theorem test_switch_S4 :
    switchOutput Config.default.ports .m0 (req true 2) (req true 1) 0 = Request.idle ∧
      switchReturn 2 .m0 .m0 (req true 2) (req true 1) 32 (fun _ => ⟨true, 5⟩) = Response.none := by decide
theorem test_reference_responder_H1 :
    (List.range 3).map (refAckAt fun t => req (decide (t < 2)) 0) = [false, true, false] := by decide

/-! ### Timing (spec/70_reset_and_hazards.md R430) and spelling (spec/30_encoding.md R162) -/

theorem test_cycles :
    instrCycles (.sw 0 0 0) 2 2 (some .alui) = 10 ∧ instrCycles (.lh 0 0 0) 2 2 (some .store) = 7 ∧
      instrCycles (.bne 0 0 0) 2 2 (some .alui) = 3 := by decide
theorem test_asm :
    asm (.and 0 0 0) = "AND r0,r0,r0" ∧ asm (.addi 0 0 11) = "ADDI r0,r0,#11" ∧
      asm (.sw 1 0 0) = "SW r0,0(r1)" ∧ asm (.bne 1 2 (-4)) = "BNE r1,r2,#-4" := by decide

/-! ### Witnesses: for every obligation with hypotheses, values that meet them together -/

/-- Fetch-ready at 0x100, an ADD next. -/
def sReady : State := at_ 0x100 0x002081B3 [(1, 3), (2, 4)] []
/-- Fetch-ready at 0x40, a fatal word next. -/
def sFatal : State := at_ 0x40 0x0010E193 [] []
/-- Halted. -/
def sHalted : State := { sFatal with halted := true, ir := 0x0010E193, pc := 0x44 }
/-- The decode cycle of an ADD. -/
def sDec : State := decoding 0x100 0x002081B3 [(1, 3), (2, 4)]
/-- The execute cycle of a branch. -/
def sXb : State := { decoding 0x100 0x00208463 [] with active := false, xs := .branch }
/-- A load of 4 after one transfer. -/
def sXl : State :=
  { decoding 0x100 0x00032283 [(6, 0x10)] with active := false, xs := .load, cnt := 3, ea := 0x11 }
/-- A store of 4 before its first transfer. -/
def sXs : State :=
  { decoding 0x100 0x00742423 [(7, 0x11223344), (8, 0x20)] with
    active := false, xs := .store, cnt := 4, ea := 0x28, sh := 0x11223344 }

/-- A tag function that names no port. -/
def sBadTag : State := { sReady with cfg := { Config.default with dataDest := ⟨[], 2⟩ } }
/-- A misaligned `pc`. -/
def sOdd : State := { sReady with pc := 0x102 }
/-- A JALR word with another function value next. -/
def sJalr : State := at_ 0 0x004110E7 [] []
/-- That word in its decode cycle. -/
def sJalrDec : State := decoding 0 0x004110E7 []

theorem witness_ready : Ready sReady ∧ decode sReady.fetchWord = .instr (.add 3 1 2) :=
  ⟨⟨by decide, by decide, by decide⟩, by decide⟩
theorem witness_coreInv_ready : CoreInv sReady :=
  ⟨by decide, by decide, nofun, nofun, nofun, rfl⟩
theorem witness_coreInv_halted : CoreInv sHalted :=
  ⟨by decide, by decide, nofun, nofun, nofun, rfl⟩
theorem witness_coreInv_dec : CoreInv sDec :=
  ⟨by decide, by decide, nofun, nofun, nofun, rfl⟩
theorem witness_coreInv_xb : CoreInv sXb :=
  ⟨by decide, by decide, fun _ => ⟨.beq 1 2 8, by decide, rfl⟩, nofun, nofun, rfl⟩
theorem witness_coreInv_xl : CoreInv sXl :=
  ⟨by decide, by decide, nofun,
    fun _ => ⟨⟨.lw 5 6 0, by decide, rfl⟩, by decide, by decide, by decide⟩, nofun, rfl⟩
theorem witness_coreInv_xs : CoreInv sXs :=
  ⟨by decide, by decide, nofun, nofun,
    fun _ => ⟨⟨.sw 8 7 8, by decide, rfl⟩, by decide, by decide, by decide, by decide, by decide⟩,
    rfl⟩

theorem witness_DecodeEncodeRoundTrip :
    (Instr.jal 1 (-1048576)).wellFormed = true ∧ (Instr.beq 1 2 4094).wellFormed = true ∧
      (Instr.add 0 0 0).wellFormed = true := by decide
theorem witness_DecodeDropsOnlyUnexaminedBits :
    decode 0xFE409193#32 = .instr (.slli 3 1 4) ∧
      0x00409193#32 &&& (Instr.slli 3 1 4).examined = 0xFE409193#32 &&& (Instr.slli 3 1 4).examined := by
  decide
theorem witness_TableRowsPartitionTheInstructions :
    decode 0x0840D193#32 = .fatal .shiftImmTop5 ∧ decode 0x4040D193#32 = .instr (.srai 3 1 4) := by decide
theorem witness_ResetGivesTheResetValues : ({ quiet with rst := true } : CoreInputs).rst = true := rfl
theorem witness_StepRunsTheDecodedInstruction :
    Ready sReady ∧
      decode (Cells.read sReady.imem (busAddr sReady.cfg.iaddrW sReady.pc)) = .instr (.add 3 1 2) :=
  witness_ready
theorem witness_FatalWordHaltsTheCore : Ready sFatal ∧ decode sFatal.fetchWord = .fatal .aluImmFunct :=
  ⟨⟨by decide, by decide, by decide⟩, by decide⟩
theorem witness_HaltedMachineKeepsEveryRegister : sHalted.halted = true ∧ quiet.rst = false := by decide
/-- The three refusals, the last in fetch-ready and in decode; the next states are in the step tests. -/
theorem witness_StepStopsOnlyAtTheNamedRefusals :
    (sBadTag.halted = false ∧ sBadTag.cfg.tagsOk = false) ∧
      (sOdd.cfg.tagsOk = true ∧ sOdd.phase = .fr ∧ sOdd.pcMisaligned = true) ∧
      (sJalr.cfg.tagsOk = true ∧ sJalr.phase = .fr ∧ sJalr.pcMisaligned = false ∧
        decode sJalr.fetchWord = .unspecJalr) ∧
      (sJalrDec.cfg.tagsOk = true ∧ sJalrDec.phase = .dec ∧ decode sJalrDec.ir = .unspecJalr) := by decide
/-- For `BranchOnEquality`, `BranchOnSignedOrder` and `BranchOnUnsignedOrder`: the ends of the range. -/
theorem witness_branches :
    evenOffset (-4096#13) = true ∧ evenOffset 4094#13 = true ∧ evenOffset 0#13 = true := by decide
/-- For the clauses `rs1 = rs2` and on the immediate in the arithmetic statements. -/
theorem witness_arithmetic_corners :
    (1#5 : RegIdx) = 1#5 ∧ (-1 : BitVec 12) = 0xFFF#12 ∧ (0 : BitVec 12) = 0#12 := by decide
theorem witness_LoadAccumulatesInTheDestination : (4 ≤ 4 ∧ 4 ≤ 4) ∧ (4 ≤ 4 ∧ 0 ≤ 4) := by decide
/-- For `StoreResults`: bytes just outside a stored word, and a port that tells its bytes apart. -/
theorem witness_StoreResults :
    OutsideStored sXs 0x28 4 0x27 ∧ OutsideStored sXs 0x28 4 0x2C ∧ 4 ≤ 2 ^ sXs.cfg.daddrW ∧
      ¬ OutsideStored sXs 0x28 4 0x2B := by
  unfold OutsideStored
  decide
/-- For `StoredBytesAreLoadedBack`: `rs` = 8 unchanged by the store, the three addresses. -/
theorem witness_StoredBytesAreLoadedBack :
    2 ≤ sXs.cfg.daddrW ∧
      probe (exec (.sw 8 7 8) sXs) (fun t =>
        decide (t.effAddr 8 8 = sXs.effAddr 8 8 ∧ t.effAddr 8 10 = sXs.effAddr 8 8 + 2#32 ∧
          t.effAddr 8 11 = sXs.effAddr 8 8 + 3#32)) = some true := by decide
theorem witness_AddressesAreTruncated :
    let s := { sReady with cfg := { Config.default with daddrW := 8, iaddrW := 8 } }
    (0x104#32).toNat % 2 ^ s.cfg.daddrW = (0x004#32).toNat % 2 ^ s.cfg.daddrW ∧
      (0x104#32).toNat % 2 ^ s.cfg.iaddrW = (0x004#32).toNat % 2 ^ s.cfg.iaddrW := by decide
theorem witness_InstructionsWriteOnlyTheirOwn_store :
    OutsideStored sXs (sXs.effAddr 8 8) 1 0x29 ∧ OutsideStored sXs (sXs.effAddr 8 8) 2 0x2A ∧
      OutsideStored sXs (sXs.effAddr 8 8) 4 0x2C := by
  unfold OutsideStored
  decide
theorem witness_InstructionsWriteOnlyTheirOwn :
    destOf (.add 3 1 2) ≠ some 1#5 ∧ writesPc (Instr.add 3 1 2).cls = false ∧
      (Instr.add 3 1 2).cls ≠ .store ∧ (Instr.add 3 1 2).cls ≠ .load := by decide
theorem witness_InstructionsReadOnlyTheirSources :
    3#5 ∉ sourcesOf (.add 3 1 2) ∧ destOf (.add 3 1 2) = some 3#5 ∧
      0#5 ∉ sourcesOf (.add 3 1 2) ∧ destOf (.add 3 1 2) ≠ some 0#5 := by decide
theorem witness_StepKeepsTheInvariant :
    ArchInv sReady ∧ ∃ t, step sReady = .next t :=
  ⟨⟨⟨by decide, by decide⟩, rfl, rfl, rfl⟩, _, rfl⟩
/-- An edge that answers, in each phase; the invariant holds there by the `witness_coreInv` theorems. -/
theorem witness_ClockEdgeKeepsTheInvariants :
    [sReady, sDec, sXb, sXl, sXs, sHalted].all (fun s =>
      (probe (coreEdge { quiet with pAck := true, dAck := true, dReadData := 5 } s) fun _ => ()).isSome)
      = true := by decide
theorem witness_InstructionInHandIsTheOneAtPcMinusFour :
    CoreInv sDec ∧ InHandAtIa sDec ∧ ∃ t, memEdge true sDec = .next t :=
  ⟨witness_coreInv_dec, fun _ _ => by decide, _, rfl⟩
/-- Both cases of the conclusion: an edge that ends a fetch, and one that does not. -/
theorem witness_ClockedCoreRefinesTheStep :
    (sDec.cfg.tagsOk = true ∧ (sDec.active = true → sDec.xs = .none) ∧
      (sDec.fetchOpen && true) = true ∧ (probe (memEdge true sDec) fun _ => ()).isSome = true) ∧
    (sXl.cfg.tagsOk = true ∧ (sXl.active = true → sXl.xs = .none) ∧
      (sXl.fetchOpen && true) = false ∧ (probe (memEdge true sXl) fun _ => ()).isSome = true) := by decide
theorem witness_EdgeIsTheListing :
    quiet.rst = false ∧ sDec.halted = false ∧ (sDec.active = true → sDec.xs = .none) ∧
      (sDec.fetchOpen = true → sDec.pcMisaligned = false) := by decide
/-- A finite run of one cycle, at a `pc` whose fetch is refused. -/
theorem witness_CorePortsKeepTheHoldRule_finite :
    CoreInv sOdd ∧ sOdd.progRequest.isRequest = true ∧
      refusedWith (coreEdge quiet sOdd) = some .misalignedFetch ∧ ¬ inTrace (some 1) (0 + 1) :=
  ⟨⟨by decide, by decide, nofun, nofun, nofun, rfl⟩, by decide, by decide,
    fun h => absurd (h 1 rfl) (by decide)⟩
theorem waiting_ready : coreEdge quiet sReady = .next sReady := by rfl
/-- A run that waits for its fetch for ever. -/
theorem witness_CorePortsKeepTheHoldRule :
    ∃ (inp : Nat → CoreInputs) (run : Nat → State), CoreInv (run 0) ∧
      ∀ k, inTrace none (k + 1) → (inp k).rst = false ∧ coreEdge (inp k) (run k) = .next (run (k + 1)) :=
  ⟨fun _ => quiet, fun _ => sReady, witness_coreInv_ready,
    fun _ _ => ⟨rfl, waiting_ready⟩⟩
/-- In a load the answers agree on the data port and differ on the closed program port; in a store they
differ in the read data too. -/
theorem witness_AnswersOutsideATransferAreIgnored :
    let a : CoreInputs := ⟨false, true, 7, true, 5⟩
    let b : CoreInputs := ⟨false, false, 0, true, 5⟩
    a.rst = b.rst ∧
      (sXl.fetchOpen = true → a.pAck = b.pAck ∧ (a.pAck = true → a.pReadData = b.pReadData)) ∧
      (sXl.dataOpen = true → a.dAck = b.dAck) ∧
      (sXl.dataOpen = true → sXl.dataWrite = false → a.dAck = true → a.dReadData = b.dReadData) ∧
      (sXs.dataOpen = true ∧ sXs.dataWrite = true) := by decide
theorem witness_WaitingChangesNothing :
    quiet.rst = false ∧ quiet.pAck = false ∧ quiet.dAck = false ∧
      (sReady.phase = .fr ∧ sReady.pcMisaligned = false) ∧ sXl.phase = .xl ∧ sXs.phase = .xs ∧
      (sDec.phase = .dec ∧ decode sDec.ir = .instr (.add 3 1 2) ∧
        (Instr.add 3 1 2).cls.single = true ∧ sDec.pcMisaligned = false) := by decide
/-- Fewer answers than beats, and all of them. -/
theorem witness_DataBeatsAreMadeExactlyOnce :
    sXs.dataOpen = true ∧ sXs.pcMisaligned = false ∧
      [false, true, true].count true < sXs.cnt.toNat ∧
      [true, false, true, true, true].count true = sXs.cnt.toNat := by decide
theorem witness_BeatsAreThoseOfMemReadAndMemWrite :
    sReady.halted = false ∧ (1 = 1 ∨ 1 = 2 ∨ 1 = 4) ∧ (2 = 1 ∨ 2 = 2 ∨ 2 = 4) ∧
      (4 = 1 ∨ 4 = 2 ∨ 4 = 4) := by decide
theorem witness_InstructionsTakeTheTabledCycles :
    Ready sReady ∧ decode sReady.fetchWord = .instr (.add 3 1 2) ∧ 1 ≤ 1 :=
  ⟨witness_ready.1, witness_ready.2, by decide⟩
theorem witness_OverlappedFetchSavesOneCycle :
    let s := { sDec with imem := Cells.write [] 0x104 0x00742423 }
    CoreInv s ∧ s.phase = .dec ∧ s.cfg.tagsOk = true ∧ s.pcMisaligned = false ∧
      decode s.ir = .instr (.add 3 1 2) ∧ (Instr.add 3 1 2).cls.single = true ∧
      decode s.fetchWord = .instr (.sw 8 7 8) :=
  ⟨witness_coreInv_dec, by decide, by decide, by decide, by decide, by decide, by decide⟩
/-- Both sides of the check, and a switched configuration within the bound on `DEST_W`. -/
theorem witness_ConfigurationCheckIsExact :
    sReady.cfg.wiring = .switched ∧ sReady.cfg.tagsOk = true ∧
      sReady.cfg.nPorts ≤ 2 ^ sReady.cfg.destW ∧ sBadTag.cfg.tagsOk = false := by decide
theorem witness_AnsweredBeatIsTheFirstRemaining :
    (CoreInv sXs ∧ sXs.dataOpen = true) ∧ CoreInv sXl ∧ sXl.dataOpen = true :=
  ⟨⟨witness_coreInv_xs, by decide⟩, witness_coreInv_xl, by decide⟩
theorem witness_DirectSystemIsTheCoreWithItsMemory :
    let y := System.start { sReady with cfg := { Config.default with wiring := .direct } }
    y.core.cfg.wiring = .direct ∧ CoreInv y.core ∧ ∃ z, y.cycle false = .next z :=
  ⟨rfl, witness_coreInv_ready, _, rfl⟩
/-- A tag that names a port, at the end of the range, and one that does not. -/
theorem witness_SwitchRoutesTheSelectedMaster :
    Config.default.ports[(req true 1).destination]? = some ⟨32, 8, .dataMem⟩ ∧ 0 ≠ (req true 1).destination ∧
      Config.default.ports[(req true 2).destination]? = none := by decide
theorem witness_SelectFlipsWhenTheSelectedMasterIsIdle :
    (System.start sReady).core.cfg.wiring = .switched ∧
      ∃ z, (System.start sReady).cycle false = .next z :=
  ⟨rfl, _, rfl⟩
theorem witness_FetchWaitsOneCycleForTheSwitch :
    let y := System.start { sReady with select := .m1 }
    y.core.cfg.wiring = .switched ∧ y.core.cfg.tagsOk = true ∧ y.core.phase = .fr ∧ y.core.pcMisaligned = false ∧
      y.core.select = .m1 := by decide
/-- `m[0]` requests for ever and `m[1]` never; the run that starts at `m[1]` is handed over once. -/
theorem witness_SwitchDoesNotPreempt :
    ∃ (m : Nat → MasterId → Request) (sel : Nat → MasterId),
      (∀ t, sel (t + 1) = nextSelect (sel t) (m t .m0) (m t .m1)) ∧
      (∀ k < 5, (m (1 + k) (sel 1)).cycle = true) ∧ (m 0 (sel 0)).cycle = false ∧
      (∀ k, (m k (MasterId.other .m0)).cycle = false) ∧ (m 0 .m0).cycle = true :=
  ⟨fun _ w => match w with | .m0 => req true 0 | .m1 => Request.idle,
    fun t => match t with | 0 => .m1 | _ + 1 => .m0,
    fun t => by cases t <;> rfl, fun _ _ => rfl, rfl, fun _ => rfl, rfl⟩
/-- Two masters that hold their requests, with no answer. -/
theorem witness_SwitchOutputsKeepTheHoldRule :
    ∃ (m : Nat → MasterId → Request) (sel : Nat → MasterId) (resp : Nat → Nat → Response),
      (∀ t, sel (t + 1) = nextSelect (sel t) (m t .m0) (m t .m1)) ∧
      ∀ who, MasterOK ⟨none, fun t =>
        ⟨m t who, switchReturn 2 (sel t) who (m t .m0) (m t .m1) 32 (resp t)⟩⟩ :=
  ⟨fun _ _ => req true 0, fun _ => .m0, fun _ _ => Response.none, fun _ => rfl, fun _ _ _ _ _ => rfl⟩
/-- A master that requests for ever. -/
theorem witness_ReferenceResponderComplies :
    ∃ (reqs : Nat → Request) (data : Nat → Nat),
      MasterOK ⟨none, fun t => ⟨reqs t, ⟨refAckAt reqs t, data t⟩⟩⟩ ∧
      (reqs 0).isRequest = true ∧ refAckAt reqs 0 = false :=
  ⟨fun _ => req true 0, fun _ => 0, fun _ _ _ _ => rfl, rfl, rfl⟩

end Sys2Proof.Tests
end

section
/-! The registers in each phase (spec/50_core_fsm.md R333), one equation for each way an architectural step
or a clock cycle with memory responders can go, and from them the two statements on the fetched
instruction: a step in fetch-ready runs it, and it stays the one at `pc` - 4 while it is in hand. -/

namespace Sys2Proof.Machine

variable {s : State}

/-! ### The registers in each phase (R333) -/

theorem State.phase_eq_halt_iff : s.phase = .halt ↔ s.halted = true := by
  grind [State.phase]

theorem State.phase_eq_dec_iff : s.phase = .dec ↔ s.halted = false ∧ s.active = true := by
  grind [State.phase]

theorem State.phase_eq_xb_iff :
    s.phase = .xb ↔ s.halted = false ∧ s.active = false ∧ s.xs = .branch := by
  grind [State.phase]

theorem State.phase_eq_xl_iff :
    s.phase = .xl ↔ s.halted = false ∧ s.active = false ∧ s.xs = .load := by
  grind [State.phase]

theorem State.phase_eq_xs_iff :
    s.phase = .xs ↔ s.halted = false ∧ s.active = false ∧ s.xs = .store := by
  grind [State.phase]

theorem State.phase_eq_fr_iff :
    s.phase = .fr ↔ s.halted = false ∧ s.active = false ∧ s.xs = .none := by
  grind [State.phase]

/-! ### The architectural step of a ready machine -/

/-- A ready machine latches the word at `pc` and runs it (R26). -/
theorem step_of_ready (h : Ready s) : step s = (s.latchFetch s.fetchWord).execLatched := by
  obtain ⟨hfr, haligned, htags⟩ := h
  obtain ⟨hhalted, -, -⟩ := State.phase_eq_fr_iff.1 hfr
  have hdec : (s.latchFetch s.fetchWord).phase = .dec := State.phase_eq_dec_iff.2 ⟨hhalted, rfl⟩
  simp [step, State.finish, hhalted, htags, hfr, haligned, hdec]

theorem State.execLatched_of_instr {i : Instr} (h : decode s.ir = .instr i) :
    s.execLatched = exec i s := by
  simp [State.execLatched, h]

/-- Settles O10: the step runs what the fetch has latched, and that word decodes to `i`. -/
theorem stepRunsTheDecodedInstruction : Obligations.StepRunsTheDecodedInstruction := by
  intro s i hready hdecode
  rw [step_of_ready hready]
  exact State.execLatched_of_instr hdecode

/-! ### The decode cycle's part of the edge -/

/-- A single-cycle class completes in its decode cycle (R332, R348). -/
theorem State.decodeEdge_of_single {i : Instr} (h : i.cls.single = true) :
    s.decodeEdge i = exec i s := by
  unfold State.decodeEdge
  cases hc : i.cls <;> simp [hc, InstrClass.single] at h ⊢

/-- What the decode cycle of an instruction leaves: the result of a single-cycle class, the target of a
jump, or the execute state of a branch, a load or a store (R348 to R352). -/
theorem State.decodeEdge_cases {i : Instr} (h : decode s.ir = .instr i) :
    (i.cls.single = true ∧ ∃ v, s.decodeEdge i = .next (s.writeResult (rdOf s.ir) v)) ∨
    (i.cls.single = false ∧
      ((∃ target, s.decodeEdge i = .next (s.jumpTo (rdOf s.ir) target)) ∨
        s.decodeEdge i = .next s.startBranch ∨
        (∃ a n, s.decodeEdge i = .next (s.startLoad (rdOf s.ir) a n)) ∨
        ∃ a v n, s.decodeEdge i = .next (s.startStore a v n))) := by
  rcases decode_decodedAs _ _ h with
    ⟨hsingle, hexec⟩ | rfl | rfl | ⟨hc, -⟩ | ⟨hc, -⟩ | ⟨hc, -⟩
  · obtain ⟨v, hv⟩ := hexec s
    exact .inl ⟨hsingle, v, (State.decodeEdge_of_single hsingle).trans hv⟩
  · exact .inr ⟨rfl, .inl ⟨_, rfl⟩⟩
  · exact .inr ⟨rfl, .inl ⟨_, rfl⟩⟩
  · exact .inr ⟨by rw [hc]; rfl, .inr (.inl (by rw [State.decodeEdge, hc]))⟩
  · exact .inr ⟨by rw [hc]; rfl, .inr (.inr (.inl ⟨_, _, by rw [State.decodeEdge, hc]⟩))⟩
  · exact .inr ⟨by rw [hc]; rfl, .inr (.inr (.inr ⟨_, _, _, by rw [State.decodeEdge, hc]⟩))⟩

/-! ### A clock cycle with memory responders, phase by phase -/

/-- With an instruction in its decode cycle the program port is open for a single-cycle class only
(R340). -/
theorem State.fetchOpen_of_dec {i : Instr} (hp : s.phase = .dec) (hx : s.xs = .none)
    (hd : decode s.ir = .instr i) : s.fetchOpen = i.cls.single := by
  obtain ⟨hh, ha⟩ := State.phase_eq_dec_iff.1 hp
  simp [State.fetchOpen, single, hh, ha, hx, hd]

theorem State.fetchOpen_of_fr (hp : s.phase = .fr) : s.fetchOpen = true := by
  obtain ⟨hh, ha, hx⟩ := State.phase_eq_fr_iff.1 hp
  simp [State.fetchOpen, hh, ha, hx]

/-- A cycle that answers a next state is not one in which a misaligned fetch is refused. -/
theorem aligned_of_memEdge_next {ack : Bool} {t : State} (h : memEdge ack s = .next t)
    (ho : s.fetchOpen = true) : s.pcMisaligned = false := by
  cases hm : s.pcMisaligned with
  | false => rfl
  | true => simp [memEdge, coreEdge, ho, hm, andThen] at h

theorem memEdge_of_halt (ack : Bool) (hp : s.phase = .halt) : memEdge ack s = .next s := by
  have hh := State.phase_eq_halt_iff.1 hp
  simp [memEdge, coreEdge, andThen, State.fetchOpen, State.dataWrite, State.dataOpen, hp, hh]

/-- The decode cycle of an instruction, with the fetch of the next one when it is answered (R348 to
R352, R354). -/
theorem memEdge_of_dec_instr (ack : Bool) {i : Instr} (hp : s.phase = .dec) (hx : s.xs = .none)
    (hd : decode s.ir = .instr i) (haligned : i.cls.single = true → s.pcMisaligned = false) :
    memEdge ack s = andThen (s.decodeEdge i) fun t =>
      .next (if i.cls.single && ack then t.latchFetch s.fetchWord else t) := by
  have ho := State.fetchOpen_of_dec hp hx hd
  have hrefuse : (i.cls.single && s.pcMisaligned) = false := by
    cases hc : i.cls.single <;> simp [hc] at haligned ⊢
    exact haligned
  simp only [memEdge, coreEdge, ho, hrefuse, hp, hd, State.dataWrite, State.dataOpen, hx]
  cases s.decodeEdge i <;> simp [andThen]

/-- The decode cycle of a fatal word (R353). -/
theorem memEdge_of_dec_fatal (ack : Bool) {r : HaltReason} (hp : s.phase = .dec) (hx : s.xs = .none)
    (hd : decode s.ir = .fatal r) : memEdge ack s = .next s.raiseHalt := by
  obtain ⟨hh, ha⟩ := State.phase_eq_dec_iff.1 hp
  simp [memEdge, coreEdge, andThen, State.fetchOpen, single, State.dataWrite, State.dataOpen, hp, hh, ha,
    hx, hd]

/-- A JALR word with an unspecified `funct` is refused in its decode cycle (R155). -/
theorem memEdge_of_dec_unspecJalr (ack : Bool) (hp : s.phase = .dec) (hd : decode s.ir = .unspecJalr) :
    memEdge ack s = .refused .unspecJalrFunct := by
  obtain ⟨hh, ha⟩ := State.phase_eq_dec_iff.1 hp
  simp [memEdge, coreEdge, andThen, State.fetchOpen, single, hp, hh, ha, hd]

/-- The execute cycle of a branch (R350). -/
theorem memEdge_of_xb (ack : Bool) (hp : s.phase = .xb) :
    memEdge ack s = .next (s.resolveBranch s.branchTaken (offBOf s.ir)) := by
  obtain ⟨-, -, hx⟩ := State.phase_eq_xb_iff.1 hp
  simp [memEdge, coreEdge, andThen, State.fetchOpen, State.dataWrite, State.dataOpen, hp, hx]

/-- A cycle of a load in its execute state (R351). -/
theorem memEdge_of_xl (ack : Bool) (hp : s.phase = .xl) :
    memEdge ack s = .next (if ack then s.loadBeat (rdOf s.ir) (s.readByte s.ea) else s) := by
  obtain ⟨hh, -, hx⟩ := State.phase_eq_xl_iff.1 hp
  simp [memEdge, coreEdge, andThen, State.fetchOpen, State.dataWrite, State.dataOpen, hp, hh, hx]

/-- A cycle of a store in its execute state (R352). -/
theorem memEdge_of_xs (ack : Bool) (hp : s.phase = .xs) :
    memEdge ack s = .next (if ack then s.storeBeat.writeByte s.ea s.storeByte else s) := by
  obtain ⟨hh, -, hx⟩ := State.phase_eq_xs_iff.1 hp
  cases ack <;>
    simp [memEdge, coreEdge, andThen, State.fetchOpen, State.dataWrite, State.dataOpen, hp, hh, hx]

/-- A cycle in fetch-ready at an aligned `pc` (R354). -/
theorem memEdge_of_fr (ack : Bool) (hp : s.phase = .fr) (haligned : s.pcMisaligned = false) :
    memEdge ack s = .next (if ack then s.latchFetch s.fetchWord else s) := by
  obtain ⟨-, -, hx⟩ := State.phase_eq_fr_iff.1 hp
  simp [memEdge, coreEdge, andThen, State.fetchOpen_of_fr hp, State.dataWrite, State.dataOpen, hp, hx,
    haligned]

/-! ### The instruction in hand -/

/-- With no instruction in hand nothing is claimed of `ir`. -/
theorem InHandAtIa.of_atRest (h : AtRest s) : InHandAtIa s := by
  obtain ⟨ha, hx⟩ := h
  intro _ hin
  simp [ha, hx] at hin

theorem InHandAtIa.of_halted (h : s.halted = true) : InHandAtIa s := by
  intro hh
  simp [h] at hh

/-- While the instruction in hand stays in hand, `ir`, `pc` and the instruction space are all that
matters. -/
theorem InHandAtIa.of_same {t : State} (h : InHandAtIa s) (hh : s.halted = false)
    (hin : s.active = true ∨ s.xs ≠ .none) (hir : t.ir = s.ir) (hpc : t.pc = s.pc)
    (himem : t.imem = s.imem) (hcfg : t.cfg = s.cfg) : InHandAtIa t := by
  intro _ _
  rw [hir, himem, hcfg, State.ia, hpc]
  exact h hh hin

/-- A word latched from where `pc` points is the one at `pc` - 4 when `pc` has advanced (R26, R27). -/
theorem InHandAtIa.of_latchFetch {t : State} (hpc : t.pc = s.pc) (himem : t.imem = s.imem)
    (hcfg : t.cfg = s.cfg) : InHandAtIa (t.latchFetch s.fetchWord) := by
  intro _ _
  simp [State.ia, State.fetchWord, hpc, himem, hcfg]

/-- The decode cycle of an instruction: the next one is latched at `pc`, the machine comes to rest, or
the instruction enters its execute state and stays where it is. -/
theorem inHandAtIa_decode {ack : Bool} {t : State} {i : Instr} (hx : s.xs = .none) (hin : InHandAtIa s)
    (hp : s.phase = .dec) (hd : decode s.ir = .instr i) (h : memEdge ack s = .next t) :
    InHandAtIa t := by
  obtain ⟨hh, ha⟩ := State.phase_eq_dec_iff.1 hp
  have ho := State.fetchOpen_of_dec hp hx hd
  rw [memEdge_of_dec_instr ack hp hx hd fun hc => aligned_of_memEdge_next h (ho.trans hc)] at h
  rcases State.decodeEdge_cases hd with
    ⟨hc, v, he⟩ | ⟨hc, ⟨target, he⟩ | he | ⟨a, n, he⟩ | ⟨a, v, n, he⟩⟩ <;>
    rw [he, hc] at h <;> cases h
  case inl =>
    cases ack
    · exact .of_atRest ⟨rfl, hx⟩
    · exact .of_latchFetch rfl rfl rfl
  case inr.inl => exact .of_atRest ⟨rfl, hx⟩
  all_goals exact hin.of_same hh (.inl ha) rfl rfl rfl rfl

/-- Settles O40, phase by phase: a fetch latches the word at `pc` and advances `pc` by 4, and until the
instruction leaves the hand no cycle touches `ir`, `pc` or the instruction space. -/
theorem instructionInHandIsTheOneAtPcMinusFour :
    Obligations.InstructionInHandIsTheOneAtPcMinusFour := by
  rintro ack s t ⟨hactive, -⟩ hin h
  cases hp : s.phase with
  | halt =>
    cases (memEdge_of_halt ack hp).symm.trans h
    exact hin
  | dec =>
    have hx := hactive (State.phase_eq_dec_iff.1 hp).2
    cases hd : decode s.ir with
    | instr i => exact inHandAtIa_decode hx hin hp hd h
    | fatal r =>
      cases (memEdge_of_dec_fatal ack hp hx hd).symm.trans h
      exact .of_halted rfl
    | unspecJalr => cases (memEdge_of_dec_unspecJalr ack hp hd).symm.trans h
  | xb =>
    obtain ⟨-, ha, -⟩ := State.phase_eq_xb_iff.1 hp
    cases (memEdge_of_xb ack hp).symm.trans h
    exact .of_atRest ⟨ha, rfl⟩
  | xl =>
    obtain ⟨hh, -, hx⟩ := State.phase_eq_xl_iff.1 hp
    cases (memEdge_of_xl ack hp).symm.trans h
    cases ack
    · exact hin
    · exact hin.of_same hh (.inr (by simp [hx])) rfl rfl rfl rfl
  | xs =>
    obtain ⟨hh, -, hx⟩ := State.phase_eq_xs_iff.1 hp
    cases (memEdge_of_xs ack hp).symm.trans h
    cases ack
    · exact hin
    · exact hin.of_same hh (.inr (by simp [hx])) rfl rfl rfl rfl
  | fr =>
    have haligned := aligned_of_memEdge_next h (State.fetchOpen_of_fr hp)
    cases (memEdge_of_fr ack hp haligned).symm.trans h
    cases ack
    · exact hin
    · exact .of_latchFetch rfl rfl rfl

end Sys2Proof.Machine
end

section
/-! The data accesses of spec/20_memory.md: the beats of a load or a store after its decode cycle are the
accesses of `MemRead` (R55) and `MemWrite` (R56); and what each class of instruction answers, from which
every instruction completes. -/

namespace Sys2Proof.Machine

/-! ### The bytes of a store (R56, R352) -/

/-- The shift register of an `n`-byte store brings the bytes of the truncated copy into its top byte one
after the other, the most significant first. -/
theorem shiftedTopByte_eq_storeByteOf {n k : Nat} (hn : n ≤ 4) (hk : k < n) (v : Word) :
    (v <<< (32 - 8 * n) <<< (8 * k)).extractLsb' 24 8 = storeByteOf n v k := by
  refine BitVec.eq_of_getLsbD_eq fun i hi => ?_
  have hbit : 24 + i - 8 * k - (32 - 8 * n) = 8 * (n - 1 - k) + i := by omega
  have hbyte : ¬ 24 + i < 8 * k := by omega
  have hcopy : ¬ 24 + i - 8 * k < 32 - 8 * n := by omega
  have htop : 24 + i < 32 := by omega
  have hmid : 24 + i - 8 * k < 32 := by omega
  simp only [storeByteOf, BitVec.getLsbD_extractLsb', BitVec.getLsbD_shiftLeft, hi, hbit, hbyte, hcopy,
    htop, hmid, decide_true, decide_false, Bool.not_false, Bool.true_and]

/-- Byte `k` of the truncated copy as a number: the copy is `v` modulo 2^(8n). -/
theorem storeByteOf_eq_ofNat {n k : Nat} (hk : k < n) (v : Word) :
    storeByteOf n v k = BitVec.ofNat 8 (v.toNat % 2 ^ (8 * n) / 2 ^ (8 * (n - 1 - k))) := by
  refine BitVec.eq_of_getLsbD_eq fun i hi => ?_
  have hcopy : 8 * (n - 1 - k) + i < 8 * n := by omega
  simp only [storeByteOf, BitVec.getLsbD_extractLsb', BitVec.getLsbD_ofNat, hi, Nat.testBit_div_two_pow,
    Nat.testBit_mod_two_pow, Nat.add_comm i, hcopy, BitVec.testBit_toNat, decide_true, Bool.true_and]

/-! ### The beats of an access, counted from its first -/

/-- Beat number `k` of the access in its execute state. -/
def State.beatAt (s : State) (k : Nat) : Beat :=
  ⟨s.ea + BitVec.ofNat 32 k, s.dataWrite,
    if s.dataWrite then (s.sh <<< (8 * k)).extractLsb' 24 8 else 0#8⟩

theorem remainingBeats_eq_map (s : State) (n : Nat) :
    remainingBeats s n = (List.range n).map s.beatAt := by
  induction n with
  | zero => rfl
  | succ k ih => simp [remainingBeats, State.beatAt, List.range_succ, ih]

/-- After the decode cycle of a store the data port writes (R345). -/
theorem State.startStore_dataWrite {s : State} (h : s.halted = false) (a v : Word) (n : Nat) :
    (s.startStore a v n).dataWrite = true := by
  simp [State.dataWrite, State.dataOpen, h]

/-- After the decode cycle of a load the data port does not write (R345). -/
theorem State.startLoad_dataWrite (s : State) (rd : RegIdx) (a : Word) (n : Nat) :
    (s.startLoad rd a n).dataWrite = false := by
  simp [State.dataWrite]

theorem State.startStore_beatAt {s : State} {n k : Nat} (h : s.halted = false) (hn : n ≤ 4) (hk : k < n)
    (a v : Word) :
    (s.startStore a v n).beatAt k = ⟨a + BitVec.ofNat 32 k, true, storeByteOf n v k⟩ := by
  simp [State.beatAt, State.startStore_dataWrite h, shiftedTopByte_eq_storeByteOf hn hk]

theorem State.startLoad_beatAt (s : State) (rd : RegIdx) (a : Word) (n k : Nat) :
    (s.startLoad rd a n).beatAt k = ⟨a + BitVec.ofNat 32 k, false, 0#8⟩ := by
  simp [State.beatAt, State.startLoad_dataWrite]

/-- Settles O48, beat by beat: the address register starts at `a`, and a store's datum is the byte of the
truncated copy that the shift register has brought to its top. -/
theorem beatsAreThoseOfMemReadAndMemWrite : Obligations.BeatsAreThoseOfMemReadAndMemWrite := by
  intro s rd a v n hhalted hwidth
  have hn : n ≤ 4 := by omega
  constructor
  · rw [remainingBeats_eq_map]
    refine List.map_congr_left fun k hmem => ?_
    have hk : k < n := List.mem_range.1 hmem
    rw [State.startStore_beatAt hhalted hn hk, storeByteOf_eq_ofNat hk]
  · rw [remainingBeats_eq_map]
    exact List.map_congr_left fun k _ => State.startLoad_beatAt s rd a n k

/-! ### What an instruction answers -/

/-- The meaning of an instruction, by its class: a result, a jump, a branch, or a whole load or store,
with the register `destOf` names as the destination. -/
theorem exec_cases (i : Instr) (s : State) :
    (i.cls.single = true ∧ ∃ rd v, destOf i = some rd ∧ exec i s = .next (s.writeResult rd v)) ∨
    ((i.cls = .jal ∨ i.cls = .jalr) ∧
      ∃ rd target, destOf i = some rd ∧ exec i s = .next (s.jumpTo rd target)) ∨
    (i.cls = .branch ∧ ∃ c rs1 rs2 off, exec i s = .next (s.runBranch c rs1 rs2 off)) ∨
    (i.cls = .load ∧ ∃ rd rs imm w, destOf i = some rd ∧
      exec i s = .next (s.runLoad rd (s.effAddr rs imm) (beatCount w))) ∨
    (i.cls = .store ∧ ∃ rs1 rs2 imm w,
      exec i s = .next (s.runStore (s.effAddr rs1 imm) (s.getReg rs2) (beatCount w))) := by
  cases i with
  | jal rd off => exact .inr (.inl ⟨.inl rfl, rd, _, rfl, rfl⟩)
  | jalr rd rs imm => exact .inr (.inl ⟨.inr rfl, rd, _, rfl, rfl⟩)
  | beq rs1 rs2 off | bne rs1 rs2 off | blt rs1 rs2 off | bge rs1 rs2 off | bltu rs1 rs2 off
  | bgeu rs1 rs2 off => exact .inr (.inr (.inl ⟨rfl, _, rs1, rs2, off, rfl⟩))
  | lb rd rs imm => exact .inr (.inr (.inr (.inl ⟨rfl, rd, rs, imm, .byte, rfl, rfl⟩)))
  | lh rd rs imm => exact .inr (.inr (.inr (.inl ⟨rfl, rd, rs, imm, .half, rfl, rfl⟩)))
  | lw rd rs imm => exact .inr (.inr (.inr (.inl ⟨rfl, rd, rs, imm, .word, rfl, rfl⟩)))
  | sb rs1 rs2 imm => exact .inr (.inr (.inr (.inr ⟨rfl, rs1, rs2, imm, .byte, rfl⟩)))
  | sh rs1 rs2 imm => exact .inr (.inr (.inr (.inr ⟨rfl, rs1, rs2, imm, .half, rfl⟩)))
  | sw rs1 rs2 imm => exact .inr (.inr (.inr (.inr ⟨rfl, rs1, rs2, imm, .word, rfl⟩)))
  | _ => exact .inl ⟨rfl, _, _, rfl, rfl⟩

/-- Settles O14: each of the five kinds of meaning answers a next state. -/
theorem everyInstructionCompletes : Obligations.EveryInstructionCompletes := by
  intro i s
  rcases exec_cases i s with
    ⟨-, rd, v, -, h⟩ | ⟨-, rd, target, -, h⟩ | ⟨-, c, rs1, rs2, off, h⟩ | ⟨-, rd, rs, imm, w, -, h⟩ |
      ⟨-, rs1, rs2, imm, w, h⟩ <;>
    exact ⟨_, h⟩

end Sys2Proof.Machine
end

section
/-! The hold rule beyond the core (spec/21_bus_protocol.md R83, R84): the reference responder against a
master that keeps it (R86, R96), and the switch between two masters that keep it
(spec/22_bus_switch.md R126). -/

namespace Sys2Proof.Machine

/-! ### The reference responder -/

/-- The trace of a link with the reference responder at its end (R96). -/
def refTrace (len : Option Nat) (reqs : Nat → Request) (data : Nat → Nat) : Trace :=
  ⟨len, fun t => ⟨reqs t, ⟨refAckAt reqs t, data t⟩⟩⟩

/-- The reference responder answers exactly the unanswered request cycle before. -/
theorem refAckAt_succ_iff (reqs : Nat → Request) (t : Nat) :
    refAckAt reqs (t + 1) = true ↔ (reqs t).isRequest = true ∧ refAckAt reqs t = false := by
  simp [refAckAt, refAck, Request.isRequest]

variable {len : Option Nat} {reqs : Nat → Request} {data : Nat → Nat}

/-- A held request is transferred in the cycle after an unanswered request cycle. -/
theorem refTrace_transfer_succ (hm : MasterOK (refTrace len reqs data)) {t : Nat} (hin : inTrace len (t + 1))
    (hreq : (reqs t).isRequest = true) (hack : refAckAt reqs t = false) :
    ((refTrace len reqs data).link (t + 1)).isTransfer = true := by
  have hheld : reqs (t + 1) = reqs t := hm t hin hreq hack
  have hanswer : refAckAt reqs (t + 1) = true := (refAckAt_succ_iff reqs t).2 ⟨hreq, hack⟩
  simp [refTrace, LinkCycle.isTransfer, hheld, hreq, hanswer]

/-- The reference responder keeps the responder's obligation (R86): the request it answers is held. -/
theorem refTrace_responderOK (hm : MasterOK (refTrace len reqs data)) :
    ResponderOK (refTrace len reqs data) := by
  intro t hin hanswer
  cases t with
  | zero => cases hanswer
  | succ t =>
    obtain ⟨hreq, hack⟩ := (refAckAt_succ_iff reqs t).1 hanswer
    have htransfer := refTrace_transfer_succ hm hin hreq hack
    exact (Bool.and_eq_true_iff.1 htransfer).1

/-- On an infinite trace every request is answered in its own cycle or in the next (R97). -/
theorem refTrace_live (hm : MasterOK (refTrace none reqs data)) : Live (refTrace none reqs data) := by
  intro t _ hreq
  cases hack : refAckAt reqs t with
  | true => exact ⟨0, nofun, Bool.and_eq_true_iff.2 ⟨hreq, hack⟩⟩
  | false => exact ⟨1, nofun, refTrace_transfer_succ hm nofun hreq hack⟩

/-- Settles O56: every clause rests on the transfer in the second request cycle. -/
theorem referenceResponderComplies : Obligations.ReferenceResponderComplies := by
  intro len reqs data tr hm
  refine ⟨refTrace_responderOK hm, ?_, fun t hin hreq hack => refTrace_transfer_succ hm hin hreq hack⟩
  rintro rfl
  exact refTrace_live hm

/-! ### The switch -/

theorem selectedMaster_eq (sel : MasterId) (m : MasterId → Request) :
    selectedMaster sel (m .m0) (m .m1) = m sel := by
  cases sel <;> rfl

/-- A request on an output is the selected master's, tagged with that output, which exists (R112, R115,
R116). -/
theorem switchOutput_isRequest {ports : List PortParams} {sel : MasterId} {m0 m1 : Request} {j : Nat}
    (h : (switchOutput ports sel m0 m1 j).isRequest = true) :
    j < ports.length ∧ (selectedMaster sel m0 m1).destination = j ∧
      (selectedMaster sel m0 m1).isRequest = true := by
  unfold switchOutput at h
  split at h
  case h_2 => simp [Request.isRequest, Request.idle] at h
  case h_1 p hport =>
    split at h
    case isFalse => simp [Request.isRequest, Request.idle] at h
    case isTrue hdest => exact ⟨(List.getElem?_eq_some_iff.1 hport).1, hdest, h⟩

/-- What the switch drives depends on the selected master's request alone. -/
theorem switchOutput_congr (ports : List PortParams) {sel sel' : MasterId} {m m' : MasterId → Request}
    (h : m' sel' = m sel) (j : Nat) :
    switchOutput ports sel' (m' .m0) (m' .m1) j = switchOutput ports sel (m .m0) (m .m1) j := by
  simp only [switchOutput, selectedMaster_eq, h]

/-- The selected master sees the `ack` of the output it addresses (R113). -/
theorem switchReturn_ack {n j : Nat} {sel : MasterId} {m : MasterId → Request} (dataW : Nat)
    (resp : Nat → Response) (hdest : (m sel).destination = j) (hj : j < n) :
    (switchReturn n sel sel (m .m0) (m .m1) dataW resp).ack = (resp j).ack := by
  simp [switchReturn, selectedMaster_eq, hdest, hj]

/-- A master that requests stays selected (R117, R118). -/
theorem nextSelect_of_isRequest {sel : MasterId} {m : MasterId → Request}
    (h : (m sel).isRequest = true) : nextSelect sel (m .m0) (m .m1) = sel := by
  have hcycle : (m sel).cycle = true := (Bool.and_eq_true_iff.1 h).1
  simp [nextSelect, selectedMaster_eq, hcycle]

/-- Settles O55: an unanswered request on an output comes from a master that stays selected, sees no
answer and so repeats its request. -/
theorem switchOutputsKeepTheHoldRule : Obligations.SwitchOutputsKeepTheHoldRule := by
  intro ports dataW m sel resp len hsel hmaster j t hin hreq hack
  obtain ⟨hj, hdest, hmreq⟩ := switchOutput_isRequest hreq
  rw [selectedMaster_eq] at hdest hmreq
  have hkept : sel (t + 1) = sel t := (hsel t hin).trans (nextSelect_of_isRequest hmreq)
  have hheld : m (t + 1) (sel t) = m t (sel t) :=
    hmaster (sel t) t hin hmreq ((switchReturn_ack _ _ hdest hj).trans hack)
  exact switchOutput_congr ports (by rw [hkept, hheld]) j

end Sys2Proof.Machine
end

section
/-! The two ports of the core (spec/50_core_fsm.md R340 to R357): one equation of the clock edge for each
phase, and from them what the core takes from its inputs (R343), that waiting changes nothing (R357), and
the hold rule on both ports (R360). -/

namespace Sys2Proof.Machine

variable {s t : State} {inp : CoreInputs}

/-! ### When a port requests -/

@[simp] theorem controller_isRequest (want : Bool) (a : Nat) (we : Bool) (wd dest : Nat) :
    (controller want a we wd dest).isRequest = want := by
  cases want <;> rfl

@[simp] theorem State.progRequest_isRequest (s : State) : s.progRequest.isRequest = s.fetchOpen :=
  controller_isRequest ..

@[simp] theorem State.dataRequest_isRequest (s : State) : s.dataRequest.isRequest = s.dataOpen :=
  controller_isRequest ..

/-- The program port's wires are made of `pc` and the configuration (R342). -/
theorem State.progRequest_congr (hopen : t.fetchOpen = s.fetchOpen) (hpc : t.pc = s.pc)
    (hcfg : t.cfg = s.cfg) : t.progRequest = s.progRequest := by
  simp only [State.progRequest, State.tagWire, hopen, hpc, hcfg]

/-- The program port is open in fetch-ready and in the decode cycle of a single-cycle instruction
(R340). -/
theorem State.fetchOpen_cases (h : s.fetchOpen = true) :
    s.phase = .fr ∨
      (s.phase = .dec ∧ s.xs = .none ∧ ∃ i, decode s.ir = .instr i ∧ i.cls.single = true) := by
  simp only [State.fetchOpen, Bool.and_eq_true, Bool.not_eq_true', decide_eq_true_eq] at h
  obtain ⟨⟨hh, hx⟩, hsingle⟩ := h
  cases ha : s.active with
  | false => exact .inl (State.phase_eq_fr_iff.2 ⟨hh, ha, hx⟩)
  | true =>
    refine .inr ⟨State.phase_eq_dec_iff.2 ⟨hh, ha⟩, hx, ?_⟩
    cases hd : decode s.ir <;> simp [ha, single, hd] at hsingle
    exact ⟨_, rfl, hsingle⟩

/-- The data port is open in the execute state of a load or store (R345). -/
theorem State.dataOpen_cases (hactive : s.active = true → s.xs = .none) (h : s.dataOpen = true) :
    s.phase = .xl ∨ s.phase = .xs := by
  simp only [State.dataOpen, Bool.and_eq_true, Bool.not_eq_true', Bool.or_eq_true,
    decide_eq_true_eq] at h
  obtain ⟨hh, hx⟩ := h
  have ha : s.active = false := by
    cases ha : s.active with
    | false => rfl
    | true => simp [hactive ha] at hx
  exact hx.imp (fun hx => State.phase_eq_xl_iff.2 ⟨hh, ha, hx⟩)
    fun hx => State.phase_eq_xs_iff.2 ⟨hh, ha, hx⟩

theorem State.dataOpen_of_phase (h : s.phase = .xl ∨ s.phase = .xs) : s.dataOpen = true := by
  rcases h with hp | hp
  · obtain ⟨hh, -, hx⟩ := State.phase_eq_xl_iff.1 hp
    simp [State.dataOpen, hh, hx]
  · obtain ⟨hh, -, hx⟩ := State.phase_eq_xs_iff.1 hp
    simp [State.dataOpen, hh, hx]

/-! ### The clock edge, phase by phase -/

theorem coreEdge_of_reset (hr : inp.rst = true) : coreEdge inp s = .next s.afterReset := by
  simp [coreEdge, hr]

/-- A misaligned fetch is refused (R60). -/
theorem coreEdge_of_misaligned (hr : inp.rst = false) (ho : s.fetchOpen = true)
    (hm : s.pcMisaligned = true) : coreEdge inp s = .refused .misalignedFetch := by
  simp [coreEdge, hr, ho, hm]

/-- An edge that answers a next state refuses no fetch. -/
theorem aligned_of_coreEdge_next (hr : inp.rst = false) (h : coreEdge inp s = .next t)
    (ho : s.fetchOpen = true) : s.pcMisaligned = false := by
  cases hm : s.pcMisaligned with
  | false => rfl
  | true => cases (coreEdge_of_misaligned hr ho hm).symm.trans h

theorem coreEdge_of_halt (hr : inp.rst = false) (hp : s.phase = .halt) : coreEdge inp s = .next s := by
  have hh := State.phase_eq_halt_iff.1 hp
  simp [coreEdge, hr, hp, State.fetchOpen, hh]

/-- The decode cycle of an instruction, with the fetch of the next one when it is answered (R348 to
R352, R354). -/
theorem coreEdge_of_dec_instr (hr : inp.rst = false) (hp : s.phase = .dec) {i : Instr}
    (hd : decode s.ir = .instr i) (haligned : s.fetchOpen = true → s.pcMisaligned = false) :
    coreEdge inp s = andThen (s.decodeEdge i) fun t =>
      .next (if s.fetchOpen && inp.pAck then t.latchFetch inp.pReadData else t) := by
  have hpass : (s.fetchOpen && s.pcMisaligned) = false := by
    cases ho : s.fetchOpen <;> simp [ho] at haligned ⊢
    exact haligned
  simp [coreEdge, hr, hp, hd, hpass]

/-- The decode cycle of a fatal word (R353). -/
theorem coreEdge_of_dec_fatal (hr : inp.rst = false) (hp : s.phase = .dec) {r : HaltReason}
    (hd : decode s.ir = .fatal r) : coreEdge inp s = .next s.raiseHalt := by
  obtain ⟨-, ha⟩ := State.phase_eq_dec_iff.1 hp
  simp [coreEdge, hr, hp, hd, State.fetchOpen, single, ha]

/-- A JALR word with an unspecified `funct` is refused in its decode cycle (R155). -/
theorem coreEdge_of_dec_unspecJalr (hr : inp.rst = false) (hp : s.phase = .dec)
    (hd : decode s.ir = .unspecJalr) : coreEdge inp s = .refused .unspecJalrFunct := by
  obtain ⟨-, ha⟩ := State.phase_eq_dec_iff.1 hp
  simp [coreEdge, hr, hp, hd, State.fetchOpen, single, ha]

/-- The execute cycle of a branch (R350). -/
theorem coreEdge_of_xb (hr : inp.rst = false) (hp : s.phase = .xb) :
    coreEdge inp s = .next (s.resolveBranch s.branchTaken (offBOf s.ir)) := by
  obtain ⟨-, -, hx⟩ := State.phase_eq_xb_iff.1 hp
  simp [coreEdge, hr, hp, State.fetchOpen, hx]

/-- A cycle of a load in its execute state (R351). -/
theorem coreEdge_of_xl (hr : inp.rst = false) (hp : s.phase = .xl) :
    coreEdge inp s = .next (if inp.dAck then s.loadBeat (rdOf s.ir) inp.dReadData else s) := by
  obtain ⟨-, -, hx⟩ := State.phase_eq_xl_iff.1 hp
  simp [coreEdge, hr, hp, State.fetchOpen, hx]

/-- A cycle of a store in its execute state (R352). -/
theorem coreEdge_of_xs (hr : inp.rst = false) (hp : s.phase = .xs) :
    coreEdge inp s = .next (if inp.dAck then s.storeBeat else s) := by
  obtain ⟨-, -, hx⟩ := State.phase_eq_xs_iff.1 hp
  simp [coreEdge, hr, hp, State.fetchOpen, hx]

/-- A cycle in fetch-ready at an aligned `pc` (R354). -/
theorem coreEdge_of_fr (hr : inp.rst = false) (hp : s.phase = .fr) (haligned : s.pcMisaligned = false) :
    coreEdge inp s = .next (if inp.pAck then s.latchFetch inp.pReadData else s) := by
  simp [coreEdge, hr, hp, haligned]

/-! ### What the core takes from its inputs (R343) -/

/-- An answered fetch latches the word, and nothing else of the answer matters. -/
theorem State.latchFetch_congr {a b : CoreInputs} (hack : a.pAck = b.pAck)
    (hdata : a.pAck = true → a.pReadData = b.pReadData) (t : State) :
    (if a.pAck then t.latchFetch a.pReadData else t) = if b.pAck then t.latchFetch b.pReadData else t := by
  rw [← hack]
  split
  · next h => rw [hdata h]
  · rfl

/-- Settles O45, phase by phase: only an open port's answer stands in the edge's equation, and the read
data of a store does not. -/
theorem answersOutsideATransferAreIgnored : Obligations.AnswersOutsideATransferAreIgnored := by
  intro a b s _ hrst hprog hdack hdata
  cases hra : a.rst with
  | true => rw [coreEdge_of_reset hra, coreEdge_of_reset (hrst ▸ hra)]
  | false =>
    have hrb : b.rst = false := hrst ▸ hra
    by_cases hrefuse : s.fetchOpen = true ∧ s.pcMisaligned = true
    · obtain ⟨ho, hm⟩ := hrefuse
      rw [coreEdge_of_misaligned hra ho hm, coreEdge_of_misaligned hrb ho hm]
    have haligned : s.fetchOpen = true → s.pcMisaligned = false := by simpa using hrefuse
    cases hp : s.phase with
    | halt => rw [coreEdge_of_halt hra hp, coreEdge_of_halt hrb hp]
    | dec =>
      cases hd : decode s.ir with
      | instr i =>
        rw [coreEdge_of_dec_instr hra hp hd haligned, coreEdge_of_dec_instr hrb hp hd haligned]
        cases ho : s.fetchOpen with
        | false => rfl
        | true => simp only [Bool.true_and, State.latchFetch_congr (hprog ho).1 (hprog ho).2]
      | fatal r => rw [coreEdge_of_dec_fatal hra hp hd, coreEdge_of_dec_fatal hrb hp hd]
      | unspecJalr => rw [coreEdge_of_dec_unspecJalr hra hp hd, coreEdge_of_dec_unspecJalr hrb hp hd]
    | xb => rw [coreEdge_of_xb hra hp, coreEdge_of_xb hrb hp]
    | xl =>
      have ho := State.dataOpen_of_phase (.inl hp)
      have hread : s.dataWrite = false := by
        simp [State.dataWrite, (State.phase_eq_xl_iff.1 hp).2.2]
      rw [coreEdge_of_xl hra hp, coreEdge_of_xl hrb hp, ← hdack ho]
      split
      · next hack => rw [hdata ho hread hack]
      · rfl
    | xs => rw [coreEdge_of_xs hra hp, coreEdge_of_xs hrb hp, hdack (State.dataOpen_of_phase (.inr hp))]
    | fr =>
      have ho := State.fetchOpen_of_fr hp
      rw [coreEdge_of_fr hra hp (haligned ho), coreEdge_of_fr hrb hp (haligned ho),
        State.latchFetch_congr (hprog ho).1 (hprog ho).2]

/-! ### Waiting (R357) -/

/-- A load or store without an answer waits. -/
theorem coreEdge_data_waits (hr : inp.rst = false) (hp : s.phase = .xl ∨ s.phase = .xs)
    (hack : inp.dAck = false) : coreEdge inp s = .next s := by
  rcases hp with hp | hp
  · simp [coreEdge_of_xl hr hp, hack]
  · simp [coreEdge_of_xs hr hp, hack]

/-- Fetch-ready without an answer waits. -/
theorem coreEdge_fr_waits (hr : inp.rst = false) (hp : s.phase = .fr) (haligned : s.pcMisaligned = false)
    (hack : inp.pAck = false) : coreEdge inp s = .next s := by
  simp [coreEdge_of_fr hr hp haligned, hack]

/-- A single-cycle instruction whose successor's fetch is not answered completes all the same. -/
theorem coreEdge_single_completes (hr : inp.rst = false) (hp : s.phase = .dec) {i : Instr}
    (hd : decode s.ir = .instr i) (hsingle : i.cls.single = true) (haligned : s.pcMisaligned = false)
    (hack : inp.pAck = false) :
    ∃ v, exec i s = .next (s.writeResult (rdOf s.ir) v) ∧
      coreEdge inp s = .next (s.writeResult (rdOf s.ir) v) := by
  rcases State.decodeEdge_cases hd with ⟨-, v, hv⟩ | ⟨hnot, -⟩
  · refine ⟨v, (State.decodeEdge_of_single hsingle).symm.trans hv, ?_⟩
    simp [coreEdge_of_dec_instr hr hp hd fun _ => haligned, hv, hack, andThen]
  · simp [hsingle] at hnot

/-- After the result of a decode cycle the core is in fetch-ready. -/
theorem State.writeResult_phase (hh : s.halted = false) (hx : s.xs = .none) (rd : RegIdx) (v : Word) :
    (s.writeResult rd v).phase = .fr :=
  State.phase_eq_fr_iff.2 ⟨hh, rfl, hx⟩

/-- The fetch that is pending beside a result stays pending. -/
theorem State.writeResult_progRequest (h : s.fetchOpen = true) (rd : RegIdx) (v : Word) :
    (s.writeResult rd v).progRequest = s.progRequest := by
  refine State.progRequest_congr (Eq.trans ?_ h.symm) rfl rfl
  simp only [State.fetchOpen, Bool.and_eq_true, Bool.not_eq_true', decide_eq_true_eq] at h
  obtain ⟨⟨hh, hx⟩, -⟩ := h
  simp [State.fetchOpen, hh, hx]

theorem memEdge_false_waits
    (h : (s.phase = .fr ∧ s.pcMisaligned = false) ∨ s.phase = .xl ∨ s.phase = .xs) :
    memEdge false s = .next s := by
  rcases h with ⟨hp, haligned⟩ | hp | hp
  · exact memEdge_of_fr false hp haligned
  · exact memEdge_of_xl false hp
  · exact memEdge_of_xs false hp

/-- A state that one cycle without an answer keeps is kept by any number of them. -/
theorem memRun_replicate_false (h : memEdge false s = .next s) (n : Nat) :
    memRun (List.replicate n false) s = .next s := by
  induction n with
  | zero => rfl
  | succ n ih => simpa [List.replicate_succ, memRun, h, andThen] using ih

/-- Settles O46: the edge's equations without an answer, and the result of the decode cycle, after which
the program port is as open as before. -/
theorem waitingChangesNothing : Obligations.WaitingChangesNothing := by
  rintro s ⟨hactive, -⟩
  refine ⟨fun inp hr => ⟨fun hp ha hack => coreEdge_fr_waits hr hp ha hack,
    fun hp hack => coreEdge_data_waits hr (.inl hp) hack,
    fun hp hack => coreEdge_data_waits hr (.inr hp) hack, ?_⟩,
    fun h n => memRun_replicate_false (memEdge_false_waits h) n⟩
  intro i hp hd hsingle haligned hack
  obtain ⟨hh, ha⟩ := State.phase_eq_dec_iff.1 hp
  have ho : s.fetchOpen = true := (State.fetchOpen_of_dec hp (hactive ha) hd).trans hsingle
  obtain ⟨v, hexec, hedge⟩ := coreEdge_single_completes hr hp hd hsingle haligned hack
  exact ⟨_, hedge, hexec, State.writeResult_phase hh (hactive ha) _ v,
    State.writeResult_progRequest ho _ v, by rw [State.progRequest_isRequest, ho]⟩

/-! ### The hold rule on the two ports (R360) -/

/-- The part of R361 that keeps a decode cycle apart from the execute states is kept at every edge. -/
theorem coreEdge_keeps_active_atRest (hactive : s.active = true → s.xs = .none) (hr : inp.rst = false)
    (h : coreEdge inp s = .next t) : t.active = true → t.xs = .none := by
  cases hp : s.phase with
  | halt =>
    cases (coreEdge_of_halt hr hp).symm.trans h
    exact hactive
  | dec =>
    obtain ⟨-, ha⟩ := State.phase_eq_dec_iff.1 hp
    have hx := hactive ha
    cases hd : decode s.ir with
    | instr i =>
      have ho := State.fetchOpen_of_dec hp hx hd
      rw [coreEdge_of_dec_instr hr hp hd (aligned_of_coreEdge_next hr h)] at h
      rcases State.decodeEdge_cases hd with
        ⟨-, v, he⟩ | ⟨hc, ⟨target, he⟩ | he | ⟨a, n, he⟩ | ⟨a, v, n, he⟩⟩
      · rw [he] at h
        cases h
        split <;> exact fun _ => hx
      all_goals
        rw [he, ho, hc] at h
        cases h
        exact nofun
    | fatal r =>
      cases (coreEdge_of_dec_fatal hr hp hd).symm.trans h
      exact nofun
    | unspecJalr => cases (coreEdge_of_dec_unspecJalr hr hp hd).symm.trans h
  | xb =>
    cases (coreEdge_of_xb hr hp).symm.trans h
    exact fun _ => rfl
  | xl =>
    obtain ⟨-, ha, -⟩ := State.phase_eq_xl_iff.1 hp
    cases (coreEdge_of_xl hr hp).symm.trans h
    split <;> simp [ha]
  | xs =>
    obtain ⟨-, ha, -⟩ := State.phase_eq_xs_iff.1 hp
    cases (coreEdge_of_xs hr hp).symm.trans h
    split <;> simp [ha]
  | fr =>
    obtain ⟨-, -, hx⟩ := State.phase_eq_fr_iff.1 hp
    cases (coreEdge_of_fr hr hp (aligned_of_coreEdge_next hr h (State.fetchOpen_of_fr hp))).symm.trans h
    split <;> exact fun _ => hx

/-- An unanswered fetch request is repeated. -/
theorem coreEdge_holds_progRequest (hr : inp.rst = false) (h : coreEdge inp s = .next t)
    (ho : s.fetchOpen = true) (hack : inp.pAck = false) : t.progRequest = s.progRequest := by
  have haligned := aligned_of_coreEdge_next hr h ho
  rcases State.fetchOpen_cases ho with hp | ⟨hp, -, i, hd, hsingle⟩
  · cases (coreEdge_fr_waits hr hp haligned hack).symm.trans h
    rfl
  · obtain ⟨v, -, hedge⟩ := coreEdge_single_completes hr hp hd hsingle haligned hack
    cases hedge.symm.trans h
    exact State.writeResult_progRequest ho _ v

/-- An unanswered data request is repeated. -/
theorem coreEdge_holds_dataRequest (hactive : s.active = true → s.xs = .none) (hr : inp.rst = false)
    (h : coreEdge inp s = .next t) (ho : s.dataOpen = true) (hack : inp.dAck = false) :
    t.dataRequest = s.dataRequest := by
  cases (coreEdge_data_waits hr (State.dataOpen_cases hactive ho) hack).symm.trans h
  rfl

theorem inTrace_of_succ {len : Option Nat} {k : Nat} (h : inTrace len (k + 1)) : inTrace len k :=
  fun n hn => Nat.lt_of_succ_lt (h n hn)

/-- Along a run without reset no cycle has both a decode cycle and an execute state. -/
theorem coreRun_active_atRest {len : Option Nat} {inp : Nat → CoreInputs} {run : Nat → State}
    (hstart : (run 0).active = true → (run 0).xs = .none)
    (hrun : ∀ k, inTrace len (k + 1) →
      (inp k).rst = false ∧ coreEdge (inp k) (run k) = .next (run (k + 1)))
    (k : Nat) (hin : inTrace len k) : (run k).active = true → (run k).xs = .none := by
  induction k with
  | zero => exact hstart
  | succ k ih =>
    obtain ⟨hr, hedge⟩ := hrun k hin
    exact coreEdge_keeps_active_atRest (ih (inTrace_of_succ hin)) hr hedge

/-- Settles O43: at every edge of the run, each port repeats an unanswered request. -/
theorem corePortsKeepTheHoldRule : Obligations.CorePortsKeepTheHoldRule := by
  rintro len inp run ⟨hstart, -⟩ hrun
  constructor <;> intro k hin hreq hack <;> obtain ⟨hr, hedge⟩ := hrun k hin
  · exact coreEdge_holds_progRequest hr hedge (by simpa using hreq) hack
  · exact coreEdge_holds_dataRequest (coreRun_active_atRest hstart hrun k (inTrace_of_succ hin)) hr hedge
      (by simpa using hreq) hack

end Sys2Proof.Machine
end

section
/-! The beats of a load or store under any spacing of the answers (spec/20_memory.md R55, R56, R63): an
answered cycle makes the first remaining beat, and by induction on the schedule a run makes as many of
them as it has answers. -/

namespace Sys2Proof.Machine

variable {s t : State}

/-- `t` is `s` after one answered data beat, as far as the further beats depend on it (R351, R352). -/
structure BeatMade (s t : State) : Prop where
  halted : t.halted = s.halted
  active : t.active = s.active
  xs : t.xs = xsAfterBeat s.cnt s.xs
  ea : t.ea = s.ea + 1#32
  cnt : t.cnt = s.cnt - 1#3
  sh : s.xs = .store → t.sh = s.sh <<< 8
  pc : t.pc = s.pc

/-- An answered cycle of a load or store makes one beat. -/
theorem memEdge_true_beatMade (hp : s.phase = .xl ∨ s.phase = .xs) :
    ∃ t, memEdge true s = .next t ∧ BeatMade s t := by
  rcases hp with hp | hp
  · obtain ⟨-, -, hx⟩ := State.phase_eq_xl_iff.1 hp
    exact ⟨_, memEdge_of_xl true hp, rfl, rfl, rfl, rfl, rfl, by simp [hx], rfl⟩
  · exact ⟨_, memEdge_of_xs true hp, rfl, rfl, rfl, rfl, rfl, fun _ => rfl, rfl⟩

/-- The beat that an answered cycle transfers is the first of the remaining ones. -/
theorem dataTransfer_true (ho : s.dataOpen = true) : dataTransfer true s = some (s.beatAt 0) := by
  simp [dataTransfer, ho, State.beatAt, State.storeByte]

theorem dataTransfer_false (s : State) : dataTransfer false s = none := by
  simp [dataTransfer]

/-- An answered beat counts down by one. -/
theorem BeatMade.cnt_toNat (h : BeatMade s t) (hc : s.cnt ≠ 0#3) : t.cnt.toNat + 1 = s.cnt.toNat := by
  rw [h.cnt]
  bv_omega

/-- The execute state lasts while beats are left (R351, R352). -/
theorem BeatMade.xs_of_cnt_ne_one (h : BeatMade s t) (hc : s.cnt ≠ 1#3) : t.xs = s.xs := by
  rw [h.xs, xsAfterBeat, if_neg hc]

/-- The beats after an answered one are those that followed it before, until the access ends. -/
theorem BeatMade.beatAt (h : BeatMade s t) (hc : s.cnt ≠ 1#3) (k : Nat) :
    t.beatAt k = s.beatAt (k + 1) := by
  have hwrite : t.dataWrite = s.dataWrite := by
    simp only [State.dataWrite, State.dataOpen, h.halted, h.xs_of_cnt_ne_one hc]
  have hea : t.ea + BitVec.ofNat 32 k = s.ea + BitVec.ofNat 32 (k + 1) := by
    rw [h.ea, BitVec.add_assoc, Nat.add_comm k 1, BitVec.ofNat_add]
  cases hw : s.dataWrite with
  | false => simp [State.beatAt, hwrite, hw, hea]
  | true =>
    have hstore : s.xs = .store := by
      simp only [State.dataWrite, Bool.and_eq_true, decide_eq_true_eq] at hw
      exact hw.2
    have hsh : t.sh <<< (8 * k) = s.sh <<< (8 * (k + 1)) := by
      rw [h.sh hstore, ← BitVec.shiftLeft_add, Nat.mul_succ, Nat.add_comm]
    simp only [State.beatAt, hwrite, hw, hea, hsh]

/-- An answered beat takes the first of the remaining beats and leaves the others (R63). -/
theorem BeatMade.remainingBeats (h : BeatMade s t) (hc : s.cnt ≠ 0#3) :
    remainingBeats s s.cnt.toNat = s.beatAt 0 :: remainingBeats t t.cnt.toNat := by
  rw [remainingBeats_eq_map, remainingBeats_eq_map, ← h.cnt_toNat hc, List.range_succ_eq_map,
    List.map_cons, List.map_map]
  congr 1
  refine List.map_congr_left fun k hk => ?_
  have hk : k < t.cnt.toNat := List.mem_range.1 hk
  have hmore : s.cnt ≠ 1#3 := by
    have := h.cnt_toNat hc
    bv_omega
  exact (h.beatAt hmore k).symm

/-- A load or store in its execute state with beats left, or, when none is left, in fetch-ready (R351,
R352), at an aligned `pc`. -/
structure InBeats (s : State) : Prop where
  aligned : s.pcMisaligned = false
  pending : s.cnt ≠ 0#3 → s.phase = .xl ∨ s.phase = .xs
  ended : s.cnt = 0#3 → s.phase = .fr

/-- R361 puts an open data port at a beat. -/
theorem CoreInv.inBeats (h : CoreInv s) (ho : s.dataOpen = true) (haligned : s.pcMisaligned = false) :
    InBeats s := by
  obtain ⟨hactive, -, -, hload, hstore, -⟩ := h
  have hp := State.dataOpen_cases hactive ho
  have hpos : 1 ≤ s.cnt.toNat := by
    rcases hp with hp | hp
    · obtain ⟨-, hpos, -⟩ := hload (State.phase_eq_xl_iff.1 hp).2.2
      exact hpos
    · obtain ⟨-, hpos, -⟩ := hstore (State.phase_eq_xs_iff.1 hp).2.2
      exact hpos
  exact ⟨haligned, fun _ => hp, fun hc => absurd hpos (by simp [hc])⟩

/-- A cycle without an answer changes nothing, before and after the last beat. -/
theorem InBeats.memEdge_false (h : InBeats s) : memEdge false s = .next s := by
  by_cases hc : s.cnt = 0#3
  · exact memEdge_false_waits (.inl ⟨h.ended hc, h.aligned⟩)
  · exact memEdge_false_waits (.inr (h.pending hc))

/-- An answered beat leads to the next one, or to fetch-ready after the last. -/
theorem BeatMade.inBeats (hb : BeatMade s t) (h : InBeats s) (hc : s.cnt ≠ 0#3) : InBeats t := by
  have hp := h.pending hc
  rw [State.phase_eq_xl_iff, State.phase_eq_xs_iff] at hp
  have hlast : t.cnt = 0#3 ↔ s.cnt = 1#3 := by
    rw [hb.cnt]
    bv_omega
  constructor
  case aligned => rw [State.pcMisaligned, hb.pc, ← State.pcMisaligned, h.aligned]
  case pending =>
    intro hmore
    rwa [State.phase_eq_xl_iff, State.phase_eq_xs_iff, hb.halted, hb.active,
      hb.xs_of_cnt_ne_one (mt hlast.2 hmore)]
  case ended =>
    intro hend
    rw [State.phase_eq_fr_iff, hb.halted, hb.active, hb.xs, xsAfterBeat, if_pos (hlast.1 hend)]
    exact hp.elim (fun ⟨hh, ha, _⟩ => ⟨hh, ha, rfl⟩) fun ⟨hh, ha, _⟩ => ⟨hh, ha, rfl⟩

/-- A schedule with no more answers than beats makes the first remaining beats in order, one for each
answer, and leaves the rest. -/
theorem memRun_inBeats (acks : List Bool) (s : State) (h : InBeats s)
    (hcount : acks.count true ≤ s.cnt.toNat) :
    memTransfers acks s = (remainingBeats s s.cnt.toNat).take (acks.count true) ∧
      ∃ t, memRun acks s = .next t ∧ InBeats t ∧ t.cnt.toNat + acks.count true = s.cnt.toNat := by
  induction acks generalizing s with
  | nil => exact ⟨rfl, s, rfl, h, rfl⟩
  | cons a as ih =>
    cases a with
    | false =>
      have hsame : (false :: as).count true = as.count true := by simp
      rw [hsame] at hcount ⊢
      simpa [memTransfers, memRun, h.memEdge_false, andThen, dataTransfer_false] using ih s h hcount
    | true =>
      have hmore : (true :: as).count true = as.count true + 1 := by simp
      rw [hmore] at hcount ⊢
      have hc : s.cnt ≠ 0#3 := by
        rintro hc
        simp [hc] at hcount
      have hp := h.pending hc
      obtain ⟨u, hedge, hb⟩ := memEdge_true_beatMade hp
      have hcnt := hb.cnt_toNat hc
      obtain ⟨htransfers, t, hrun, hin, hleft⟩ := ih u (hb.inBeats h hc) (by omega)
      refine ⟨?_, t, ?_, hin, by omega⟩
      · simp [memTransfers, hedge, dataTransfer_true (State.dataOpen_of_phase hp), htransfers,
          hb.remainingBeats hc]
      · simpa [memRun, hedge, andThen] using hrun

/-- Settles O47: the beats left over say whether the request is still up or the core is in
fetch-ready. -/
theorem dataBeatsAreMadeExactlyOnce : Obligations.DataBeatsAreMadeExactlyOnce := by
  intro s acks hinv ho haligned hcount
  obtain ⟨htransfers, t, hrun, hin, hleft⟩ := memRun_inBeats acks s (hinv.inBeats ho haligned) hcount
  refine ⟨htransfers, t, hrun, fun hless => ?_, fun hall => hin.ended ?_⟩
  · rw [State.dataRequest_isRequest]
    exact State.dataOpen_of_phase (hin.pending (by bv_omega))
  · bv_omega

end Sys2Proof.Machine
end

section
/-! The switch alone (spec/22_bus_switch.md sections 2 and 3): what it drives on each output and returns to
each master (R112 to R116, R123), and how `select` moves, between any two masters (R117 to R120) and in the
closed machine (R125). -/

namespace Sys2Proof.Machine

@[simp] theorem MasterId.other_other (a : MasterId) : a.other.other = a := by
  cases a <;> rfl

@[simp] theorem MasterId.ne_other (a : MasterId) : a ≠ a.other := by
  cases a <;> decide

theorem MasterId.eq_or_eq_other (a b : MasterId) : a = b ∨ a = b.other := by
  cases a <;> cases b <;> decide

/-! ### Arbitration (R117) -/

theorem nextSelect_of_cycle {sel : MasterId} {m : MasterId → Request} (h : (m sel).cycle = true) :
    nextSelect sel (m .m0) (m .m1) = sel := by
  rw [nextSelect, selectedMaster_eq, if_pos h]

theorem nextSelect_of_idle {sel : MasterId} {m : MasterId → Request} (h : (m sel).cycle = false) :
    nextSelect sel (m .m0) (m .m1) = sel.other := by
  rw [nextSelect, selectedMaster_eq, h]
  rfl

theorem nextSelect_eq (sel : MasterId) (m : MasterId → Request) :
    nextSelect sel (m .m0) (m .m1) = if (m sel).cycle = false then sel.other else sel := by
  split
  case isTrue hidle => exact nextSelect_of_idle hidle
  case isFalse hbusy => exact nextSelect_of_cycle (eq_true_of_ne_false hbusy)

theorem andThen_eq_next {σ τ : Type} {o : Host.Outcome σ Fault Refusal}
    {f : σ → Host.Outcome τ Fault Refusal} {z : τ} (h : andThen o f = .next z) :
    ∃ t, o = .next t ∧ f t = .next z := by
  cases o with
  | next t => exact ⟨t, rfl, h⟩
  | fault => cases h
  | refused => cases h

/-- Whatever the core does in a cycle on the switch, `select` is written by the arbitration alone. -/
theorem System.cycle_switched_select {y z : System} (hw : y.core.cfg.wiring = .switched)
    (h : y.cycle false = .next z) :
    z.core.select = nextSelect y.core.select (y.core.masterInput .m0) (y.core.masterInput .m1) := by
  unfold System.cycle at h
  split at h
  case isTrue => cases h
  case isFalse =>
    rw [hw] at h
    obtain ⟨t, -, hz⟩ := andThen_eq_next h
    cases hz
    rfl

/-- Settles O52: in the closed machine the two masters are the core's ports, whose `cycle` the width of an
input link does not touch (R123). -/
theorem selectFlipsWhenTheSelectedMasterIsIdle : Obligations.SelectFlipsWhenTheSelectedMasterIsIdle := by
  refine ⟨nextSelect_eq, fun y z hw h => ?_⟩
  rw [System.cycle_switched_select hw h, nextSelect_eq]
  cases y.core.select <;> rfl

/-! ### No pre-emption and hand-over (R118 to R120) -/

section
variable {m : Nat → MasterId → Request} {sel : Nat → MasterId}

/-- A master that keeps `cycle` = 1 stays selected, however long (R118). -/
theorem select_stays (hsel : ∀ t, sel (t + 1) = nextSelect (sel t) (m t .m0) (m t .m1)) (t n : Nat)
    (hbusy : ∀ k < n, (m (t + k) (sel t)).cycle = true) : sel (t + n) = sel t := by
  induction n with
  | zero => rfl
  | succ n ih =>
    have hkept : sel (t + n) = sel t := ih fun k hk => hbusy k (Nat.lt_succ_of_lt hk)
    have hlast : (m (t + n) (sel (t + n))).cycle = true := by
      rw [hkept]
      exact hbusy n (Nat.lt_succ_self n)
    calc sel (t + n + 1) = sel (t + n) := (hsel (t + n)).trans (nextSelect_of_cycle hlast)
      _ = sel t := hkept

/-- A master that lowers `cycle` hands over to the other one (R120). -/
theorem select_hands_over (hsel : ∀ t, sel (t + 1) = nextSelect (sel t) (m t .m0) (m t .m1)) {t : Nat}
    (hidle : (m t (sel t)).cycle = false) : sel (t + 1) = (sel t).other :=
  (hsel t).trans (nextSelect_of_idle hidle)

end

/-- Settles O54: a master that waits is handed over to at once, because the other one, which is selected,
is idle (R119). -/
theorem switchDoesNotPreempt : Obligations.SwitchDoesNotPreempt := by
  intro m sel hsel
  refine ⟨select_stays hsel, fun t => select_hands_over hsel, fun t a hother _ => ?_⟩
  obtain hnow | hwaits := MasterId.eq_or_eq_other (sel t) a
  · exact .inl hnow
  · have hidle : (m t (sel t)).cycle = false := hwaits ▸ hother t
    right
    rw [select_hands_over hsel hidle, hwaits, MasterId.other_other]

/-! ### Routing (R112 to R116) -/

section
variable {ports : List PortParams} {sel : MasterId} {m : MasterId → Request}

/-- The addressed output carries the selected master's request, cut to the port's widths (R112, R123). -/
theorem switchOutput_addressed {p : PortParams} (hport : ports[(m sel).destination]? = some p) :
    switchOutput ports sel (m .m0) (m .m1) (m sel).destination =
      { (m sel).narrow p.addrW p.dataW with destination := 0 } := by
  simp only [switchOutput, selectedMaster_eq, hport, if_true]

/-- Every other output is idle (R115). -/
theorem switchOutput_not_addressed {j : Nat} (hj : j ≠ (m sel).destination) :
    switchOutput ports sel (m .m0) (m .m1) j = Request.idle := by
  simp only [switchOutput, selectedMaster_eq, if_neg hj.symm]
  split <;> rfl

/-- A tag with no port drives no output (R116). -/
theorem switchOutput_unrouted (hnone : ports[(m sel).destination]? = none) (j : Nat) :
    switchOutput ports sel (m .m0) (m .m1) j = Request.idle := by
  by_cases hj : j = (m sel).destination
  case pos => simp only [switchOutput, hj, hnone]
  case neg => exact switchOutput_not_addressed hj

variable {n : Nat} {dataW : Nat} {resp : Nat → Response}

/-- The selected master gets the addressed responder's answer, cut to its own width (R113, R123). -/
theorem switchReturn_selected (hport : (m sel).destination < n) :
    switchReturn n sel sel (m .m0) (m .m1) dataW resp =
      ⟨(resp (m sel).destination).ack, adapt dataW (resp (m sel).destination).readData⟩ := by
  rw [switchReturn, selectedMaster_eq, if_pos ⟨rfl, hport⟩]

/-- A tag with no port gets no answer (R116). -/
theorem switchReturn_unrouted (hnone : n ≤ (m sel).destination) (who : MasterId) :
    switchReturn n sel who (m .m0) (m .m1) dataW resp = Response.none := by
  rw [switchReturn, selectedMaster_eq, if_neg fun ⟨_, hport⟩ => Nat.not_lt.2 hnone hport]

/-- The waiting master gets no answer (R114). -/
theorem switchReturn_waiting {m0 m1 : Request} :
    switchReturn n sel sel.other m0 m1 dataW resp = Response.none := by
  rw [switchReturn, if_neg fun ⟨hsame, _⟩ => MasterId.ne_other sel hsame]

end

/-- Settles O51: one clause for each kind of output and each kind of master. -/
theorem switchRoutesTheSelectedMaster : Obligations.SwitchRoutesTheSelectedMaster := by
  intro ports sel m dataW resp d out
  refine ⟨fun p hport => ?_, fun j => switchOutput_not_addressed, fun hnone => ?_, switchReturn_waiting⟩
  · have hout : out d = { (m sel).narrow p.addrW p.dataW with destination := 0 } :=
      switchOutput_addressed hport
    rw [hout]
    exact ⟨rfl, rfl, rfl, rfl, rfl, switchReturn_selected (List.getElem?_eq_some_iff.1 hport).1⟩
  · exact ⟨switchOutput_unrouted hnone, switchReturn_unrouted (List.getElem?_eq_none_iff.1 hnone) sel⟩

end Sys2Proof.Machine
end

section
/-! The encoding (spec/30_encoding.md): decoding by the opcode and function fields gives back every
well-formed instruction (R141 to R155, R165), and the J and B offsets are the numbers of their scatter
formulas (R148, R149). -/

namespace Sys2Proof

variable {w : Word}

/-! ### Decoding by the opcode (R150) -/

theorem decode_of_opAlu (h : opcodeOf w = opAlu) : decode w = decodeAlu w := by
  rw [decode, h]; rfl

theorem decode_of_opAluImm (h : opcodeOf w = opAluImm) : decode w = decodeAluImm w := by
  rw [decode, h]; rfl

theorem decode_of_opLui (h : opcodeOf w = opLui) : decode w = .instr (.lui (rdOf w) (immUOf w)) := by
  rw [decode, h]; rfl

theorem decode_of_opAuipc (h : opcodeOf w = opAuipc) :
    decode w = .instr (.auipc (rdOf w) (immUOf w)) := by
  rw [decode, h]; rfl

theorem decode_of_opJal (h : opcodeOf w = opJal) : decode w = .instr (.jal (rdOf w) (offJOf w)) := by
  rw [decode, h]; rfl

theorem decode_of_opJalr (h : opcodeOf w = opJalr) (hf : functOf w = 0b000#3) :
    decode w = .instr (.jalr (rdOf w) (rs1Of w) (immIOf w)) := by
  rw [decode, h, hf]; rfl

theorem decode_of_opBranch (h : opcodeOf w = opBranch) : decode w = decodeBranch w := by
  rw [decode, h]; rfl

theorem decode_of_opLoad (h : opcodeOf w = opLoad) : decode w = decodeLoad w := by
  rw [decode, h]; rfl

theorem decode_of_opStore (h : opcodeOf w = opStore) : decode w = decodeStore w := by
  rw [decode, h]; rfl

/-! ### Decoding an encoded instruction (R165) -/

theorem evenOffset_eq_true_iff {n : Nat} {off : BitVec n} :
    evenOffset off = true ↔ off.getLsbD 0 = false := by
  simp [evenOffset]

/-- A branch word with an even offset decodes by its comparison (R153); bit 0 of the offset is the one the
layout drops. -/
theorem decode_encB (off : BitVec 13) (rs1 rs2 : RegIdx) (funct : BitVec 3)
    (heven : evenOffset off = true) :
    decode (encB off rs2 rs1 funct opBranch) =
      if funct = 0b000#3 then .instr (.beq rs1 rs2 off)
      else if funct = 0b001#3 then .instr (.bne rs1 rs2 off)
      else if funct = 0b100#3 then .instr (.blt rs1 rs2 off)
      else if funct = 0b101#3 then .instr (.bge rs1 rs2 off)
      else if funct = 0b110#3 then .instr (.bltu rs1 rs2 off)
      else if funct = 0b111#3 then .instr (.bgeu rs1 rs2 off)
      else .fatal .branchFunct := by
  rw [decode_of_opBranch (opcodeOf_encB ..), decodeBranch, functOf_encB, rs1Of_encB, rs2Of_encB,
    offBOf_encB off _ _ _ _ (evenOffset_eq_true_iff.1 heven)]

/-- Settles O1: the opcode the encoder writes selects the class, its function fields select the instruction
of the class, and each operand field gives back the operand. -/
theorem decodeEncodeRoundTrip : Obligations.DecodeEncodeRoundTrip := by
  intro i hwf
  cases i with
  | add rd rs1 rs2 | sub rd rs1 rs2 | sll rd rs1 rs2 | slt rd rs1 rs2 | sltu rd rs1 rs2 | xor rd rs1 rs2
  | srl rd rs1 rs2 | sra rd rs1 rs2 | or rd rs1 rs2 | and rd rs1 rs2 =>
    rw [encode, decode_of_opAlu (opcodeOf_encR ..)]
    simp [decodeAlu]
  | addi rd rs imm | slti rd rs imm | sltiu rd rs imm | xori rd rs imm | andi rd rs imm =>
    rw [encode, decode_of_opAluImm (opcodeOf_encI ..)]
    simp [decodeAluImm]
  | slli rd rs shamt | srli rd rs shamt | srai rd rs shamt =>
    rw [encode, decode_of_opAluImm (opcodeOf_encR ..)]
    simp [decodeAluImm]
  | lui rd imm => rw [encode, decode_of_opLui (opcodeOf_encU ..), rdOf_encU, immUOf_encU]
  | auipc rd imm => rw [encode, decode_of_opAuipc (opcodeOf_encU ..), rdOf_encU, immUOf_encU]
  | jal rd off =>
    rw [encode, decode_of_opJal (opcodeOf_encJ ..), rdOf_encJ,
      offJOf_encJ off _ _ (evenOffset_eq_true_iff.1 hwf)]
  | jalr rd rs imm =>
    rw [encode, decode_of_opJalr (opcodeOf_encI ..) (functOf_encI ..), rdOf_encI, rs1Of_encI, immIOf_encI]
  | beq rs1 rs2 off | bne rs1 rs2 off | blt rs1 rs2 off | bge rs1 rs2 off | bltu rs1 rs2 off
  | bgeu rs1 rs2 off => exact decode_encB off rs1 rs2 _ hwf
  | lb rd rs imm | lh rd rs imm | lw rd rs imm =>
    rw [encode, decode_of_opLoad (opcodeOf_encI ..)]
    simp [decodeLoad]
  | sb rs1 rs2 imm | sh rs1 rs2 imm | sw rs1 rs2 imm =>
    rw [encode, decode_of_opStore (opcodeOf_encS ..)]
    simp [decodeStore]

/-! ### The J and B offsets (R148, R149) -/

/-- The JAL offset is its pieces side by side, above a bit 0 that is 0 (R148). -/
theorem offJOf_eq_append (w : Word) :
    offJOf w = w.extractLsb' 31 1 ++ w.extractLsb' 12 8 ++ w.extractLsb' 20 1 ++
      w.extractLsb' 21 10 ++ 0#1 := by
  apply BitVec.eq_of_getLsbD_eq
  intro i hi
  change _ = BitVec.getLsbD (w := 1 + 8 + 1 + 10 + 1) _ i
  simp only [offJOf, BitVec.getLsbD_or, getLsbD_fieldAt, BitVec.getLsbD_append]
  interval_cases i <;> simp

/-- The branch offset is its pieces side by side, above a bit 0 that is 0 (R149). -/
theorem offBOf_eq_append (w : Word) :
    offBOf w = w.extractLsb' 31 1 ++ w.extractLsb' 7 1 ++ w.extractLsb' 25 6 ++ w.extractLsb' 8 4 ++
      0#1 := by
  apply BitVec.eq_of_getLsbD_eq
  intro i hi
  change _ = BitVec.getLsbD (w := 1 + 1 + 6 + 4 + 1) _ i
  simp only [offBOf, BitVec.getLsbD_or, getLsbD_fieldAt, BitVec.getLsbD_append]
  interval_cases i <;> simp

/-- Bits side by side are the upper number scaled past the lower one. -/
theorem toNat_append_eq_add {m n : Nat} (x : BitVec m) (y : BitVec n) :
    (x ++ y).toNat = x.toNat * 2 ^ n + y.toNat := by
  rw [BitVec.toNat_append, ← Nat.shiftLeft_add_eq_or_of_lt y.isLt, Nat.shiftLeft_eq]

theorem toNat_extractLsb'_eq_div_mod (w : Word) (lo n : Nat) :
    (w.extractLsb' lo n).toNat = w.toNat / 2 ^ lo % 2 ^ n := by
  rw [BitVec.extractLsb'_toNat, Nat.shiftRight_eq_div_pow]

/-- A signed number with a 0 put below its bits is twice the number: even, and in twice its range. -/
theorem toInt_append_zero_even_and_range {n : Nat} (x : BitVec (n + 1)) :
    (x ++ 0#1).toInt % 2 = 0 ∧ -2 ^ (n + 1) ≤ (x ++ 0#1).toInt ∧ (x ++ 0#1).toInt ≤ 2 ^ (n + 1) - 2 := by
  have htwice : (x ++ 0#1).toInt = 2 * x.toInt := BitVec.toInt_append_zero
  have hlow : -2 ^ n ≤ x.toInt := BitVec.le_toInt x
  have hhigh : x.toInt < 2 ^ n := BitVec.toInt_lt
  rw [pow_succ]
  omega

/-- The number of the JAL offset, from the raw field `word[31:12]` (R148). -/
theorem offJOf_eq_ofNat (w : Word) :
    let f := w.toNat / 2 ^ 12
    offJOf w = BitVec.ofNat 21
      (f % 2 ^ 8 * 2 ^ 12 + f / 2 ^ 8 % 2 * 2 ^ 11 + f / 2 ^ 9 % 2 ^ 10 * 2 + f / 2 ^ 19 * 2 ^ 20) := by
  apply BitVec.eq_of_toNat_eq
  rw [offJOf_eq_append]
  change BitVec.toNat (w := 1 + 8 + 1 + 10 + 1) _ = _
  simp only [toNat_append_eq_add, toNat_extractLsb'_eq_div_mod, BitVec.toNat_ofNat,
    Nat.div_div_eq_div_mul, Nat.reducePow, Nat.reduceMul]
  have hw := w.isLt
  omega

/-- The number of the branch offset, from the raw fields `word[11:7]` and `word[31:25]` (R149). -/
theorem offBOf_eq_ofNat (w : Word) :
    let lo := w.toNat / 2 ^ 7 % 2 ^ 5
    let hi := w.toNat / 2 ^ 25
    offBOf w = BitVec.ofNat 13
      (lo % 2 * 2 ^ 11 + lo / 2 % 2 ^ 4 * 2 + hi % 2 ^ 6 * 2 ^ 5 + hi / 2 ^ 6 * 2 ^ 12) := by
  apply BitVec.eq_of_toNat_eq
  rw [offBOf_eq_append]
  change BitVec.toNat (w := 1 + 1 + 6 + 4 + 1) _ = _
  simp only [toNat_append_eq_add, toNat_extractLsb'_eq_div_mod, BitVec.toNat_ofNat,
    Nat.div_div_eq_div_mul, Nat.reducePow, Nat.reduceMul]
  have hbit7 : w.toNat / 128 % 32 % 2 = w.toNat / 128 % 2 := by omega
  have hbits8 : w.toNat / 128 % 32 / 2 % 16 = w.toNat / 256 % 16 := by omega
  rw [hbit7, hbits8]
  have hw := w.isLt
  omega

/-- Settles O6: an offset is its pieces above a bit 0 that is 0, which gives its number, its evenness and its
range. -/
theorem offsetsAreReassembled : Obligations.OffsetsAreReassembled := by
  intro w
  obtain ⟨hevenJ, hlowJ, hhighJ⟩ := toInt_append_zero_even_and_range (n := 19)
    (w.extractLsb' 31 1 ++ w.extractLsb' 12 8 ++ w.extractLsb' 20 1 ++ w.extractLsb' 21 10)
  obtain ⟨hevenB, hlowB, hhighB⟩ := toInt_append_zero_even_and_range (n := 11)
    (w.extractLsb' 31 1 ++ w.extractLsb' 7 1 ++ w.extractLsb' 25 6 ++ w.extractLsb' 8 4)
  refine ⟨offJOf_eq_ofNat w, offJOf_eq_append w, ?_, ?_, ?_,
    offBOf_eq_ofNat w, offBOf_eq_append w, ?_, ?_, ?_⟩
  · exact offJOf_eq_append w ▸ hevenJ
  · exact offJOf_eq_append w ▸ hlowJ
  · exact offJOf_eq_append w ▸ hhighJ
  · exact offBOf_eq_append w ▸ hevenB
  · exact offBOf_eq_append w ▸ hlowB
  · exact offBOf_eq_append w ▸ hhighB

end Sys2Proof
end

section
/-! SLTIU (spec/44_alu_imm.md R273): the frame of a written result, and the sign-extended immediate as an
unsigned bound. -/

namespace Sys2Proof.Machine

/-- Writing a result puts it into `x[rd]`, ends the decode cycle and leaves everything else (R348). -/
theorem State.resultIn_writeResult (s : State) (rd : RegIdx) (v : Word) :
    ResultIn s (s.writeResult rd v) rd v :=
  ⟨by rw [State.writeResult_getReg, if_pos rfl],
    fun q hq => by rw [State.writeResult_getReg, if_neg hq],
    rfl, rfl, ⟨rfl, rfl, rfl, rfl⟩, ⟨rfl, rfl, rfl, rfl, rfl⟩, fun _ => rfl⟩

/-- The sign-extended immediate read as unsigned: a negative one stands for `imm` + 2^32 (R142, R273). -/
theorem signExt12_toNat (imm : BitVec 12) :
    ((signExt12 imm).toNat : Int) = if imm.toInt < 0 then imm.toInt + 2 ^ 32 else imm.toInt := by
  have hsame : (signExt12 imm).toInt = imm.toInt := BitVec.toInt_signExtend_of_le (by decide)
  rw [BitVec.toInt_eq_toNat_cond] at hsame
  have hlt := (signExt12 imm).isLt
  split at hsame <;> split <;> omega

/-- Settles O21: the unsigned comparison is with the number the sign-extended immediate stands for. -/
theorem sltiuResult : Obligations.SltiuResult := by
  intro rd rs imm s bound
  have hbound : ((signExt12 imm).toNat : Int) = bound := signExt12_toNat imm
  have hvalue : boolWord (ltUnsigned (s.getReg rs) (signExt12 imm)) =
      if ((s.getReg rs).toNat : Int) < bound then 1#32 else 0#32 := by
    simp only [boolWord, ltUnsigned, BitVec.ult_iff_toNat_lt, ← hbound, Int.ofNat_lt]
  exact ⟨_, rfl, hvalue ▸ State.resultIn_writeResult s rd _⟩

end Sys2Proof.Machine
end

section
/-! Branches (spec/40_branch.md R180 to R186): the frame of a whole branch with its target counted from the
instruction's own address, and each comparison as an order of numbers. -/

namespace Sys2Proof.Machine

/-! ### The comparisons (R181 to R186) -/

theorem condTaken_eq_iff (a b : Word) : condTaken .eq a b = true ↔ a = b :=
  beq_iff_eq

theorem condTaken_ne_iff (a b : Word) : condTaken .ne a b = true ↔ a ≠ b :=
  bne_iff_ne

theorem condTaken_lt_iff (a b : Word) : condTaken .lt a b = true ↔ a.toInt < b.toInt :=
  BitVec.slt_iff_toInt_lt

theorem condTaken_ltu_iff (a b : Word) : condTaken .ltu a b = true ↔ a.toNat < b.toNat :=
  BitVec.ult_iff_toNat_lt

/-- BGE is taken exactly when BLT is not (R184). -/
theorem condTaken_ge_eq_not (a b : Word) : condTaken .ge a b = !condTaken .lt a b := rfl

/-- BGEU is taken exactly when BLTU is not (R186). -/
theorem condTaken_geu_eq_not (a b : Word) : condTaken .geu a b = !condTaken .ltu a b := rfl

theorem condTaken_ge_iff (a b : Word) : condTaken .ge a b = true ↔ a.toInt ≥ b.toInt := by
  rw [condTaken_ge_eq_not, Bool.not_eq_true', ← Bool.not_eq_true, condTaken_lt_iff, not_lt]

theorem condTaken_geu_iff (a b : Word) : condTaken .geu a b = true ↔ a.toNat ≥ b.toNat := by
  rw [condTaken_geu_eq_not, Bool.not_eq_true', ← Bool.not_eq_true, condTaken_ltu_iff, not_lt]

/-! ### The target and the frame (R180) -/

section
variable (s : State)

/-- The address after the instruction, counted from its own (R27). -/
theorem State.ia_add_four : s.ia + 4#32 = s.pc :=
  BitVec.sub_add_cancel s.pc 4#32

/-- `pc + off - 4` is `ia + off` modulo 2^32 (R180). -/
theorem State.branchTarget_eq_ofInt (off : BitVec 13) :
    s.branchTarget off = BitVec.ofInt 32 ((s.ia.toNat : Int) + off.toInt) := by
  have hia : s.branchTarget off = s.ia + off.signExtend 32 := by
    rw [State.branchTarget, State.ia]
    bv_omega
  rw [hia, BitVec.ofInt_add, BitVec.ofInt_natCast, BitVec.ofNat_toNat, BitVec.setWidth_eq,
    BitVec.signExtend]

/-- A whole branch writes `pc` alone and ends the execute state (R180, R350): `P` is the comparison the
rule of the instruction names. -/
theorem State.branchedTo_runBranch {c : BranchCond} {rs1 rs2 : RegIdx} {P : Prop} [Decidable P]
    (off : BitVec 13) (hcond : condTaken c (s.getReg rs1) (s.getReg rs2) = true ↔ P) :
    BranchedTo s (s.runBranch c rs1 rs2 off)
      (if P then BitVec.ofInt 32 ((s.ia.toNat : Int) + off.toInt) else s.ia + 4#32) := by
  have hpc : (s.runBranch c rs1 rs2 off).pc =
      if P then BitVec.ofInt 32 ((s.ia.toNat : Int) + off.toInt) else s.ia + 4#32 := by
    simp only [State.runBranch_eq, hcond, State.branchTarget_eq_ofInt, State.ia_add_four]
  exact ⟨fun _ => rfl, hpc, rfl, rfl, rfl, rfl, rfl, ⟨rfl, rfl, rfl, rfl, rfl⟩, fun _ => rfl⟩

end

/-! ### The six instructions -/

/-- Settles O27, with equality of the register values as the comparison. -/
theorem branchOnEquality : Obligations.BranchOnEquality := by
  intro rs1 rs2 off s target
  refine ⟨decode_encB off rs1 rs2 _, ⟨_, rfl, ?beq⟩, decode_encB off rs1 rs2 _, ⟨_, rfl, ?bne⟩⟩
  case beq => exact s.branchedTo_runBranch off (condTaken_eq_iff _ _)
  case bne => exact s.branchedTo_runBranch off (condTaken_ne_iff _ _)

/-- Settles O28, with the signed order of the register values as the comparison. -/
theorem branchOnSignedOrder : Obligations.BranchOnSignedOrder := by
  intro rs1 rs2 off s target
  refine ⟨decode_encB off rs1 rs2 _, ⟨_, rfl, ?blt⟩, decode_encB off rs1 rs2 _, ⟨_, rfl, ?bge⟩,
    condTaken_ge_eq_not _ _⟩
  case blt => exact s.branchedTo_runBranch off (condTaken_lt_iff _ _)
  case bge => exact s.branchedTo_runBranch off (condTaken_ge_iff _ _)

/-- Settles O29, with the unsigned order of the register values as the comparison. -/
theorem branchOnUnsignedOrder : Obligations.BranchOnUnsignedOrder := by
  intro rs1 rs2 off s target
  refine ⟨decode_encB off rs1 rs2 _, ⟨_, rfl, ?bltu⟩, decode_encB off rs1 rs2 _, ⟨_, rfl, ?bgeu⟩,
    condTaken_geu_eq_not _ _⟩
  case bltu => exact s.branchedTo_runBranch off (condTaken_ltu_iff _ _)
  case bgeu => exact s.branchedTo_runBranch off (condTaken_geu_iff _ _)

end Sys2Proof.Machine
end

section
/-! Register-register arithmetic (spec/43_alu_reg.md R241 to R250): each result as the number its rule
names, over the frame of a written result. -/

namespace Sys2Proof.Machine

/-! ### The value of a written result -/

/-- The frame of a written result, with the value as the rule of the instruction spells it (R348). -/
theorem State.resultIn_writeResult_of_eq (s : State) (rd : RegIdx) {v w : Word} (h : v = w) :
    ResultIn s (s.writeResult rd v) rd w :=
  h ▸ s.resultIn_writeResult rd v

theorem State.writeResult_getReg_self (s : State) (rd : RegIdx) (v : Word) :
    (s.writeResult rd v).getReg rd = v := by
  rw [State.writeResult_getReg, if_pos rfl]

/-! ### Sums and differences modulo 2^32 (R241, R242) -/

theorem ofInt_toNat_eq_self (a : Word) : BitVec.ofInt 32 (a.toNat : Int) = a := by
  rw [BitVec.ofInt_natCast, BitVec.ofNat_toNat, BitVec.setWidth_eq]

theorem ofInt_sub_eq_sub (x y : Int) :
    BitVec.ofInt 32 (x - y) = BitVec.ofInt 32 x - BitVec.ofInt 32 y := by
  rw [Int.sub_eq_add_neg, BitVec.ofInt_add, BitVec.ofInt_neg, ← BitVec.sub_eq_add_neg]

theorem add_eq_ofInt_toInt (a b : Word) : a + b = BitVec.ofInt 32 (a.toInt + b.toInt) := by
  rw [BitVec.ofInt_add, BitVec.ofInt_toInt, BitVec.ofInt_toInt]

theorem sub_eq_ofInt_toNat (a b : Word) : a - b = BitVec.ofInt 32 ((a.toNat : Int) - (b.toNat : Int)) := by
  rw [ofInt_sub_eq_sub, ofInt_toNat_eq_self, ofInt_toNat_eq_self]

theorem sub_eq_ofInt_toInt (a b : Word) : a - b = BitVec.ofInt 32 (a.toInt - b.toInt) := by
  rw [ofInt_sub_eq_sub, BitVec.ofInt_toInt, BitVec.ofInt_toInt]

/-- Settles O15: the one sum or difference of words is that of the unsigned and of the signed readings. -/
theorem addSubResults : Obligations.AddSubResults := by
  intro rd rs1 rs2 s a b
  refine ⟨decodeEncodeRoundTrip (.add rd rs1 rs2) rfl, ⟨_, rfl, ?addFrame, ?addSigned⟩,
    decodeEncodeRoundTrip (.sub rd rs1 rs2) rfl, ⟨_, rfl, ?subFrame, ?subSigned, ?subSelf⟩⟩
  case addFrame => exact s.resultIn_writeResult_of_eq rd (BitVec.add_def a b)
  case addSigned => exact (s.writeResult_getReg_self rd _).trans (add_eq_ofInt_toInt a b)
  case subFrame => exact s.resultIn_writeResult_of_eq rd (sub_eq_ofInt_toNat a b)
  case subSigned => exact (s.writeResult_getReg_self rd _).trans (sub_eq_ofInt_toInt a b)
  case subSelf =>
    rintro rfl
    exact (s.writeResult_getReg_self rd _).trans (BitVec.sub_self a)

/-! ### Comparisons (R244, R245; spec/44_alu_imm.md R272) -/

theorem boolWord_eq_ite {c : Bool} {P : Prop} [Decidable P] (h : c = true ↔ P) :
    boolWord c = if P then 1#32 else 0#32 := by
  simp only [boolWord, h]

/-- Sign extension keeps the signed reading of the immediate (R142). -/
theorem signExt12_toInt (imm : BitVec 12) : (signExt12 imm).toInt = imm.toInt :=
  BitVec.toInt_signExtend_of_le (by decide)

theorem ltSigned_signExt12_iff (a : Word) (imm : BitVec 12) :
    ltSigned a (signExt12 imm) = true ↔ a.toInt < imm.toInt := by
  rw [← signExt12_toInt imm]
  exact condTaken_lt_iff a (signExt12 imm)

/-- Settles O18: the orders are those of BLT and BLTU, and SLTI's bound has the sign of its immediate. -/
theorem setLessThanResults : Obligations.SetLessThanResults := by
  intro rd rs1 rs2 imm s a b
  refine ⟨decodeEncodeRoundTrip (.slt rd rs1 rs2) rfl, ⟨_, rfl, ?slt⟩,
    decodeEncodeRoundTrip (.sltu rd rs1 rs2) rfl, ⟨_, rfl, ?sltu⟩,
    decodeEncodeRoundTrip (.slti rd rs1 imm) rfl, ⟨_, rfl, ?slti⟩⟩
  case slt => exact s.resultIn_writeResult_of_eq rd (boolWord_eq_ite (condTaken_lt_iff a b))
  case sltu => exact s.resultIn_writeResult_of_eq rd (boolWord_eq_ite (condTaken_ltu_iff a b))
  case slti => exact s.resultIn_writeResult_of_eq rd (boolWord_eq_ite (ltSigned_signExt12_iff a imm))

/-! ### Bit by bit (R246, R249, R250) -/

/-- Settles O19: a bit of the result is the operation on the sources' bits, and the operation on one word
twice is 0 for XOR and the word for OR and AND. -/
theorem logicResults : Obligations.LogicResults := by
  intro rd rs1 rs2 s
  refine ⟨decodeEncodeRoundTrip (.xor rd rs1 rs2) rfl,
    ⟨_, _, rfl, s.resultIn_writeResult rd _, fun _ _ => BitVec.getLsbD_xor, ?xorSelf⟩,
    decodeEncodeRoundTrip (.or rd rs1 rs2) rfl,
    ⟨_, _, rfl, s.resultIn_writeResult rd _, fun _ _ => BitVec.getLsbD_or, ?orSelf⟩,
    decodeEncodeRoundTrip (.and rd rs1 rs2) rfl,
    ⟨_, _, rfl, s.resultIn_writeResult rd _, fun _ _ => BitVec.getLsbD_and, ?andSelf⟩⟩
  case xorSelf => rintro rfl; exact BitVec.xor_self
  case orSelf => rintro rfl; exact BitVec.or_self
  case andSelf => rintro rfl; exact BitVec.and_self

end Sys2Proof.Machine
end

section
/-! Register-immediate arithmetic (spec/44_alu_imm.md R271, R274, R275): the sum as a number modulo 2^32, and
the two immediates the corner cases name, over the frame of a written result. -/

namespace Sys2Proof.Machine

/-! ### The immediates of the corner cases (R142) -/

theorem signExt12_zero : signExt12 0#12 = 0#32 := by decide

theorem signExt12_allOnes : signExt12 0xFFF#12 = BitVec.allOnes 32 := by decide

/-! ### The sum (R271) -/

theorem add_signExt12_eq_ofInt (a : Word) (imm : BitVec 12) :
    a + signExt12 imm = BitVec.ofInt 32 ((a.toNat : Int) + imm.toInt) := by
  rw [BitVec.ofInt_add, ofInt_toNat_eq_self, ← signExt12_toInt imm, BitVec.ofInt_toInt]

/-- Settles O20: the sum is with the signed immediate, and extending 0 or -1 gives the word with no bit or
with every bit set. -/
theorem immediateArithmeticResults : Obligations.ImmediateArithmeticResults := by
  intro rd rs imm s a
  refine ⟨decodeEncodeRoundTrip (.addi rd rs imm) rfl, ⟨_, rfl, ?addFrame, ?addZero⟩,
    decodeEncodeRoundTrip (.xori rd rs imm) rfl, ⟨_, rfl, s.resultIn_writeResult rd _, ?xorAllOnes⟩,
    decodeEncodeRoundTrip (.andi rd rs imm) rfl, ⟨_, rfl, s.resultIn_writeResult rd _, ?andZero⟩⟩
  case addFrame => exact s.resultIn_writeResult_of_eq rd (add_signExt12_eq_ofInt a imm)
  case addZero =>
    rintro rfl
    rw [State.writeResult_getReg_self, signExt12_zero]
    exact BitVec.add_zero a
  case xorAllOnes =>
    rintro rfl
    rw [State.writeResult_getReg_self, signExt12_allOnes]
    exact BitVec.xor_allOnes
  case andZero =>
    rintro rfl
    rw [State.writeResult_getReg_self, signExt12_zero]
    exact BitVec.and_zero

end Sys2Proof.Machine
end

section
/-! LUI (spec/45_upper_imm.md R301): the placed immediate as the field above twelve zeros, over the frame of a
written result. -/

namespace Sys2Proof.Machine

/-- The placed immediate is the field side by side with twelve zeros (R147). -/
theorem immU_eq_append (imm : BitVec 20) : immU imm = imm ++ 0#12 := by
  apply BitVec.eq_of_getLsbD_eq
  intro i hi
  rw [immU, getLsbD_fieldAt, BitVec.getLsbD_append]
  by_cases hlow : i < 12
  · simp [hlow]
  · simp [hi, hlow, Nat.not_lt.1 hlow]

/-- Settles O23: the written word is the immediate above twelve zeros, so each half is read back from the
side of the append it stands on. -/
theorem luiResult : Obligations.LuiResult := by
  intro rd imm s
  refine ⟨decodeEncodeRoundTrip (.lui rd imm) rfl,
    ⟨_, _, rfl, s.resultIn_writeResult rd (immU imm), ?upper, ?lower⟩⟩
  case upper =>
    rw [immU_eq_append]
    exact BitVec.extractLsb'_append_eq_left
  case lower =>
    rw [immU_eq_append]
    exact BitVec.extractLsb'_append_eq_right

end Sys2Proof.Machine
end

section
/-! Whole loads and stores (spec/41_load.md R200 to R206, spec/42_store.md R220 to R225): what each leaves,
over the frames of Sys2Proof/Safety.lean, and from them the invariant of the architectural step. -/

namespace Sys2Proof.Machine

variable (s : State)

/-! ### A whole load (R200) -/

/-- The accumulated bytes depend on the data space alone. -/
theorem State.shiftIn_congr {s t : State} (h : BytesSame s t) (a : Word) (k : Nat) (acc : Word) :
    t.shiftIn a k acc = s.shiftIn a k acc := by
  induction k generalizing a acc with
  | zero => rfl
  | succ k ih => rw [State.shiftIn, State.shiftIn, h a, ih]

/-- A load leaves the data space as it is, not only as it reads. -/
theorem State.runLoad_dmem (rd : RegIdx) (a : Word) (n : Nat) : (s.runLoad rd a n).dmem = s.dmem := by
  obtain ⟨-, -, -, -, -, -, -, -, hdmem, -⟩ := State.loadBeats_frame rd n (s.startLoad rd a n)
  exact hdmem

/-- A whole load of 1 to 4 bytes: the bytes from `a` in the destination, nothing else changed but the
access latches (R200, R351). -/
theorem State.loadedIn_runLoad (rd : RegIdx) (a : Word) {n : Nat} (hpos : 1 ≤ n) (hn : n ≤ 4) :
    LoadedIn s (s.runLoad rd a n) rd a n (s.shiftIn a n 0#32) := by
  obtain ⟨hregs, hpc, hir, hactive, hsh, hhalted, hselect, himem, hdmem, hcfg, hea, hcnt⟩ :=
    State.loadBeats_frame rd n (s.startLoad rd a n)
  have hvalue : (s.runLoad rd a n).getReg rd = s.shiftIn a n 0#32 := by
    rw [State.runLoad, State.loadBeats_getReg_same, State.startLoad_getReg, if_pos rfl]
    exact State.shiftIn_congr (s := s) (t := s.startLoad rd a n) (fun _ => rfl) a n 0#32
  have hothers : OtherRegsSame s (s.runLoad rd a n) rd := fun r hr => by
    rw [State.runLoad, hregs r hr, State.startLoad_getReg, if_neg hr]
  have hxs : (s.runLoad rd a n).xs = .none := by
    obtain ⟨k, rfl⟩ : ∃ k, n = k + 1 := ⟨n - 1, by omega⟩
    exact State.loadBeats_xs rd k _ rfl (by omega)
  have hbytes : BytesSame s (s.runLoad rd a n) := fun b => by
    rw [State.readByte, State.runLoad, hdmem, hcfg]
    rfl
  exact ⟨hvalue, hothers, hpc, hactive, hxs, hea, hcnt.trans (BitVec.sub_self _), hsh,
    ⟨hir, hhalted, hselect, himem, hcfg⟩, hbytes⟩

/-! ### A whole store (R220) -/

/-- A store leaves the data space in canonical form. -/
theorem State.runStore_wf (a v : Word) (n : Nat) (h : Memory.wf s.dmem) :
    Memory.wf (s.runStore a v n).dmem :=
  State.storeBeats_wf n _ h

theorem busAddr_add_toNat (w : Nat) (a : Word) {i : Nat} (hi : i < 2 ^ 32) :
    (busAddr w (a + BitVec.ofNat 32 i)).toNat = (a.toNat + i) % 2 ^ min 32 w := by
  rw [busAddr_toNat, BitVec.toNat_add, BitVec.toNat_ofNat, Nat.mod_eq_of_lt hi]
  rcases Nat.le_total w 32 with hw | hw
  · rw [Nat.min_eq_right hw, Nat.mod_mod_of_dvd _ (Nat.pow_dvd_pow 2 hw)]
  · have hlt : (a.toNat + i) % 2 ^ 32 < 2 ^ w :=
      Nat.lt_of_lt_of_le (Nat.mod_lt _ (by decide)) (Nat.pow_le_pow_right (by decide) hw)
    rw [Nat.min_eq_left hw, Nat.mod_eq_of_lt hlt]

/-- A port that has `n` addresses tells `n` neighbouring ones apart (R65). -/
theorem busAddr_add_ne {w n i j : Nat} (a : Word) (hn : n ≤ 4) (hw : n ≤ 2 ^ w) (hi : i < n) (hj : j < n)
    (hne : i ≠ j) : busAddr w (a + BitVec.ofNat 32 i) ≠ busAddr w (a + BitVec.ofNat 32 j) := by
  intro heq
  have hmod := congrArg BitVec.toNat heq
  rw [busAddr_add_toNat w a (by omega), busAddr_add_toNat w a (by omega)] at hmod
  have hmin : n ≤ 2 ^ min 32 w := by
    rcases Nat.le_total w 32 with hle | hle
    · rwa [Nat.min_eq_right hle]
    · rw [Nat.min_eq_left hle]
      omega
  have hcancel : i % 2 ^ min 32 w = j % 2 ^ min 32 w := Nat.ModEq.add_left_cancel' a.toNat hmod
  rw [Nat.mod_eq_of_lt (by omega), Nat.mod_eq_of_lt (by omega)] at hcancel
  exact hne hcancel

/-- Write beats at addresses that the port tells apart leave in each the byte that the shift register has
brought to its top (R352). -/
theorem State.storeBeats_readByte_inside {n : Nat} (hn : n ≤ 4) (s : State) (hw : n ≤ 2 ^ s.cfg.daddrW)
    {i : Nat} (hi : i < n) :
    (State.storeBeats n s).readByte (s.ea + BitVec.ofNat 32 i) = (s.sh <<< (8 * i)).extractLsb' 24 8 := by
  induction n generalizing s i with
  | zero => omega
  | succ n ih =>
    have hnext : ∀ j, s.ea + BitVec.ofNat 32 (j + 1) = s.ea + 1#32 + BitVec.ofNat 32 j := fun j => by
      rw [Nat.add_comm j 1, BitVec.ofNat_add, BitVec.add_assoc]
    cases i with
    | zero =>
      have hkept : ∀ j < n, busAddr s.cfg.daddrW (s.ea + 0#32) ≠
          busAddr s.cfg.daddrW (s.ea + 1#32 + BitVec.ofNat 32 j) := fun j hj => by
        rw [← hnext]
        exact busAddr_add_ne s.ea hn hw (by omega) (by omega) (by omega)
      rw [State.storeBeats, State.storeBeats_readByte_outside n _ _ hkept, State.storeBeat_readByte,
        State.readByte_writeByte_same _ _ _ _ (by rw [BitVec.add_zero])]
      simp [State.storeByte]
    | succ i =>
      have hshift : s.sh <<< (8 * (i + 1)) = s.sh <<< 8 <<< (8 * i) := by
        rw [← BitVec.shiftLeft_add, Nat.mul_succ, Nat.add_comm]
      rw [State.storeBeats, hnext, hshift]
      exact ih (by omega) (s.writeByte s.ea s.storeByte).storeBeat (Nat.le_of_succ_le hw) (by omega)

/-- A stored byte as a number. -/
theorem storeByteOf_toNat (n : Nat) (v : Word) (i : Nat) :
    (storeByteOf n v i).toNat = v.toNat / 2 ^ (8 * (n - 1 - i)) % 256 :=
  toNat_extractLsb'_eq_div_mod v _ 8

/-- A whole store of 1 to 4 bytes (R220, R352). -/
theorem State.storedAt_runStore (a v : Word) {n : Nat} (hpos : 1 ≤ n) (hn : n ≤ 4) :
    StoredAt s (s.runStore a v n) a n v := by
  obtain ⟨hx, hpc, hir, hactive, hhalted, hselect, himem, hcfg, hea, hcnt, hsh⟩ :=
    State.storeBeats_frame n (s.startStore a v n)
  have hregs : RegsSame s (s.runStore a v n) := fun r => by
    simp only [State.getReg, State.runStore, hx, State.startStore_x]
  have hxs : (s.runStore a v n).xs = .none := by
    obtain ⟨k, rfl⟩ : ∃ k, n = k + 1 := ⟨n - 1, by omega⟩
    exact State.storeBeats_xs k _ rfl (by omega)
  have hempty : (s.runStore a v n).sh = 0#32 := by
    rw [State.runStore, hsh, State.startStore_sh, ← BitVec.shiftLeft_add]
    exact BitVec.shiftLeft_eq_zero (by omega)
  have hinside : n ≤ 2 ^ s.cfg.daddrW → ∀ i < n,
      ((s.runStore a v n).readByte (a + BitVec.ofNat 32 i)).toNat =
        v.toNat / 2 ^ (8 * (n - 1 - i)) % 256 := fun hw i hi => by
    rw [← storeByteOf_toNat, ← shiftedTopByte_eq_storeByteOf hn hi]
    exact congrArg BitVec.toNat (State.storeBeats_readByte_inside hn (s.startStore a v n) hw hi)
  exact ⟨hregs, hpc, hactive, hxs, hea, hcnt.trans (BitVec.sub_self _), hempty,
    ⟨hir, hhalted, hselect, himem, hcfg⟩,
    fun b hb => State.storeBeats_readByte_outside n (s.startStore a v n) b hb, hinside⟩

end Sys2Proof.Machine
end

section
/-! The invariant of the architectural step (spec/10_state.md R29, spec/20_memory.md R50): every way to
complete a decoded word keeps the canonical spaces and an even `pc`, and leaves no instruction in hand. -/

namespace Sys2Proof.Machine

variable {s t : State}

/-- The beats of a load or store (R61). -/
theorem one_le_beatsOf (w : Word) : 1 ≤ beatsOf w := by
  unfold beatsOf
  split
  · decide
  · split <;> decide

theorem beatsOf_le_four (w : Word) : beatsOf w ≤ 4 := by
  unfold beatsOf
  split
  · decide
  · split <;> decide

/-- With the address spaces untouched, an even `pc` and no instruction in hand are what is left to show. -/
theorem ArchInv.of_same_spaces (h : MemInv s) (hdmem : t.dmem = s.dmem) (himem : t.imem = s.imem)
    (heven : PcEven t) (hrest : AtRest t) : ArchInv t := by
  refine ⟨?_, heven, hrest⟩
  rw [MemInv, hdmem, himem]
  exact h

theorem PcEven.of_same (h : PcEven s) (hpc : t.pc = s.pc) : PcEven t := by
  rwa [PcEven, hpc]

/-- The completion of a latched word leaves a state with the invariant of the architectural step. -/
theorem State.execLatched_archInv (hmem : MemInv s) (heven : PcEven s) (hxs : s.xs = .none)
    (h : s.execLatched = .next t) : ArchInv t := by
  cases hd : decode s.ir with
  | unspecJalr => simp [State.execLatched, hd] at h
  | fatal r =>
    simp only [State.execLatched, hd] at h
    cases h
    exact .of_same_spaces hmem rfl rfl heven ⟨rfl, rfl⟩
  | instr i =>
    rw [State.execLatched_of_instr hd] at h
    rcases decode_decodedAs _ _ hd with
      ⟨-, hexec⟩ | rfl | rfl | ⟨-, c, -, hexec⟩ | ⟨-, -, hexec⟩ | ⟨-, -, hexec⟩
    case inl =>
      obtain ⟨v, hv⟩ := hexec s
      cases hv.symm.trans h
      exact .of_same_spaces hmem rfl rfl heven ⟨rfl, hxs⟩
    case inr.inl =>
      cases h
      exact .of_same_spaces hmem rfl rfl (target_even (by decide) s.pc _ heven (offJOf_even s.ir))
        ⟨rfl, hxs⟩
    case inr.inr.inl =>
      cases h
      exact .of_same_spaces hmem rfl rfl (s.jalrTarget_even _ _) ⟨rfl, hxs⟩
    case inr.inr.inr.inl =>
      cases (hexec s).symm.trans h
      refine .of_same_spaces hmem rfl rfl ?_ ⟨rfl, rfl⟩
      rw [PcEven, State.runBranch_eq]
      dsimp only
      split
      · exact target_even (by decide) s.pc _ heven (offBOf_even s.ir)
      · exact heven
    case inr.inr.inr.inr.inl =>
      cases (hexec s).symm.trans h
      obtain ⟨-, -, hpc, hactive, hxs', -, -, -, ⟨-, -, -, himem, -⟩, -⟩ :=
        s.loadedIn_runLoad (rdOf s.ir) (s.effAddr (rs1Of s.ir) (immIOf s.ir)) (one_le_beatsOf s.ir)
          (beatsOf_le_four s.ir)
      exact .of_same_spaces hmem (s.runLoad_dmem _ _ _) himem (heven.of_same hpc) ⟨hactive, hxs'⟩
    case inr.inr.inr.inr.inr =>
      cases (hexec s).symm.trans h
      obtain ⟨-, hpc, hactive, hxs', -, -, -, ⟨-, -, -, himem, -⟩, -⟩ :=
        s.storedAt_runStore (s.effAddr (rs1Of s.ir) (immSOf s.ir)) (s.getReg (rs2Of s.ir))
          (one_le_beatsOf s.ir) (beatsOf_le_four s.ir)
      refine ⟨⟨s.runStore_wf _ _ _ hmem.1, ?_⟩, heven.of_same hpc, hactive, hxs'⟩
      rw [himem]
      exact hmem.2

/-- A step that is not refused is the halt, or the fetch and completion of a ready machine, or the completion
of the instruction in hand. -/
theorem step_next_cases (h : step s = .next t) :
    (s.halted = true ∧ t = s) ∨ (Ready s ∧ (s.latchFetch s.fetchWord).execLatched = .next t) ∨
      (s.halted = false ∧ s.phase ≠ .fr ∧ s.finish = .next t) := by
  by_cases hh : s.halted = true
  · simp only [step, hh, if_true] at h
    cases h
    exact .inl ⟨hh, rfl⟩
  by_cases htags : s.cfg.tagsOk = true
  · by_cases hp : s.phase = .fr
    · by_cases hm : s.pcMisaligned = true
      · simp [step, hh, htags, hp, hm] at h
      · have hready : Ready s := ⟨hp, by simpa using hm, htags⟩
        exact .inr (.inl ⟨hready, step_of_ready hready ▸ h⟩)
    · exact .inr (.inr ⟨by simpa using hh, hp, by simpa [step, hh, htags, hp] using h⟩)
  · simp [step, hh, htags] at h

/-- Settles O38: between two steps nothing is in hand, so a step that is not the halt latches a word with
`pc` advanced by 4 and completes it. -/
theorem stepKeepsTheInvariant : Obligations.StepKeepsTheInvariant := by
  rintro s t ⟨hmem, heven, hactive, hxs⟩ h
  rcases step_next_cases h with ⟨-, rfl⟩ | ⟨-, hexec⟩ | ⟨hh, hbusy, -⟩
  · exact ⟨hmem, heven, hactive, hxs⟩
  · exact State.execLatched_archInv (s := s.latchFetch s.fetchWord) hmem (add_four_even s.pc heven) hxs hexec
  · exact absurd (State.phase_eq_fr_iff.2 ⟨hh, hactive, hxs⟩) hbusy

end Sys2Proof.Machine
end

section
/-! The invariants of the clocked core (spec/50_core_fsm.md R361): an edge brings the core to rest, or into the
execute state of the word in `ir`, or one beat further in it. -/

namespace Sys2Proof.Machine

variable {s t : State}

/-! ### Into an execute state (R350 to R352) -/

/-- Outside the execute states R361 says only that a halted core has nothing in hand. -/
theorem CoreInv.of_xs_none (hxs : t.xs = .none) (hhalt : t.halted = true → t.active = false)
    (heven : PcEven t) : CoreInv t :=
  ⟨fun _ => hxs, fun hh => ⟨hhalt hh, hxs⟩, fun hx => by simp [hxs] at hx, fun hx => by simp [hxs] at hx,
    fun hx => by simp [hxs] at hx, heven⟩

theorem State.decodeEdge_of_branch {i : Instr} (hc : i.cls = .branch) :
    s.decodeEdge i = .next s.startBranch := by
  rw [State.decodeEdge, hc]

theorem State.decodeEdge_of_load {i : Instr} (hc : i.cls = .load) :
    s.decodeEdge i =
      .next (s.startLoad (rdOf s.ir) (s.effAddr (rs1Of s.ir) (immIOf s.ir)) (beatsOf s.ir)) := by
  rw [State.decodeEdge, hc]

theorem State.decodeEdge_of_store {i : Instr} (hc : i.cls = .store) :
    s.decodeEdge i =
      .next (s.startStore (s.effAddr (rs1Of s.ir) (immSOf s.ir)) (s.getReg (rs2Of s.ir))
        (beatsOf s.ir)) := by
  rw [State.decodeEdge, hc]

/-- The count register holds every number of beats. -/
theorem ofNat_beatsOf_toNat (w : Word) : (BitVec.ofNat 3 (beatsOf w)).toNat = beatsOf w := by
  have h := beatsOf_le_four w
  rw [BitVec.toNat_ofNat, Nat.mod_eq_of_lt (by omega)]

/-- The decode cycle of a branch starts its execute state. -/
theorem State.startBranch_coreInv (hh : s.halted = false) (heven : PcEven s)
    (hclass : LatchedClass s .branch) : CoreInv s.startBranch :=
  ⟨nofun, by simp [hh], fun _ => hclass, nofun, nofun, heven⟩

/-- The decode cycle of a load starts its execute state with every beat to come. -/
theorem State.startLoad_coreInv (hh : s.halted = false) (heven : PcEven s)
    (hclass : LatchedClass s .load) :
    CoreInv (s.startLoad (rdOf s.ir) (s.effAddr (rs1Of s.ir) (immIOf s.ir)) (beatsOf s.ir)) := by
  have hcnt := ofNat_beatsOf_toNat s.ir
  refine ⟨nofun, by simp [hh], nofun, fun _ => ⟨hclass, ?pos, ?bound, fun hrd => ?address⟩, nofun, heven⟩
  case pos => rw [State.startLoad_cnt, hcnt]; exact one_le_beatsOf s.ir
  case bound => rw [State.startLoad_cnt, hcnt]; exact le_rfl
  case address =>
    rw [State.startLoad_ir] at hrd
    simp [State.effAddr, State.startLoad_getReg, hrd.symm, beatsDone, -BitVec.toNat_ofNat, hcnt]

/-- The decode cycle of a store starts its execute state with every beat to come. -/
theorem State.startStore_coreInv (hh : s.halted = false) (heven : PcEven s)
    (hclass : LatchedClass s .store) :
    CoreInv (s.startStore (s.effAddr (rs1Of s.ir) (immSOf s.ir)) (s.getReg (rs2Of s.ir))
      (beatsOf s.ir)) := by
  have hcnt := ofNat_beatsOf_toNat s.ir
  have hfirst := shiftedTopByte_eq_storeByteOf (beatsOf_le_four s.ir) (one_le_beatsOf s.ir)
    (s.getReg (rs2Of s.ir))
  refine ⟨nofun, by simp [hh], nofun, nofun,
    fun _ => ⟨hclass, ?pos, ?bound, ?address, ?byte, ?shift⟩, heven⟩
  case pos => rw [State.startStore_cnt, hcnt]; exact one_le_beatsOf s.ir
  case bound => rw [State.startStore_cnt, hcnt]; exact le_rfl
  case address => simp [State.effAddr, beatsDone, -BitVec.toNat_ofNat, hcnt]
  case byte => simpa [State.storeByte, beatsDone, -BitVec.toNat_ofNat, hcnt] using hfirst
  case shift => simp [beatsDone, -BitVec.toNat_ofNat, hcnt]

/-! ### One beat further (R351, R352) -/

/-- A count that is not at its last beat falls by one, and one more beat is done. -/
theorem cnt_sub_one_toNat {c : BitVec 3} (hpos : 1 ≤ c.toNat) : (c - 1#3).toNat = c.toNat - 1 := by
  bv_omega

theorem beatsDone_succ {c : BitVec 3} {n : Nat} (hpos : 1 ≤ c.toNat) (hbound : c.toNat ≤ n) :
    n - (c - 1#3).toNat = n - c.toNat + 1 := by
  rw [cnt_sub_one_toNat hpos]
  omega

/-- A read transfer ends the load, or leaves it in its execute state with one beat fewer to come. -/
theorem State.loadBeat_coreInv (h : CoreInv s) (hp : s.phase = .xl) (b : Byte) :
    CoreInv (s.loadBeat (rdOf s.ir) b) := by
  obtain ⟨hh, ha, hx⟩ := State.phase_eq_xl_iff.1 hp
  obtain ⟨-, -, -, hload, -, heven⟩ := h
  obtain ⟨hclass, hpos, hbound, haddress⟩ := hload hx
  by_cases hlast : s.cnt = 1#3
  · exact .of_xs_none (by simp [xsAfterBeat, hlast]) (fun _ => ha) heven
  have hcnt := cnt_sub_one_toNat hpos
  have hxs : (s.loadBeat (rdOf s.ir) b).xs = .load := by simp [xsAfterBeat, hlast, hx]
  have hmore : 2 ≤ s.cnt.toNat := by bv_omega
  refine ⟨by simp [ha], by simp [hh], fun hbranch => (nomatch hxs.symm.trans hbranch),
    fun _ => ⟨hclass, ?pos, ?bound, fun hrd => ?address⟩, fun hstore => (nomatch hxs.symm.trans hstore), heven⟩
  case pos => rw [State.loadBeat_cnt]; omega
  case bound => rw [State.loadBeat_cnt, State.loadBeat_ir]; omega
  case address =>
    rw [State.loadBeat_ir] at hrd
    rw [State.loadBeat_ea, haddress hrd, beatsDone, beatsDone, State.loadBeat_cnt, State.loadBeat_ir,
      beatsDone_succ hpos hbound, State.effAddr, State.effAddr, State.loadBeat_getReg, if_neg hrd.symm,
      BitVec.ofNat_add, BitVec.add_assoc]

/-- A write transfer ends the store, or leaves it in its execute state with one beat fewer to come and the
next byte on top. -/
theorem State.storeBeat_coreInv (h : CoreInv s) (hp : s.phase = .xs) : CoreInv s.storeBeat := by
  obtain ⟨hh, ha, hx⟩ := State.phase_eq_xs_iff.1 hp
  obtain ⟨-, -, -, -, hstore, heven⟩ := h
  obtain ⟨hclass, hpos, hbound, haddress, -, hshift⟩ := hstore hx
  by_cases hlast : s.cnt = 1#3
  · exact .of_xs_none (by simp [xsAfterBeat, hlast]) (fun _ => ha) heven
  have hcnt := cnt_sub_one_toNat hpos
  have hxs : s.storeBeat.xs = .store := by simp [xsAfterBeat, hlast, hx]
  have hmore : 2 ≤ s.cnt.toNat := by bv_omega
  have hdone : beatsDone s.storeBeat = beatsDone s + 1 := beatsDone_succ hpos hbound
  have hsh : s.storeBeat.sh =
      s.getReg (rs2Of s.ir) <<< (32 - 8 * beatsOf s.ir) <<< (8 * beatsDone s.storeBeat) := by
    rw [State.storeBeat_sh, hshift, hdone, ← BitVec.shiftLeft_add _ (8 * beatsDone s), Nat.mul_succ]
  refine ⟨by simp [ha], by simp [hh], fun hbranch => (nomatch hxs.symm.trans hbranch),
    fun hload => (nomatch hxs.symm.trans hload), fun _ => ⟨hclass, ?pos, ?bound, ?address, ?byte, hsh⟩, heven⟩
  case pos => rw [State.storeBeat_cnt]; omega
  case bound => rw [State.storeBeat_cnt, State.storeBeat_ir]; omega
  case address =>
    rw [State.storeBeat_ea, haddress, hdone, BitVec.ofNat_add, ← BitVec.add_assoc]
    rfl
  case byte =>
    have hnext : beatsDone s.storeBeat < beatsOf s.ir := by
      rw [hdone, beatsDone]
      omega
    rw [State.storeByte, hsh]
    exact shiftedTopByte_eq_storeByteOf (beatsOf_le_four s.ir) hnext _

/-! ### The clock edge -/

/-- The decode cycle of an instruction: the core is at rest, or in the execute state of that instruction. -/
theorem State.decodeEdge_coreInv {i : Instr} (hp : s.phase = .dec) (hxs : s.xs = .none) (heven : PcEven s)
    (hd : decode s.ir = .instr i) (h : s.decodeEdge i = .next t) : CoreInv t := by
  obtain ⟨hh, -⟩ := State.phase_eq_dec_iff.1 hp
  rcases decode_decodedAs _ _ hd with ⟨hc, hexec⟩ | rfl | rfl | ⟨hc, -⟩ | ⟨hc, -⟩ | ⟨hc, -⟩
  case inl =>
    obtain ⟨v, hv⟩ := hexec s
    cases ((State.decodeEdge_of_single hc).trans hv).symm.trans h
    exact .of_xs_none hxs (fun _ => rfl) heven
  case inr.inl =>
    cases h
    exact .of_xs_none hxs (fun _ => rfl) (target_even (by decide) s.pc _ heven (offJOf_even s.ir))
  case inr.inr.inl =>
    cases h
    exact .of_xs_none hxs (fun _ => rfl) (s.jalrTarget_even _ _)
  case inr.inr.inr.inl =>
    cases (State.decodeEdge_of_branch hc).symm.trans h
    exact State.startBranch_coreInv hh heven ⟨i, hd, hc⟩
  case inr.inr.inr.inr.inl =>
    cases (State.decodeEdge_of_load hc).symm.trans h
    exact State.startLoad_coreInv hh heven ⟨i, hd, hc⟩
  case inr.inr.inr.inr.inr =>
    cases (State.decodeEdge_of_store hc).symm.trans h
    exact State.startStore_coreInv hh heven ⟨i, hd, hc⟩

/-- A fetch that completes leaves a decode cycle with no execute state (R354). -/
theorem State.latchFetch_coreInv (hh : s.halted = false) (hxs : s.xs = .none) (heven : PcEven s)
    (w : Word) : CoreInv (s.latchFetch w) :=
  .of_xs_none hxs (by simp [hh]) (add_four_even s.pc heven)

/-- The decode cycle of an instruction whose class leaves the fetch open completes, and the fetch may
complete beside it. -/
theorem coreEdge_dec_coreInv {inp : CoreInputs} {i : Instr} (hr : inp.rst = false) (hp : s.phase = .dec)
    (hxs : s.xs = .none) (heven : PcEven s) (hd : decode s.ir = .instr i)
    (h : coreEdge inp s = .next t) : CoreInv t := by
  obtain ⟨hh, -⟩ := State.phase_eq_dec_iff.1 hp
  rw [coreEdge_of_dec_instr hr hp hd (aligned_of_coreEdge_next hr h)] at h
  obtain ⟨u, hu, ht⟩ := andThen_eq_next h
  cases hfetch : s.fetchOpen && inp.pAck with
  | false =>
    rw [hfetch] at ht
    cases ht
    exact State.decodeEdge_coreInv hp hxs heven hd hu
  | true =>
    have hsingle : i.cls.single = true := by
      rw [← State.fetchOpen_of_dec hp hxs hd]
      exact (Bool.and_eq_true_iff.1 hfetch).1
    rw [hfetch] at ht
    cases ht
    rcases State.decodeEdge_cases hd with ⟨-, v, hv⟩ | ⟨hnot, -⟩
    · cases hv.symm.trans hu
      exact State.latchFetch_coreInv (s := s.writeResult (rdOf s.ir) v) hh hxs heven _
    · simp [hsingle] at hnot

/-- Settles O39, phase by phase. -/
theorem clockEdgeKeepsTheInvariants : Obligations.ClockEdgeKeepsTheInvariants := by
  intro inp s t hinv h
  have ⟨hactive, hhalt, _, _, _, heven⟩ := hinv
  cases hr : inp.rst with
  | true =>
    cases (coreEdge_of_reset hr).symm.trans h
    exact .of_xs_none rfl nofun (show BitVec.getLsbD 0#32 0 = false from rfl)
  | false =>
    cases hp : s.phase with
    | halt =>
      cases (coreEdge_of_halt hr hp).symm.trans h
      exact hinv
    | dec =>
      have hxs := hactive (State.phase_eq_dec_iff.1 hp).2
      cases hd : decode s.ir with
      | instr i => exact coreEdge_dec_coreInv hr hp hxs heven hd h
      | fatal r =>
        cases (coreEdge_of_dec_fatal hr hp hd).symm.trans h
        exact .of_xs_none rfl (fun _ => rfl) heven
      | unspecJalr => cases (coreEdge_of_dec_unspecJalr hr hp hd).symm.trans h
    | xb =>
      obtain ⟨-, ha, -⟩ := State.phase_eq_xb_iff.1 hp
      cases (coreEdge_of_xb hr hp).symm.trans h
      refine .of_xs_none rfl (fun _ => ha) ?_
      rw [PcEven, State.resolveBranch_pc]
      split
      · exact target_even (by decide) s.pc _ heven (offBOf_even s.ir)
      · exact heven
    | xl =>
      cases (coreEdge_of_xl hr hp).symm.trans h
      split
      · exact State.loadBeat_coreInv hinv hp _
      · exact hinv
    | xs =>
      cases (coreEdge_of_xs hr hp).symm.trans h
      split
      · exact State.storeBeat_coreInv hinv hp
      · exact hinv
    | fr =>
      obtain ⟨hh, -, hxs⟩ := State.phase_eq_fr_iff.1 hp
      have haligned := aligned_of_coreEdge_next hr h (State.fetchOpen_of_fr hp)
      cases (coreEdge_of_fr hr hp haligned).symm.trans h
      split
      · exact State.latchFetch_coreInv hh hxs heven _
      · exact hinv

end Sys2Proof.Machine
end

section
/-! The refinement of the architectural step by the clocked core (spec/50_core_fsm.md R362): what is left of the
instruction in hand, phase by phase, and what one edge does to it. -/

namespace Sys2Proof.Machine

variable {s t : State}

/-! ### The rest of the instruction in hand -/

theorem State.finish_of_halt (hp : s.phase = .halt) : s.finish = .next s := by
  rw [State.finish, hp]

theorem State.finish_of_dec (hp : s.phase = .dec) : s.finish = s.execLatched := by
  rw [State.finish, hp]

theorem State.finish_of_xb (hp : s.phase = .xb) :
    s.finish = .next (s.resolveBranch s.branchTaken (offBOf s.ir)) := by
  rw [State.finish, hp]

theorem State.finish_of_xl (hp : s.phase = .xl) :
    s.finish = .next (State.loadBeats (rdOf s.ir) (pendingBeats s.cnt) s) := by
  rw [State.finish, hp]

theorem State.finish_of_xs (hp : s.phase = .xs) :
    s.finish = .next (State.storeBeats (pendingBeats s.cnt) s) := by
  rw [State.finish, hp]

theorem State.finish_of_fr (hp : s.phase = .fr) : s.finish = .next s := by
  rw [State.finish, hp]

/-- What a ready machine has latched is the whole of its next step. -/
theorem State.latchFetch_finish_of_ready (h : Ready s) : (s.latchFetch s.fetchWord).finish = step s := by
  obtain ⟨hh, -, -⟩ := State.phase_eq_fr_iff.1 h.1
  have hdec : (s.latchFetch s.fetchWord).phase = .dec := State.phase_eq_dec_iff.2 ⟨hh, rfl⟩
  rw [step_of_ready h, State.finish_of_dec hdec]

/-! ### The count of the beats still to come (log entry 16) -/

theorem pendingBeats_ofNat_beatsOf (w : Word) : pendingBeats (BitVec.ofNat 3 (beatsOf w)) = beatsOf w := by
  have hpos := one_le_beatsOf w
  have hcnt := ofNat_beatsOf_toNat w
  rw [pendingBeats, if_neg, hcnt]
  intro hzero
  rw [hzero] at hcnt
  simp only [BitVec.toNat_ofNat] at hcnt
  omega

theorem pendingBeats_one : pendingBeats 1#3 = 1 := rfl

theorem pendingBeats_eq_succ {c : BitVec 3} (h : c ≠ 1#3) : pendingBeats c = pendingBeats (c - 1#3) + 1 := by
  unfold pendingBeats
  split <;> split <;> bv_omega

/-! ### The decode cycle -/

/-- A branch word in its execute state compares as its meaning does. -/
theorem State.branchTaken_of_condOf {c : BranchCond} (h : condOf s.ir = some c) :
    s.branchTaken = condTaken c (s.getReg (rs1Of s.ir)) (s.getReg (rs2Of s.ir)) := by
  rw [State.branchTaken, h]

theorem State.startLoad_phase (hh : s.halted = false) (rd : RegIdx) (a : Word) (n : Nat) :
    (s.startLoad rd a n).phase = .xl :=
  State.phase_eq_xl_iff.2 ⟨hh, rfl, rfl⟩

theorem State.startStore_phase (hh : s.halted = false) (a v : Word) (n : Nat) :
    (s.startStore a v n).phase = .xs :=
  State.phase_eq_xs_iff.2 ⟨hh, rfl, rfl⟩

/-- The decode cycle of an instruction leaves the rest of its meaning to be done. -/
theorem State.decodeEdge_finish {i : Instr} (hp : s.phase = .dec) (hxs : s.xs = .none)
    (hd : decode s.ir = .instr i) (h : s.decodeEdge i = .next t) : t.finish = exec i s := by
  obtain ⟨hh, -⟩ := State.phase_eq_dec_iff.1 hp
  rcases decode_decodedAs _ _ hd with
    ⟨hc, hexec⟩ | rfl | rfl | ⟨hc, c, hcond, hexec⟩ | ⟨hc, -, hexec⟩ | ⟨hc, -, hexec⟩
  case inl =>
    obtain ⟨v, hv⟩ := hexec s
    cases ((State.decodeEdge_of_single hc).trans hv).symm.trans h
    rw [hv, State.finish_of_fr (State.writeResult_phase hh hxs _ v)]
  case inr.inl =>
    cases h
    exact State.finish_of_fr (State.phase_eq_fr_iff.2 ⟨hh, rfl, hxs⟩)
  case inr.inr.inl =>
    cases h
    exact State.finish_of_fr (State.phase_eq_fr_iff.2 ⟨hh, rfl, hxs⟩)
  case inr.inr.inr.inl =>
    cases (State.decodeEdge_of_branch hc).symm.trans h
    have hxb : s.startBranch.phase = .xb := State.phase_eq_xb_iff.2 ⟨hh, rfl, rfl⟩
    rw [State.finish_of_xb hxb,
      State.branchTaken_of_condOf (s := s.startBranch) hcond, hexec]
    rfl
  case inr.inr.inr.inr.inl =>
    cases (State.decodeEdge_of_load hc).symm.trans h
    rw [State.finish_of_xl (State.startLoad_phase hh _ _ _), State.startLoad_cnt,
      pendingBeats_ofNat_beatsOf, hexec]
    rfl
  case inr.inr.inr.inr.inr =>
    cases (State.decodeEdge_of_store hc).symm.trans h
    rw [State.finish_of_xs (State.startStore_phase hh _ _ _), State.startStore_cnt,
      pendingBeats_ofNat_beatsOf, hexec]
    rfl

/-! ### One beat -/

/-- A read beat leaves the other beats of the load to be done. -/
theorem State.loadBeat_finish (hp : s.phase = .xl) :
    (s.loadBeat (rdOf s.ir) (s.readByte s.ea)).finish = s.finish := by
  obtain ⟨hh, ha, hx⟩ := State.phase_eq_xl_iff.1 hp
  rw [State.finish_of_xl hp]
  by_cases hlast : s.cnt = 1#3
  · have hfr : (s.loadBeat (rdOf s.ir) (s.readByte s.ea)).phase = .fr :=
      State.phase_eq_fr_iff.2 ⟨hh, ha, if_pos hlast⟩
    rw [State.finish_of_fr hfr, hlast, pendingBeats_one]
    rfl
  · have hmore : (s.loadBeat (rdOf s.ir) (s.readByte s.ea)).phase = .xl :=
      State.phase_eq_xl_iff.2 ⟨hh, ha, (if_neg hlast).trans hx⟩
    rw [State.finish_of_xl hmore, pendingBeats_eq_succ hlast]
    rfl

/-- A write beat leaves the other beats of the store to be done. -/
theorem State.storeBeat_finish (hp : s.phase = .xs) :
    (s.storeBeat.writeByte s.ea s.storeByte).finish = s.finish := by
  obtain ⟨hh, ha, hx⟩ := State.phase_eq_xs_iff.1 hp
  rw [State.finish_of_xs hp]
  by_cases hlast : s.cnt = 1#3
  · have hfr : (s.storeBeat.writeByte s.ea s.storeByte).phase = .fr :=
      State.phase_eq_fr_iff.2 ⟨hh, ha, if_pos hlast⟩
    rw [State.finish_of_fr hfr, hlast, pendingBeats_one]
    rfl
  · have hmore : (s.storeBeat.writeByte s.ea s.storeByte).phase = .xs :=
      State.phase_eq_xs_iff.2 ⟨hh, ha, (if_neg hlast).trans hx⟩
    rw [State.finish_of_xs hmore, pendingBeats_eq_succ hlast]
    rfl

/-! ### One clock cycle -/

/-- A cycle that ends no fetch leaves the outcome of the instruction in hand as it is. -/
theorem memEdge_keeps_finish {ack : Bool} (hactive : s.active = true → s.xs = .none)
    (h : memEdge ack s = .next t) (hfetch : (s.fetchOpen && ack) = false) : t.finish = s.finish := by
  cases hp : s.phase with
  | halt =>
    cases (memEdge_of_halt ack hp).symm.trans h
    rfl
  | dec =>
    have hxs := hactive (State.phase_eq_dec_iff.1 hp).2
    rw [State.finish_of_dec hp]
    cases hd : decode s.ir with
    | instr i =>
      have ho := State.fetchOpen_of_dec hp hxs hd
      rw [memEdge_of_dec_instr ack hp hxs hd fun hc => aligned_of_memEdge_next h (ho.trans hc), ← ho,
        hfetch] at h
      obtain ⟨u, hu, ht⟩ := andThen_eq_next h
      cases ht
      rw [State.execLatched_of_instr hd]
      exact State.decodeEdge_finish hp hxs hd hu
    | fatal r =>
      cases (memEdge_of_dec_fatal ack hp hxs hd).symm.trans h
      rw [State.execLatched, hd]
      exact State.finish_of_halt (State.phase_eq_halt_iff.2 rfl)
    | unspecJalr => cases (memEdge_of_dec_unspecJalr ack hp hd).symm.trans h
  | xb =>
    obtain ⟨hh, ha, -⟩ := State.phase_eq_xb_iff.1 hp
    cases (memEdge_of_xb ack hp).symm.trans h
    rw [State.finish_of_xb hp]
    exact State.finish_of_fr (State.phase_eq_fr_iff.2 ⟨hh, ha, rfl⟩)
  | xl =>
    cases (memEdge_of_xl ack hp).symm.trans h
    split
    · exact State.loadBeat_finish hp
    · rfl
  | xs =>
    cases (memEdge_of_xs ack hp).symm.trans h
    split
    · exact State.storeBeat_finish hp
    · rfl
  | fr =>
    rw [State.fetchOpen_of_fr hp, Bool.true_and] at hfetch
    cases (memEdge_of_fr ack hp (aligned_of_memEdge_next h (State.fetchOpen_of_fr hp))).symm.trans h
    rw [hfetch]
    rfl

/-- A cycle that ends a fetch completes the instruction in hand, if there is one, and leaves the whole next
step to be done. -/
theorem memEdge_fetch_finish {ack : Bool} (htags : s.cfg.tagsOk = true) (h : memEdge ack s = .next t)
    (hfetch : (s.fetchOpen && ack) = true) : ∃ u, s.finish = .next u ∧ t.finish = step u := by
  obtain ⟨ho, rfl⟩ := Bool.and_eq_true_iff.1 hfetch
  have haligned := aligned_of_memEdge_next h ho
  rcases State.fetchOpen_cases ho with hp | ⟨hp, hxs, i, hd, hsingle⟩
  · cases (memEdge_of_fr true hp haligned).symm.trans h
    exact ⟨s, State.finish_of_fr hp, State.latchFetch_finish_of_ready ⟨hp, haligned, htags⟩⟩
  · obtain ⟨hh, -⟩ := State.phase_eq_dec_iff.1 hp
    rcases State.decodeEdge_cases hd with ⟨-, v, hv⟩ | ⟨hnot, -⟩
    · rw [memEdge_of_dec_instr true hp hxs hd fun _ => haligned, hv, hsingle] at h
      cases h
      refine ⟨s.writeResult (rdOf s.ir) v, ?_,
        State.latchFetch_finish_of_ready (s := s.writeResult (rdOf s.ir) v)
          ⟨State.writeResult_phase hh hxs _ v, haligned, htags⟩⟩
      rw [State.finish_of_dec hp, State.execLatched_of_instr hd, ← State.decodeEdge_of_single hsingle, hv]
    · simp [hsingle] at hnot

/-- Settles O41: the one kind of cycle hands on what is left of the instruction in hand, the other begins the
next step. -/
theorem clockedCoreRefinesTheStep : Obligations.ClockedCoreRefinesTheStep := by
  intro ack s t htags hactive h
  split
  case isTrue hfetch => exact memEdge_fetch_finish htags h hfetch
  case isFalse hfetch => exact memEdge_keeps_finish hactive h (eq_false_of_ne_true hfetch)

end Sys2Proof.Machine
end

section
/-! The clock edge against the spec's own listing (spec/50_core_fsm.md R355), and one answered data beat
(R351, R352). -/

namespace Sys2Proof.Machine

variable {s t : State} {inp : CoreInputs}

/-! ### The parts of the listing that a phase does not reach -/

theorem listingFetch_of_closed (h : s.fetchOpen = false) (n : State) : listingFetch inp s n = n := by
  simp [listingFetch, h]

theorem listingBranch_of_ne (h : s.xs ≠ .branch) (n : State) : listingBranch s n = n :=
  if_neg h

theorem listingLoad_of_ne (h : s.xs ≠ .load) (n : State) : listingLoad inp s n = n :=
  if_neg fun hx => h hx.1

theorem listingStore_of_ne (h : s.xs ≠ .store) (n : State) : listingStore inp s n = n :=
  if_neg fun hx => h hx.1

/-- Outside the execute states the listing is its decode part with the fetch part on top. -/
theorem listingEdge_of_xs_none (hxs : s.xs = .none) :
    listingEdge inp s = andThen (listingDecode s { s with active := false, halted := false }) fun n =>
      .next (listingFetch inp s n) := by
  simp only [listingEdge, listingBranch_of_ne (s := s) (by simp [hxs]),
    listingLoad_of_ne (s := s) (by simp [hxs]), listingStore_of_ne (s := s) (by simp [hxs])]

/-- Outside the decode cycle the listing starts from its defaults, which change nothing. -/
theorem listingDecode_of_inactive (hh : s.halted = false) (ha : s.active = false) :
    listingDecode s { s with active := false, halted := false } = .next s := by
  obtain ⟨x, pc, ir, active, xs, ea, cnt, sh, halted, select, imem, dmem, cfg⟩ := s
  subst hh ha
  rfl

/-- In an execute state the program port is closed (R340). -/
theorem State.fetchOpen_of_xs_ne (h : s.xs ≠ .none) : s.fetchOpen = false := by
  simp [State.fetchOpen, h]

/-- In an execute state the listing is the part of that state alone. -/
theorem listingEdge_of_execute (hh : s.halted = false) (ha : s.active = false) (hxs : s.xs ≠ .none) :
    listingEdge inp s = .next (listingStore inp s (listingLoad inp s (listingBranch s s))) := by
  rw [listingEdge, listingDecode_of_inactive hh ha]
  simp only [andThen, listingFetch_of_closed (State.fetchOpen_of_xs_ne hxs)]

/-! ### The decode part (R348 to R353) -/

/-- The decode part of the listing is the decode cycle's part of the edge. -/
theorem listingDecode_of_instr {i : Instr} (hp : s.phase = .dec) (hd : decode s.ir = .instr i) :
    listingDecode s { s with active := false, halted := false } = s.decodeEdge i := by
  obtain ⟨hh, ha⟩ := State.phase_eq_dec_iff.1 hp
  simp only [listingDecode, ha, if_true, hd]
  rcases decode_decodedAs _ _ hd with ⟨hc, hexec⟩ | rfl | rfl | ⟨hc, -⟩ | ⟨hc, -⟩ | ⟨hc, -⟩
  case inl =>
    obtain ⟨v, hv⟩ := hexec s
    have hresult : andThen (exec i s) (fun t => .next { s with active := false, halted := false, x := t.x }) =
        exec i s := by
      rw [hv, andThen]
      simp only [State.writeResult, State.retire, State.setReg, hh]
    rw [State.decodeEdge_of_single hc]
    cases hcls : i.cls <;> simp [hcls, InstrClass.single] at hc ⊢ <;> exact hresult
  case inr.inl =>
    simp only [Instr.cls, State.decodeEdge, exec, execJal, State.jumpTo, State.retire, State.setReg,
      State.jalTarget, hh]
  case inr.inr.inl =>
    simp only [Instr.cls, State.decodeEdge, exec, execJalr, State.jumpTo, State.retire, State.setReg,
      State.jalrTarget, hh]
  case inr.inr.inr.inl =>
    rw [State.decodeEdge_of_branch hc, hc]
    simp only [State.startBranch, hh]
  case inr.inr.inr.inr.inl =>
    rw [State.decodeEdge_of_load hc, hc]
    simp only [State.startLoad, State.setReg, State.effAddr, hh]
  case inr.inr.inr.inr.inr =>
    rw [State.decodeEdge_of_store hc, hc]
    simp only [State.startStore, State.effAddr, hh]

/-- The fetch part of the listing latches the word beside what the decode cycle leaves, whose `pc` is that of
the instruction in hand when the port is open. -/
theorem listingFetch_eq (hpc : s.fetchOpen = true → t.pc = s.pc) :
    listingFetch inp s t = if s.fetchOpen && inp.pAck then t.latchFetch inp.pReadData else t := by
  rw [listingFetch]
  split
  · next hfetch =>
    rw [State.latchFetch, hpc (Bool.and_eq_true_iff.1 hfetch).1]
  · rfl

/-- The decode cycle of a class that leaves the port open does not write `pc`. -/
theorem State.decodeEdge_pc {i : Instr} (hp : s.phase = .dec) (hxs : s.xs = .none)
    (hd : decode s.ir = .instr i) (h : s.decodeEdge i = .next t) (ho : s.fetchOpen = true) :
    t.pc = s.pc := by
  rw [State.fetchOpen_of_dec hp hxs hd] at ho
  rcases State.decodeEdge_cases hd with ⟨-, v, hv⟩ | ⟨hnot, -⟩
  · cases hv.symm.trans h
    rfl
  · simp [ho] at hnot

theorem listingEdge_of_dec (hr : inp.rst = false) (hp : s.phase = .dec) (hxs : s.xs = .none)
    (haligned : s.fetchOpen = true → s.pcMisaligned = false) : coreEdge inp s = listingEdge inp s := by
  obtain ⟨hh, ha⟩ := State.phase_eq_dec_iff.1 hp
  rw [listingEdge_of_xs_none hxs]
  cases hd : decode s.ir with
  | instr i =>
    rw [coreEdge_of_dec_instr hr hp hd haligned, listingDecode_of_instr hp hd]
    cases hu : s.decodeEdge i with
    | next u =>
      rw [andThen, andThen, listingFetch_eq (State.decodeEdge_pc hp hxs hd hu)]
    | fault r => rfl
    | refused r => rfl
  | fatal r =>
    have hclosed : s.fetchOpen = false := by simp [State.fetchOpen, ha, single, hd]
    rw [coreEdge_of_dec_fatal hr hp hd]
    simp only [listingDecode, ha, if_true, hd, andThen, listingFetch_of_closed hclosed, State.raiseHalt, hxs]
  | unspecJalr =>
    rw [coreEdge_of_dec_unspecJalr hr hp hd]
    simp only [listingDecode, ha, if_true, hd, andThen]

/-- Settles O42, phase by phase: the defaults are the end of the decode cycle, and each other part of the
listing acts in its own phase. -/
theorem edgeIsTheListing : Obligations.EdgeIsTheListing := by
  intro inp s hr hh hactive haligned
  cases hp : s.phase with
  | halt => simp [State.phase_eq_halt_iff.1 hp] at hh
  | dec => exact listingEdge_of_dec hr hp (hactive (State.phase_eq_dec_iff.1 hp).2) haligned
  | xb =>
    obtain ⟨-, ha, hx⟩ := State.phase_eq_xb_iff.1 hp
    rw [coreEdge_of_xb hr hp, listingEdge_of_execute hh ha (by simp [hx]),
      listingStore_of_ne (by simp [hx]), listingLoad_of_ne (by simp [hx]), listingBranch, if_pos hx]
    rfl
  | xl =>
    obtain ⟨-, ha, hx⟩ := State.phase_eq_xl_iff.1 hp
    rw [coreEdge_of_xl hr hp, listingEdge_of_execute hh ha (by simp [hx]),
      listingStore_of_ne (by simp [hx]), listingBranch_of_ne (by simp [hx])]
    simp only [listingLoad, hx, true_and]
    split
    · simp only [State.loadBeat, State.setReg, xsAfterBeat, hx]
    · rfl
  | xs =>
    obtain ⟨-, ha, hx⟩ := State.phase_eq_xs_iff.1 hp
    rw [coreEdge_of_xs hr hp, listingEdge_of_execute hh ha (by simp [hx]),
      listingLoad_of_ne (by simp [hx]), listingBranch_of_ne (by simp [hx])]
    simp only [listingStore, hx, true_and]
    split
    · simp only [State.storeBeat, xsAfterBeat, hx]
    · rfl
  | fr =>
    obtain ⟨-, ha, hx⟩ := State.phase_eq_fr_iff.1 hp
    have ho := State.fetchOpen_of_fr hp
    rw [coreEdge_of_fr hr hp (haligned ho), listingEdge_of_xs_none hx, listingDecode_of_inactive hh ha,
      andThen, listingFetch_eq fun _ => rfl, ho, Bool.true_and]

/-! ### One answered beat -/

/-- R361 leaves a load or store in its execute state at least one beat. -/
theorem CoreInv.cnt_ne_zero (h : CoreInv s) (ho : s.dataOpen = true) : s.cnt ≠ 0#3 := by
  obtain ⟨hactive, -, -, hload, hstore, -⟩ := h
  have hpos : 1 ≤ s.cnt.toNat := by
    rcases State.dataOpen_cases hactive ho with hp | hp
    · obtain ⟨-, hpos, -⟩ := hload (State.phase_eq_xl_iff.1 hp).2.2
      exact hpos
    · obtain ⟨-, hpos, -⟩ := hstore (State.phase_eq_xs_iff.1 hp).2.2
      exact hpos
  rintro hzero
  simp [hzero] at hpos

theorem State.dataRequest_of_open (ho : s.dataOpen = true) :
    s.dataRequest = ⟨true, true, adapt s.cfg.daddrW s.ea.toNat, s.dataWrite,
      if s.dataWrite then s.storeByte.toNat else 0, s.tagWire s.cfg.dataDest s.ea⟩ := by
  rw [State.dataRequest, controller, ho, if_pos rfl]

/-- The first remaining beat is the one the port requests (R345). -/
theorem State.dataRequest_eq_beatAt_zero (ho : s.dataOpen = true) :
    s.dataRequest.address = (s.beatAt 0).address.toNat % 2 ^ s.cfg.daddrW ∧
      s.dataRequest.writeEnable = (s.beatAt 0).isWrite ∧
      s.dataRequest.writeData = (s.beatAt 0).datum.toNat := by
  rw [State.dataRequest_of_open ho]
  refine ⟨?_, rfl, ?_⟩
  · rw [State.beatAt, BitVec.add_zero, adapt]
  · cases hw : s.dataWrite with
    | true => simp [State.beatAt, hw, State.storeByte]
    | false => simp [State.beatAt, hw]

/-- Settles O59: the answered edge makes one beat, and the beats left are those behind the first. -/
theorem answeredBeatIsTheFirstRemaining : Obligations.AnsweredBeatIsTheFirstRemaining := by
  intro s hinv ho
  have hp := State.dataOpen_cases hinv.1 ho
  have hc := hinv.cnt_ne_zero ho
  obtain ⟨t, hedge, hb⟩ := memEdge_true_beatMade hp
  obtain ⟨haddress, hwrite, hdatum⟩ := State.dataRequest_eq_beatAt_zero ho
  exact ⟨memEdge_false_waits (.inr hp), t, s.beatAt 0, hedge, dataTransfer_true ho,
    hb.remainingBeats hc, hb.cnt_toNat hc, by rw [State.dataRequest_isRequest, ho], haddress, hwrite, hdatum⟩

end Sys2Proof.Machine
end

section
/-! Words as their fields (spec/30_encoding.md R141 to R149): every word is the layout of its own fields, so what
decodes to an instruction encodes back, and a row of the opcode table is a condition on the function fields
(R150 to R160). -/

namespace Sys2Proof

variable {w v : Word}

/-! ### A word is the layout of its fields -/

theorem encR_fields (w : Word) :
    encR (functHiOf w) (rs2Of w) (rs1Of w) (functOf w) (rdOf w) (opcodeOf w) = w := by
  apply BitVec.eq_of_getLsbD_eq
  intro i hi
  interval_cases i <;> simp [encR, getElem_fieldAt, functHiOf, rs2Of, rs1Of, functOf, rdOf, opcodeOf]

theorem encI_fields (w : Word) : encI (immIOf w) (rs1Of w) (functOf w) (rdOf w) (opcodeOf w) = w := by
  apply BitVec.eq_of_getLsbD_eq
  intro i hi
  interval_cases i <;> simp [encI, getElem_fieldAt, immIOf, rs1Of, functOf, rdOf, opcodeOf]

theorem encU_fields (w : Word) : encU (immUOf w) (rdOf w) (opcodeOf w) = w := by
  apply BitVec.eq_of_getLsbD_eq
  intro i hi
  interval_cases i <;> simp [encU, getElem_fieldAt, immUOf, rdOf, opcodeOf]

theorem encS_fields (w : Word) :
    encS (immSOf w) (rs2Of w) (rs1Of w) (functOf w) (opcodeOf w) = w := by
  apply BitVec.eq_of_getLsbD_eq
  intro i hi
  interval_cases i <;> simp [encS, getElem_fieldAt, immSOf, rs2Of, rs1Of, functOf, opcodeOf]

theorem encJ_fields (w : Word) : encJ (offJOf w) (rdOf w) (opcodeOf w) = w := by
  apply BitVec.eq_of_getLsbD_eq
  intro i hi
  interval_cases i <;> simp [encJ, getElem_fieldAt, offJOf, rdOf, opcodeOf]

theorem encB_fields (w : Word) :
    encB (offBOf w) (rs2Of w) (rs1Of w) (functOf w) (opcodeOf w) = w := by
  apply BitVec.eq_of_getLsbD_eq
  intro i hi
  interval_cases i <;> simp [encB, getElem_fieldAt, offBOf, rs2Of, rs1Of, functOf, opcodeOf]

/-! ### Bits that a mask keeps -/

/-- Two words that agree on a mask have every field in common that the mask covers. -/
theorem extractLsb'_eq_of_and_eq {mask : Word} {lo len : Nat}
    (hmask : mask.extractLsb' lo len = BitVec.allOnes len) (h : v &&& mask = w &&& mask) :
    v.extractLsb' lo len = w.extractLsb' lo len := by
  have hfield := congrArg (BitVec.extractLsb' lo len) h
  rwa [BitVec.extractLsb'_and, BitVec.extractLsb'_and, hmask, BitVec.and_allOnes,
    BitVec.and_allOnes] at hfield

theorem encR_and_low25_congr (a a' : BitVec 7) (b c : RegIdx) (d : BitVec 3) (e : RegIdx) (f : BitVec 7) :
    encR a b c d e f &&& 0x01FFFFFF#32 = encR a' b c d e f &&& 0x01FFFFFF#32 := by
  apply BitVec.eq_of_getLsbD_eq
  intro i hi
  interval_cases i <;> simp [encR, getElem_fieldAt]

theorem encR_and_top5_low25 (a : BitVec 7) (b c : RegIdx) (d : BitVec 3) (e : RegIdx) (f : BitVec 7) :
    encR a b c d e f &&& 0xF9FFFFFF#32 = encR (fieldAt 7 (a.extractLsb' 2 5) 2) b c d e f := by
  apply BitVec.eq_of_getLsbD_eq
  intro i hi
  interval_cases i <;> simp [encR, getElem_fieldAt]

/-! ### The encoding of a decoded instruction -/

theorem functOf_eq_seven (h0 : functOf w ≠ 0b000#3) (h1 : functOf w ≠ 0b001#3) (h2 : functOf w ≠ 0b010#3)
    (h3 : functOf w ≠ 0b011#3) (h4 : functOf w ≠ 0b100#3) (h5 : functOf w ≠ 0b101#3)
    (h6 : functOf w ≠ 0b110#3) : functOf w = 0b111#3 := by
  bv_omega

/-- The instruction has an encoding, it is `w`, and no bit of it goes unexamined. -/
def EncodesExactly (w : Word) (i : Instr) : Prop :=
  i.wellFormed = true ∧ encode i = w ∧ i.examined = BitVec.allOnes 32

theorem decodeAlu_encodes {i : Instr} (hop : opcodeOf w = opAlu) (h : decodeAlu w = .instr i) :
    EncodesExactly w i := by
  have hw := encR_fields w
  rw [hop] at hw
  unfold decodeAlu at h
  simp only at h
  repeat' split at h
  all_goals cases h
  all_goals refine ⟨rfl, Eq.trans ?_ hw, rfl⟩
  all_goals clear hw
  all_goals simp only [encode, *]
  rw [functOf_eq_seven] <;> assumption

theorem decodeBranch_encodes {i : Instr} (hop : opcodeOf w = opBranch) (h : decodeBranch w = .instr i) :
    EncodesExactly w i := by
  have hw := encB_fields w
  have heven := evenOffset_eq_true_iff.2 (Machine.offBOf_even w)
  rw [hop] at hw
  unfold decodeBranch at h
  simp only at h
  repeat' split at h
  all_goals cases h
  all_goals refine ⟨heven, Eq.trans ?_ hw, rfl⟩
  all_goals simp only [encode, *]

theorem decodeLoad_encodes {i : Instr} (hop : opcodeOf w = opLoad) (h : decodeLoad w = .instr i) :
    EncodesExactly w i := by
  have hw := encI_fields w
  rw [hop] at hw
  unfold decodeLoad at h
  repeat' split at h
  all_goals cases h
  all_goals refine ⟨rfl, Eq.trans ?_ hw, rfl⟩
  all_goals simp only [encode, *]

theorem decodeStore_encodes {i : Instr} (hop : opcodeOf w = opStore) (h : decodeStore w = .instr i) :
    EncodesExactly w i := by
  have hw := encS_fields w
  rw [hop] at hw
  unfold decodeStore at h
  repeat' split at h
  all_goals cases h
  all_goals refine ⟨rfl, Eq.trans ?_ hw, rfl⟩
  all_goals simp only [encode, *]

/-- The immediate shift that a word is, by its function fields (R152). -/
def ShiftImmWord (w : Word) (i : Instr) : Prop :=
  (i = .slli (rdOf w) (rs1Of w) (shamtOf w) ∧ functOf w = 0b001#3) ∨
  (i = .srli (rdOf w) (rs1Of w) (shamtOf w) ∧ functOf w = 0b101#3 ∧ top5Of w = 0b00000#5) ∨
  (i = .srai (rdOf w) (rs1Of w) (shamtOf w) ∧ functOf w = 0b101#3 ∧ top5Of w = 0b01000#5)

theorem decodeAluImm_encodes {i : Instr} (hop : opcodeOf w = opAluImm) (h : decodeAluImm w = .instr i) :
    EncodesExactly w i ∨ ShiftImmWord w i := by
  have hw := encI_fields w
  rw [hop] at hw
  unfold decodeAluImm at h
  simp only at h
  repeat' split at h
  case isFalse.isTrue hf => cases h; exact .inr (.inl ⟨rfl, hf⟩)
  case isFalse.isFalse.isFalse.isFalse.isFalse.isTrue.isTrue hf ht =>
    cases h; exact .inr (.inr (.inl ⟨rfl, hf, ht⟩))
  case isFalse.isFalse.isFalse.isFalse.isFalse.isTrue.isFalse.isTrue hf _ ht =>
    cases h; exact .inr (.inr (.inr ⟨rfl, hf, ht⟩))
  all_goals cases h
  all_goals refine .inl ⟨rfl, Eq.trans ?_ hw, rfl⟩
  all_goals clear hw
  all_goals simp only [encode, *]
  rw [functOf_eq_seven] <;> assumption

/-- A decoded instruction is an immediate shift, or every bit of its word is examined. -/
theorem decode_encodes {i : Instr} (h : decode w = .instr i) :
    EncodesExactly w i ∨ (opcodeOf w = opAluImm ∧ ShiftImmWord w i) := by
  unfold decode at h
  split at h
  case isTrue hop => exact .inl (decodeAlu_encodes hop h)
  split at h
  case isTrue hop => exact (decodeAluImm_encodes hop h).imp_right fun hs => ⟨hop, hs⟩
  split at h
  case isTrue hop => cases h; exact .inl ⟨rfl, by rw [encode, ← hop, encU_fields], rfl⟩
  split at h
  case isTrue hop => cases h; exact .inl ⟨rfl, by rw [encode, ← hop, encU_fields], rfl⟩
  split at h
  case isTrue hop =>
    cases h
    exact .inl ⟨evenOffset_eq_true_iff.2 (Machine.offJOf_even w), by rw [encode, ← hop, encJ_fields], rfl⟩
  split at h
  case isTrue hop =>
    split at h
    case isTrue hf => cases h; exact .inl ⟨rfl, by rw [encode, ← hf, ← hop, encI_fields], rfl⟩
    case isFalse => cases h
  split at h
  case isTrue hop => exact .inl (decodeBranch_encodes hop h)
  split at h
  case isTrue hop => exact .inl (decodeLoad_encodes hop h)
  split at h
  case isTrue hop => exact .inl (decodeStore_encodes hop h)
  · cases h

/-! ### The immediate shifts (R160) -/

theorem decode_of_shiftImmWord {i : Instr} (hop : opcodeOf w = opAluImm) (h : ShiftImmWord w i) :
    decode w = .instr i := by
  rw [decode_of_opAluImm hop]
  obtain ⟨rfl, hf⟩ | ⟨rfl, hf, ht⟩ | ⟨rfl, hf, ht⟩ := h
  · simp [decodeAluImm, hf]
  · simp [decodeAluImm, hf, ht]
  · simp [decodeAluImm, hf, ht]

theorem top5Of_eq_extractLsb' (w : Word) : top5Of w = (functHiOf w).extractLsb' 2 5 := by
  rw [← top5Of_encR (functHiOf w) (rs2Of w) (rs1Of w) (functOf w) (rdOf w) (opcodeOf w), encR_fields]

/-- The bits that R160 names are the only ones in which the encoding of an immediate shift may differ from
its word. -/
theorem ShiftImmWord.encode_and_examined {i : Instr} (hop : opcodeOf w = opAluImm)
    (h : ShiftImmWord w i) : encode i &&& i.examined = w &&& i.examined := by
  have hw := encR_fields w
  rw [hop] at hw
  obtain ⟨rfl, hf⟩ | ⟨rfl, hf, ht⟩ | ⟨rfl, hf, ht⟩ := h
  case inl =>
    rw [hf] at hw
    exact (encR_and_low25_congr ..).trans (congrArg (· &&& 0x01FFFFFF#32) hw)
  case inr.inl =>
    rw [hf] at hw
    have hkept := congrArg (· &&& 0xF9FFFFFF#32) hw
    simp only [encR_and_top5_low25, ← top5Of_eq_extractLsb', ht] at hkept
    rw [encode, Instr.examined, ← hkept, encR_and_top5_low25]
    rfl
  case inr.inr =>
    rw [hf] at hw
    have hkept := congrArg (· &&& 0xF9FFFFFF#32) hw
    simp only [encR_and_top5_low25, ← top5Of_eq_extractLsb', ht] at hkept
    rw [encode, Instr.examined, ← hkept, encR_and_top5_low25]
    rfl

/-- Words that agree on the low 25 bits have every field below the function selector in common. -/
theorem fields_eq_of_and_eq {mask : Word} (hlow : mask.extractLsb' 0 25 = BitVec.allOnes 25)
    (h : v &&& mask = w &&& mask) :
    opcodeOf v = opcodeOf w ∧ rdOf v = rdOf w ∧ functOf v = functOf w ∧ rs1Of v = rs1Of w ∧
      shamtOf v = shamtOf w := by
  have hfield := extractLsb'_eq_of_and_eq hlow h
  have hsub (lo len : Nat) (hle : lo + len ≤ 25) : v.extractLsb' lo len = w.extractLsb' lo len := by
    have hpart := congrArg (BitVec.extractLsb' lo len) hfield
    rwa [BitVec.extractLsb'_extractLsb'_of_le hle, BitVec.extractLsb'_extractLsb'_of_le hle] at hpart
  exact ⟨hsub 0 7 (by decide), hsub 7 5 (by decide), hsub 12 3 (by decide), hsub 15 5 (by decide),
    hsub 20 5 (by decide)⟩

/-- A word that agrees with an immediate shift on the examined bits is the same immediate shift. -/
theorem ShiftImmWord.of_and_examined {i : Instr} (h : ShiftImmWord w i)
    (hv : v &&& i.examined = w &&& i.examined) : opcodeOf v = opcodeOf w ∧ ShiftImmWord v i := by
  obtain ⟨rfl, hf⟩ | ⟨rfl, hf, ht⟩ | ⟨rfl, hf, ht⟩ := h
  case inl =>
    obtain ⟨hop, hrd, hfunct, hrs1, hshamt⟩ := fields_eq_of_and_eq (mask := 0x01FFFFFF#32) (by decide) hv
    exact ⟨hop, .inl ⟨by rw [hrd, hrs1, hshamt], hfunct.trans hf⟩⟩
  case inr.inl =>
    obtain ⟨hop, hrd, hfunct, hrs1, hshamt⟩ := fields_eq_of_and_eq (mask := 0xF9FFFFFF#32) (by decide) hv
    have htop : top5Of v = top5Of w := extractLsb'_eq_of_and_eq (mask := 0xF9FFFFFF#32) (by decide) hv
    exact ⟨hop, .inr (.inl ⟨by rw [hrd, hrs1, hshamt], hfunct.trans hf, htop.trans ht⟩)⟩
  case inr.inr =>
    obtain ⟨hop, hrd, hfunct, hrs1, hshamt⟩ := fields_eq_of_and_eq (mask := 0xF9FFFFFF#32) (by decide) hv
    have htop : top5Of v = top5Of w := extractLsb'_eq_of_and_eq (mask := 0xF9FFFFFF#32) (by decide) hv
    exact ⟨hop, .inr (.inr ⟨by rw [hrd, hrs1, hshamt], hfunct.trans hf, htop.trans ht⟩)⟩

theorem ShiftImmWord.wellFormed {i : Instr} (h : ShiftImmWord w i) : i.wellFormed = true := by
  obtain ⟨rfl, -⟩ | ⟨rfl, -⟩ | ⟨rfl, -⟩ := h <;> rfl

/-- Settles O2: a word with every bit examined is its instruction's encoding, and an immediate shift is
decoded from the examined fields alone. -/
theorem decodeDropsOnlyUnexaminedBits : Obligations.DecodeDropsOnlyUnexaminedBits := by
  intro w i hd
  rcases decode_encodes hd with ⟨hwf, henc, hall⟩ | ⟨hop, hshift⟩
  · refine ⟨hwf, by rw [henc], fun v hv => ?_⟩
    rw [hall, BitVec.and_allOnes, BitVec.and_allOnes] at hv
    rw [hv, hd]
  · refine ⟨hshift.wellFormed, hshift.encode_and_examined hop, fun v hv => ?_⟩
    obtain ⟨hopv, hshiftv⟩ := hshift.of_and_examined hv
    exact decode_of_shiftImmWord (hopv.trans hop) hshiftv

end Sys2Proof
end

section
/-! The opcode table (spec/30_encoding.md R150 to R157) and the reasons of the fatal halt
(spec/60_exceptions.md R381): each row and each reason as a condition on the fields that the decoder reads; and
the unscattered immediates (R147). -/

namespace Sys2Proof

variable {w : Word}

/-! ### The rows of the table -/

/-- The encoder's word is a word of the instruction's row. -/
theorem row_covers_encode (i : Instr) : i.row.covers (encode i) := by
  cases i with
  | add rd rs1 rs2 | sub rd rs1 rs2 | sll rd rs1 rs2 | slt rd rs1 rs2 | sltu rd rs1 rs2 | xor rd rs1 rs2
  | srl rd rs1 rs2 | sra rd rs1 rs2 | or rd rs1 rs2 | and rd rs1 rs2 =>
    exact (Laws.encR_mask rd rs1 rs2 _ _ _).trans rfl
  | addi rd rs imm | slti rd rs imm | sltiu rd rs imm | xori rd rs imm | andi rd rs imm | jalr rd rs imm
  | lb rd rs imm | lh rd rs imm | lw rd rs imm => exact (Laws.encI_mask rd rs imm _ _).trans rfl
  | slli rd rs shamt => exact Laws.EncodeMatchesTable.slli rd rs shamt
  | srli rd rs shamt => exact Laws.EncodeMatchesTable.srli rd rs shamt
  | srai rd rs shamt => exact Laws.EncodeMatchesTable.srai rd rs shamt
  | lui rd imm | auipc rd imm => exact (Laws.encU_mask rd imm _).trans rfl
  | jal rd off => exact (Laws.encJ_mask rd off _).trans rfl
  | beq rs1 rs2 off | bne rs1 rs2 off | blt rs1 rs2 off | bge rs1 rs2 off | bltu rs1 rs2 off
  | bgeu rs1 rs2 off => exact (Laws.encB_mask rs1 rs2 off _ _).trans rfl
  | sb rs1 rs2 imm | sh rs1 rs2 imm | sw rs1 rs2 imm => exact (Laws.encS_mask rs1 rs2 imm _ _).trans rfl

/-- A row's mask asks for examined bits only. -/
theorem examined_and_mask (i : Instr) : i.examined &&& i.row.mask = i.row.mask := by
  cases i with
  | slli rd rs shamt =>
    change 0x01FFFFFF#32 &&& 0x0000707F#32 = 0x0000707F#32
    decide
  | srli rd rs shamt | srai rd rs shamt =>
    change 0xF9FFFFFF#32 &&& 0xF800707F#32 = 0xF800707F#32
    decide
  | _ => exact BitVec.allOnes_and

theorem row_mem_tableRows (i : Instr) : i.row ∈ tableRows := by
  cases i <;> simp [tableRows, Instr.row]

/-- The row of an instruction, not of its operands. -/
theorem exists_row_of_mem_tableRows {r : TableRow} (h : r ∈ tableRows) : ∃ i : Instr, r = i.row := by
  simp only [tableRows, List.cons_append, List.nil_append, List.mem_cons, List.not_mem_nil, or_false] at h
  rcases h with h | h | h | h | h | h | h | h | h | h | h | h | h | h | h | h | h | h | h | h | h | h | h |
    h | h | h | h | h | h | h | h | h | h | h <;> exact ⟨_, h⟩

/-- A decoded instruction's row covers its word: the row looks at bits that the encoding shares with it. -/
theorem row_covers_of_decode {i : Instr} (h : decode w = .instr i) : i.row.covers w := by
  obtain ⟨-, hexamined, -⟩ := decodeDropsOnlyUnexaminedBits w i h
  calc w &&& i.row.mask = w &&& i.examined &&& i.row.mask := by rw [BitVec.and_assoc, examined_and_mask]
    _ = encode i &&& i.examined &&& i.row.mask := by rw [hexamined]
    _ = encode i &&& i.row.mask := by rw [BitVec.and_assoc, examined_and_mask]
    _ = i.row.bits := row_covers_encode i

/-! ### The fields that a row fixes (R150 to R155) -/

variable {v : Word}

/-- Register-register arithmetic fixes the opcode and both function fields (R151). -/
theorem fields_eq_of_maskR (h : w &&& 0xFE00707F#32 = v &&& 0xFE00707F#32) :
    opcodeOf w = opcodeOf v ∧ functOf w = functOf v ∧ functHiOf w = functHiOf v :=
  ⟨extractLsb'_eq_of_and_eq (by decide) h, extractLsb'_eq_of_and_eq (by decide) h,
    extractLsb'_eq_of_and_eq (by decide) h⟩

/-- An immediate right shift fixes the opcode, the function field and the top five bits (R152). -/
theorem fields_eq_of_maskTop5 (h : w &&& 0xF800707F#32 = v &&& 0xF800707F#32) :
    opcodeOf w = opcodeOf v ∧ functOf w = functOf v ∧ top5Of w = top5Of v :=
  ⟨extractLsb'_eq_of_and_eq (by decide) h, extractLsb'_eq_of_and_eq (by decide) h,
    extractLsb'_eq_of_and_eq (by decide) h⟩

/-- The other layouts with a function field fix it and the opcode (R152 to R155). -/
theorem fields_eq_of_maskFunct (h : w &&& 0x0000707F#32 = v &&& 0x0000707F#32) :
    opcodeOf w = opcodeOf v ∧ functOf w = functOf v :=
  ⟨extractLsb'_eq_of_and_eq (by decide) h, extractLsb'_eq_of_and_eq (by decide) h⟩

/-- The layouts without a function field fix the opcode alone (R150). -/
theorem opcodeOf_eq_of_mask (h : w &&& 0x0000007F#32 = v &&& 0x0000007F#32) : opcodeOf w = opcodeOf v :=
  extractLsb'_eq_of_and_eq (by decide) h

/-- A word of a row agrees with the row's own encodings on the bits that the row looks at. -/
theorem and_mask_eq_of_row_covers {i : Instr} (h : i.row.covers w) :
    w &&& i.row.mask = encode i &&& i.row.mask :=
  h.trans (row_covers_encode i).symm

/-- A word of a row decodes by the row's opcode and function fields. -/
theorem decode_of_row_covers {i : Instr} (h : i.row.covers w) : ∃ j, decode w = .instr j := by
  have hagree := and_mask_eq_of_row_covers h
  cases i with
  | add rd rs1 rs2 | sub rd rs1 rs2 | sll rd rs1 rs2 | slt rd rs1 rs2 | sltu rd rs1 rs2 | xor rd rs1 rs2
  | srl rd rs1 rs2 | sra rd rs1 rs2 | or rd rs1 rs2 | and rd rs1 rs2 =>
    obtain ⟨hop, hf, hhi⟩ := fields_eq_of_maskR hagree
    rw [encode, opcodeOf_encR] at hop
    rw [decode_of_opAlu hop, decodeAlu, hf, hhi, encode, functOf_encR, functHiOf_encR]
    exact ⟨_, rfl⟩
  | addi rd rs imm | slti rd rs imm | sltiu rd rs imm | xori rd rs imm | andi rd rs imm =>
    obtain ⟨hop, hf⟩ := fields_eq_of_maskFunct hagree
    rw [encode, opcodeOf_encI] at hop
    rw [decode_of_opAluImm hop, decodeAluImm, hf, encode, functOf_encI]
    exact ⟨_, rfl⟩
  | slli rd rs shamt =>
    obtain ⟨hop, hf⟩ := fields_eq_of_maskFunct hagree
    rw [encode, opcodeOf_encR] at hop
    rw [decode_of_opAluImm hop, decodeAluImm, hf, encode, functOf_encR]
    exact ⟨_, rfl⟩
  | srli rd rs shamt | srai rd rs shamt =>
    obtain ⟨hop, hf, htop⟩ := fields_eq_of_maskTop5 hagree
    rw [encode, opcodeOf_encR] at hop
    rw [decode_of_opAluImm hop, decodeAluImm, hf, htop, encode, functOf_encR, top5Of_encR]
    exact ⟨_, rfl⟩
  | lui rd imm => exact ⟨_, decode_of_opLui ((opcodeOf_eq_of_mask hagree).trans (opcodeOf_encU ..))⟩
  | auipc rd imm => exact ⟨_, decode_of_opAuipc ((opcodeOf_eq_of_mask hagree).trans (opcodeOf_encU ..))⟩
  | jal rd off => exact ⟨_, decode_of_opJal ((opcodeOf_eq_of_mask hagree).trans (opcodeOf_encJ ..))⟩
  | jalr rd rs imm =>
    obtain ⟨hop, hf⟩ := fields_eq_of_maskFunct hagree
    exact ⟨_, decode_of_opJalr (hop.trans (opcodeOf_encI ..)) (hf.trans (functOf_encI ..))⟩
  | beq rs1 rs2 off | bne rs1 rs2 off | blt rs1 rs2 off | bge rs1 rs2 off | bltu rs1 rs2 off
  | bgeu rs1 rs2 off =>
    obtain ⟨hop, hf⟩ := fields_eq_of_maskFunct hagree
    rw [encode, opcodeOf_encB] at hop
    rw [decode_of_opBranch hop, decodeBranch, hf, encode, functOf_encB]
    exact ⟨_, rfl⟩
  | lb rd rs imm | lh rd rs imm | lw rd rs imm =>
    obtain ⟨hop, hf⟩ := fields_eq_of_maskFunct hagree
    rw [encode, opcodeOf_encI] at hop
    rw [decode_of_opLoad hop, decodeLoad, hf, encode, functOf_encI]
    exact ⟨_, rfl⟩
  | sb rs1 rs2 imm | sh rs1 rs2 imm | sw rs1 rs2 imm =>
    obtain ⟨hop, hf⟩ := fields_eq_of_maskFunct hagree
    rw [encode, opcodeOf_encS] at hop
    rw [decode_of_opStore hop, decodeStore, hf, encode, functOf_encS]
    exact ⟨_, rfl⟩

/-- Any two rows ask for different values of a bit that both examine. -/
theorem tableRows_disjoint_bits :
    tableRows.Pairwise fun r q => r.bits &&& q.mask ≠ q.bits &&& r.mask := by
  decide

/-- Settles O3: a row fixes the fields its class is decoded by, and a decoded word shares its encoding's
fixed bits. -/
theorem tableRowsPartitionTheInstructions : Obligations.TableRowsPartitionTheInstructions := by
  refine ⟨fun w => ⟨?instr, ?row⟩, fun w i h => ⟨row_mem_tableRows i, row_covers_of_decode h⟩,
    tableRows_disjoint_bits.imp fun {r q} hne w ⟨hr, hq⟩ => hne ?disjoint⟩
  case instr =>
    rintro ⟨i, h⟩
    exact ⟨i.row, row_mem_tableRows i, row_covers_of_decode h⟩
  case row =>
    rintro ⟨r, hmem, h⟩
    obtain ⟨i, rfl⟩ := exists_row_of_mem_tableRows hmem
    exact decode_of_row_covers h
  case disjoint =>
    calc r.bits &&& q.mask = w &&& r.mask &&& q.mask := by rw [← hr]
      _ = w &&& q.mask &&& r.mask := by rw [BitVec.and_assoc, BitVec.and_comm r.mask, ← BitVec.and_assoc]
      _ = q.bits &&& r.mask := by rw [← hq]

end Sys2Proof
end

section
/-! The reasons of the fatal halt (spec/60_exceptions.md R381) as conditions on the function fields of a class,
the unscattered immediates (spec/30_encoding.md R147), and the spec's sample words. -/

namespace Sys2Proof

variable {w : Word} {r : HaltReason}

/-! ### The fatal words of each class (R157) -/

theorem decodeAlu_eq_fatal_iff :
    decodeAlu w = .fatal r ↔ r = .aluRegFunct ∧ functHiOf w ≠ 0b0000000#7 ∧
      ¬ (functHiOf w = 0b0100000#7 ∧ (functOf w = 0b000#3 ∨ functOf w = 0b101#3)) := by
  constructor
  · intro h
    simp only [decodeAlu] at h
    repeat' split at h
    all_goals cases h
    all_goals simp [*]
  · rintro ⟨rfl, hzero, hother⟩
    by_cases hsub : functHiOf w = 0b0100000#7
    · simp only [hsub, true_and, not_or] at hother
      simp [decodeAlu, hsub, hother]
    · simp [decodeAlu, hzero, hsub]

theorem decodeAluImm_eq_fatal_iff :
    decodeAluImm w = .fatal r ↔ (r = .aluImmFunct ∧ functOf w = 0b110#3) ∨
      (r = .shiftImmTop5 ∧ functOf w = 0b101#3 ∧ top5Of w ≠ 0b00000#5 ∧ top5Of w ≠ 0b01000#5) := by
  constructor
  · intro h
    simp only [decodeAluImm] at h
    repeat' split at h
    all_goals cases h
    all_goals simp [*]
  · rintro (⟨rfl, hf⟩ | ⟨rfl, hf, hsrl, hsra⟩)
    · simp [decodeAluImm, hf]
    · simp [decodeAluImm, hf, hsrl, hsra]

theorem decodeBranch_eq_fatal_iff :
    decodeBranch w = .fatal r ↔ r = .branchFunct ∧ (functOf w = 0b010#3 ∨ functOf w = 0b011#3) := by
  constructor
  · intro h
    simp only [decodeBranch] at h
    repeat' split at h
    all_goals cases h
    exact ⟨rfl, by bv_omega⟩
  · rintro ⟨rfl, hf | hf⟩ <;> simp [decodeBranch, hf]

/-- The function values that name no access width (R154). -/
theorem three_le_functOf_iff :
    3 ≤ (functOf w).toNat ↔ functOf w ≠ 0b000#3 ∧ functOf w ≠ 0b001#3 ∧ functOf w ≠ 0b010#3 := by
  bv_omega

theorem decodeLoad_eq_fatal_iff : decodeLoad w = .fatal r ↔ r = .loadFunct ∧ 3 ≤ (functOf w).toNat := by
  rw [three_le_functOf_iff]
  constructor
  · intro h
    unfold decodeLoad at h
    repeat' split at h
    all_goals cases h
    exact ⟨rfl, ‹_›, ‹_›, ‹_›⟩
  · rintro ⟨rfl, hbyte, hhalf, hword⟩
    simp [decodeLoad, hbyte, hhalf, hword]

theorem decodeStore_eq_fatal_iff :
    decodeStore w = .fatal r ↔ r = .storeFunct ∧ 3 ≤ (functOf w).toNat := by
  rw [three_le_functOf_iff]
  constructor
  · intro h
    unfold decodeStore at h
    repeat' split at h
    all_goals cases h
    exact ⟨rfl, ‹_›, ‹_›, ‹_›⟩
  · rintro ⟨rfl, hbyte, hhalf, hword⟩
    simp [decodeStore, hbyte, hhalf, hword]

/-! ### Every word (R155 to R157) -/

/-- A fatal word meets the condition of its reason, class by class. -/
theorem haltCondition_of_decode (h : decode w = .fatal r) : haltCondition w r := by
  unfold decode at h
  split at h
  case isTrue hop =>
    obtain ⟨rfl, hcond⟩ := decodeAlu_eq_fatal_iff.1 h
    exact ⟨hop, hcond⟩
  split at h
  case isTrue hop =>
    obtain ⟨rfl, hcond⟩ | ⟨rfl, hcond⟩ := decodeAluImm_eq_fatal_iff.1 h
    · exact ⟨hop, hcond⟩
    · exact ⟨hop, hcond⟩
  split at h
  case isTrue => cases h
  split at h
  case isTrue => cases h
  split at h
  case isTrue => cases h
  split at h
  case isTrue => split at h <;> cases h
  split at h
  case isTrue hop =>
    obtain ⟨rfl, hcond⟩ := decodeBranch_eq_fatal_iff.1 h
    exact ⟨hop, hcond⟩
  split at h
  case isTrue hop =>
    obtain ⟨rfl, hcond⟩ := decodeLoad_eq_fatal_iff.1 h
    exact ⟨hop, hcond⟩
  split at h
  case isTrue hop =>
    obtain ⟨rfl, hcond⟩ := decodeStore_eq_fatal_iff.1 h
    exact ⟨hop, hcond⟩
  case isFalse =>
    cases h
    simp only [haltCondition]
    exact ⟨‹_›, ‹_›, ‹_›, ‹_›, ‹_›, ‹_›, ‹_›, ‹_›, ‹_›⟩

/-- A word that meets the condition of a reason is fatal for it. -/
theorem decode_of_haltCondition (h : haltCondition w r) : decode w = .fatal r := by
  cases r with
  | opcode =>
    obtain ⟨h1, h2, h3, h4, h5, h6, h7, h8, h9⟩ := h
    simp [decode, h1, h2, h3, h4, h5, h6, h7, h8, h9]
  | aluRegFunct => rw [decode_of_opAlu h.1, decodeAlu_eq_fatal_iff]; exact ⟨rfl, h.2⟩
  | aluImmFunct => rw [decode_of_opAluImm h.1, decodeAluImm_eq_fatal_iff]; exact .inl ⟨rfl, h.2⟩
  | shiftImmTop5 => rw [decode_of_opAluImm h.1, decodeAluImm_eq_fatal_iff]; exact .inr ⟨rfl, h.2⟩
  | branchFunct => rw [decode_of_opBranch h.1, decodeBranch_eq_fatal_iff]; exact ⟨rfl, h.2⟩
  | loadFunct => rw [decode_of_opLoad h.1, decodeLoad_eq_fatal_iff]; exact ⟨rfl, h.2⟩
  | storeFunct => rw [decode_of_opStore h.1, decodeStore_eq_fatal_iff]; exact ⟨rfl, h.2⟩

/-- No class but JALR leaves a word unspecified (R151 to R154). -/
theorem class_decoders_ne_unspecJalr (w : Word) :
    decodeAlu w ≠ .unspecJalr ∧ decodeAluImm w ≠ .unspecJalr ∧ decodeBranch w ≠ .unspecJalr ∧
      decodeLoad w ≠ .unspecJalr ∧ decodeStore w ≠ .unspecJalr := by
  refine ⟨?_, ?_, ?_, ?_, ?_⟩
  · simp only [decodeAlu]; split_ifs <;> nofun
  · simp only [decodeAluImm]; split_ifs <;> nofun
  · simp only [decodeBranch]; split_ifs <;> nofun
  · simp only [decodeLoad]; split_ifs <;> nofun
  · simp only [decodeStore]; split_ifs <;> nofun

/-- Only the JALR opcode leaves a word unspecified (R155). -/
theorem decode_eq_unspecJalr_iff :
    decode w = .unspecJalr ↔ opcodeOf w = 0b1100111#7 ∧ functOf w ≠ 0b000#3 := by
  constructor
  · intro h
    obtain ⟨halu, haluImm, hbranch, hload, hstore⟩ := class_decoders_ne_unspecJalr w
    unfold decode at h
    split at h
    case isTrue => exact absurd h halu
    split at h
    case isTrue => exact absurd h haluImm
    split at h
    case isTrue => cases h
    split at h
    case isTrue => cases h
    split at h
    case isTrue => cases h
    split at h
    case isTrue hop =>
      split at h
      case isTrue => cases h
      case isFalse hf => exact ⟨hop, hf⟩
    split at h
    case isTrue => exact absurd h hbranch
    split at h
    case isTrue => exact absurd h hload
    split at h
    case isTrue => exact absurd h hstore
    case isFalse => cases h
  · rintro ⟨hop, hf⟩
    rw [decode, hop]
    simp [opAlu, opAluImm, opLui, opAuipc, opJal, opJalr, hf]

/-- Settles O4: the condition of a reason is its class and the function values that the class leaves out. -/
theorem fatalWordsHaveTheirReason : Obligations.FatalWordsHaveTheirReason :=
  ⟨fun _ _ => ⟨haltCondition_of_decode, decode_of_haltCondition⟩, fun _ => decode_eq_unspecJalr_iff⟩

/-- Settles O5: each word is written out, and the decoder is run on it. -/
theorem sampleWordsDecode : Obligations.SampleWordsDecode := by
  refine ⟨?_, ?_, ?_, ?_, ?_, ?_, ?_, ?_, ?_, ?_, ?_, ?_⟩ <;> decide

/-! ### The I, S and U immediates (R147) -/

/-- The S immediate is its two pieces side by side (R144). -/
theorem immSOf_eq_append (w : Word) : immSOf w = w.extractLsb' 25 7 ++ w.extractLsb' 7 5 := by
  apply BitVec.eq_of_getLsbD_eq
  intro i hi
  change _ = BitVec.getLsbD (w := 7 + 5) _ i
  simp only [immSOf, BitVec.getLsbD_or, getLsbD_fieldAt, BitVec.getLsbD_append]
  interval_cases i <;> simp

/-- The placed U immediate is the word with its low twelve bits cleared. -/
theorem immU_immUOf (w : Word) : Machine.immU (immUOf w) = w &&& 0xFFFFF000#32 := by
  apply BitVec.eq_of_getLsbD_eq
  intro i hi
  rw [Machine.immU, getLsbD_fieldAt, immUOf]
  interval_cases i <;> simp

/-- Sign-extending the field first makes no difference: the shift drops the copies of the sign. -/
theorem immU_eq_signExtend_shiftLeft (imm : BitVec 20) : Machine.immU imm = imm.signExtend 32 <<< 12 := by
  apply BitVec.eq_of_getLsbD_eq
  intro i hi
  rw [Machine.immU, getLsbD_fieldAt, BitVec.getLsbD_shiftLeft, BitVec.getLsbD_signExtend]
  by_cases hlow : i < 12
  · simp [hlow]
  · have hfield : i - 12 < 20 := by omega
    have hword : i - 12 < 32 := by omega
    simp [hi, hlow, hfield, hword, Nat.not_lt.1 hlow]

/-- Settles O7: the I immediate is the field itself, the S and U immediates are put together from their
pieces, and sign extension keeps the signed value of twelve bits. -/
theorem immediatesAreExtended : Obligations.ImmediatesAreExtended := by
  intro w
  refine ⟨rfl, ?_, immU_immUOf w, immU_eq_signExtend_shiftLeft _, fun imm => ?_⟩
  · rw [Machine.signExt12, immSOf_eq_append]
  · have hlow : -2 ^ 11 ≤ imm.toInt := BitVec.le_toInt imm
    have hhigh : imm.toInt < 2 ^ 11 := BitVec.toInt_lt
    rw [Machine.signExt12_toInt]
    omega

end Sys2Proof
end

section
/-! Shifts (spec/43_alu_reg.md R243, R247, R248; spec/44_alu_imm.md R276 to R278), AUIPC (spec/45_upper_imm.md
R302) and the jumps (spec/46_jump.md R311 to R313): each value as the number its rule names. -/

namespace Sys2Proof.Machine

/-! ### Shifts as multiplication and division (spec/00_scope.md R12) -/

theorem shiftLeft_eq_ofNat (a : Word) (n : Nat) : shiftLeft a n = BitVec.ofNat 32 (a.toNat * 2 ^ n) := by
  apply BitVec.eq_of_toNat_eq
  rw [shiftLeft, BitVec.toNat_shiftLeft, Nat.shiftLeft_eq, BitVec.toNat_ofNat]

theorem shiftRightLogical_eq_ofNat (a : Word) (n : Nat) :
    shiftRightLogical a n = BitVec.ofNat 32 (a.toNat / 2 ^ n) := by
  apply BitVec.eq_of_toNat_eq
  have hle : a.toNat / 2 ^ n ≤ a.toNat := Nat.div_le_self _ _
  rw [shiftRightLogical, BitVec.toNat_ushiftRight, Nat.shiftRight_eq_div_pow, BitVec.toNat_ofNat,
    Nat.mod_eq_of_lt (Nat.lt_of_le_of_lt hle a.isLt)]

theorem shiftRightArith_eq_ofInt (a : Word) (n : Nat) :
    shiftRightArith a n = BitVec.ofInt 32 (a.toInt / 2 ^ n) := by
  rw [shiftRightArith, BitVec.sshiftRight, Int.shiftRight_eq_div_pow]
  norm_cast

/-- The low bits of a count are its remainder. -/
theorem extractLsb'_zero_toNat (c : Word) (n : Nat) : (c.extractLsb' 0 n).toNat = c.toNat % 2 ^ n := by
  rw [toNat_extractLsb'_eq_div_mod, Nat.pow_zero, Nat.div_one]

theorem sllValue_eq_ite (limit : SllLimit) (a c : Word) :
    sllValue limit a c =
      if c.toNat > limit.toNat then 0#32 else BitVec.ofNat 32 (a.toNat * 2 ^ (c.toNat % 8)) := by
  rw [sllValue, extractLsb'_zero_toNat]
  exact congrArg (ite _ _) (shiftLeft_eq_ofNat a _)

/-- Settles O16: the count register is compared as a whole, and its low three bits shift. -/
theorem narrowShiftLeftResult : Obligations.NarrowShiftLeftResult := by
  intro rd rs1 rs2 s a n
  refine ⟨_, rfl, s.resultIn_writeResult_of_eq rd ?_⟩
  rw [sllValue_eq_ite]
  cases s.cfg.sllLimit <;> rfl

/-- Settles O17, for the two readings of the count. -/
theorem rightShiftResults : Obligations.RightShiftResults := by
  intro rd rs1 rs2 s a n
  have hn : shrAmountOf s.cfg.shrAmount (s.getReg rs2) = n := by
    simp only [n, shrAmountOf]
    cases s.cfg.shrAmount with
    | full => rfl
    | low5 => exact extractLsb'_zero_toNat _ 5
  refine ⟨⟨_, rfl, s.resultIn_writeResult_of_eq rd ?_⟩, ⟨_, rfl, s.resultIn_writeResult_of_eq rd ?_⟩⟩
  · rw [hn]
    exact shiftRightLogical_eq_ofNat a n
  · rw [hn]
    exact shiftRightArith_eq_ofInt a n

/-! ### The immediate shifts (R276 to R278) -/

/-- The two bits that an immediate right shift does not examine leave its selector alone (R160). -/
theorem top5_of_selector (t : BitVec 5) (x : BitVec 7) :
    (fieldAt 7 t 2 ||| x &&& 0b0000011#7).extractLsb' 2 5 = t := by
  apply BitVec.eq_of_getLsbD_eq
  intro i hi
  interval_cases i <;> simp [getElem_fieldAt]

/-- The word of an immediate right shift decodes by its selector, whatever the unexamined bits are. -/
theorem decode_encR_rightShift (rd rs shamt : RegIdx) (x : BitVec 7) :
    decode (encR (x &&& 0b0000011#7) shamt rs 0b101#3 rd opAluImm) = .instr (.srli rd rs shamt) ∧
      decode (encR (0b0100000#7 ||| x &&& 0b0000011#7) shamt rs 0b101#3 rd opAluImm) =
        .instr (.srai rd rs shamt) := by
  have hsrl : (x &&& 0b0000011#7).extractLsb' 2 5 = 0b00000#5 := by
    have h := top5_of_selector 0b00000#5 x
    rwa [show fieldAt 7 0b00000#5 2 = 0#7 from rfl, BitVec.zero_or] at h
  have hsra : (0b0100000#7 ||| x &&& 0b0000011#7).extractLsb' 2 5 = 0b01000#5 :=
    top5_of_selector 0b01000#5 x
  rw [decode_of_opAluImm (opcodeOf_encR ..), decode_of_opAluImm (opcodeOf_encR ..)]
  constructor
  · simp [decodeAluImm, hsrl]
  · simp [decodeAluImm, hsra]

theorem decode_encR_slli (rd rs shamt : RegIdx) (x : BitVec 7) :
    decode (encR x shamt rs 0b001#3 rd opAluImm) = .instr (.slli rd rs shamt) := by
  rw [decode_of_opAluImm (opcodeOf_encR ..)]
  simp [decodeAluImm]

/-- Settles O22: decoding looks at the selector alone, and the shift amount is the field as a number. -/
theorem immediateShiftResults : Obligations.ImmediateShiftResults := by
  intro rd rs shamt x s a
  obtain ⟨hsrli, hsrai⟩ := decode_encR_rightShift rd rs shamt x
  exact ⟨decode_encR_slli rd rs shamt x,
    ⟨_, rfl, s.resultIn_writeResult_of_eq rd (shiftLeft_eq_ofNat a _)⟩, hsrli,
    ⟨_, rfl, s.resultIn_writeResult_of_eq rd (shiftRightLogical_eq_ofNat a _)⟩, hsrai,
    ⟨_, rfl, s.resultIn_writeResult_of_eq rd (shiftRightArith_eq_ofInt a _)⟩⟩

/-! ### AUIPC (R302) -/

/-- The placed immediate is the field times 2^12 (R147). -/
theorem immU_toNat (imm : BitVec 20) : (immU imm).toNat = imm.toNat * 4096 := by
  rw [immU_eq_append, toNat_append_eq_add, BitVec.toNat_ofNat, Nat.zero_mod]
  omega

/-- Settles O24, for the two bases. -/
theorem auipcResult : Obligations.AuipcResult := by
  intro rd imm s
  refine ⟨_, rfl, s.resultIn_writeResult_of_eq rd ?_⟩
  rw [BitVec.ofInt_add, ← immU_toNat, ofInt_toNat_eq_self, BitVec.add_comm, State.auipcBaseAddr]
  cases s.cfg.auipcBase with
  | instrAddr => simp only [State.ia, ofInt_sub_eq_sub, ofInt_toNat_eq_self]; rfl
  | nextAddr => simp only [ofInt_toNat_eq_self]

/-! ### Jumps (R311 to R313) -/

/-- A jump links and goes to its target, and leaves everything else (R349). -/
theorem State.jumpedTo_jumpTo (s : State) (rd : RegIdx) {target w : Word} (h : target = w) :
    JumpedTo s (s.jumpTo rd target) rd w :=
  h ▸ ⟨by rw [State.jumpTo_getReg, if_pos rfl], fun q hq => by rw [State.jumpTo_getReg, if_neg hq],
    rfl, rfl, ⟨rfl, rfl, rfl, rfl⟩, ⟨rfl, rfl, rfl, rfl, rfl⟩, fun _ => rfl⟩

theorem State.jalTarget_eq_ofInt (s : State) (off : BitVec 21) :
    s.jalTarget off = BitVec.ofInt 32 ((s.pc.toNat : Int) - 4 + off.toInt) := by
  have hsum : s.jalTarget off = s.pc - 4#32 + off.signExtend 32 := by
    rw [State.jalTarget]
    bv_omega
  rw [hsum, BitVec.ofInt_add, ofInt_sub_eq_sub, ofInt_toNat_eq_self]
  rfl

/-- Settles O25: `pc + off - 4` is `ia + off`. -/
theorem jalJumps : Obligations.JalJumps := by
  intro rd off s
  exact ⟨_, rfl, s.jumpedTo_jumpTo rd (s.jalTarget_eq_ofInt off)⟩

/-- Clearing bit 0 rounds down to an even number. -/
theorem and_even_eq_ofNat (a : Word) : a &&& 0xFFFFFFFE#32 = BitVec.ofNat 32 (a.toNat / 2 * 2) := by
  have hshift : a &&& 0xFFFFFFFE#32 = a >>> 1 <<< 1 := by
    apply BitVec.eq_of_getLsbD_eq
    intro i hi
    interval_cases i <;> simp
  rw [hshift]
  exact (shiftLeft_eq_ofNat (a >>> 1) 1).trans (by rw [BitVec.toNat_ushiftRight, Nat.shiftRight_eq_div_pow]; rfl)

/-- Settles O26: the target is taken from the state before the link is written. -/
theorem jalrJumps : Obligations.JalrJumps := by
  intro rd rs imm s sum
  refine ⟨_, rfl, s.jumpedTo_jumpTo rd ?_⟩
  rw [State.jalrTarget, add_signExt12_eq_ofInt, and_even_eq_ofNat]

end Sys2Proof.Machine
end

section
/-! Loads and stores as numbers (spec/41_load.md R200 to R206, spec/42_store.md R220 to R225; spec/20_memory.md
R55 to R58, R65): the number that neighbouring bytes form, most significant first, what a load puts into its
destination and what a store leaves to be loaded. -/

namespace Sys2Proof.Machine

variable {s t : State}

/-! ### The number that neighbouring bytes form (R55) -/

/-- The bytes at `a`, …, `a + n - 1` of the data space as a number, the first one most significant. -/
def State.bytesAt (s : State) (a : Word) (n : Nat) : Nat :=
  (List.range n).foldl (fun v j => v * 256 + (s.readByte (a + BitVec.ofNat 32 j)).toNat) 0

theorem State.bytesAt_zero (s : State) (a : Word) : s.bytesAt a 0 = 0 := rfl

theorem State.bytesAt_succ (s : State) (a : Word) (n : Nat) :
    s.bytesAt a (n + 1) = s.bytesAt a n * 256 + (s.readByte (a + BitVec.ofNat 32 n)).toNat := by
  simp only [State.bytesAt, List.range_succ, List.foldl_append, List.foldl_cons, List.foldl_nil]

/-- A byte shifted in below a value of fewer than 25 bits is added to 256 times the value. -/
theorem shiftLeft_or_byte_toNat {v : Word} (h : v.toNat < 2 ^ 24) (b : Byte) :
    ((v <<< 8) ||| b.setWidth 32).toNat = v.toNat * 256 + b.toNat := by
  have hb := b.isLt
  have hshift : (v <<< 8).toNat = v.toNat <<< 8 := by
    rw [BitVec.toNat_shiftLeft, Nat.shiftLeft_eq, Nat.mod_eq_of_lt (by omega)]
  rw [BitVec.toNat_or, hshift, BitVec.toNat_setWidth, Nat.mod_eq_of_lt (by omega),
    ← Nat.shiftLeft_add_eq_or_of_lt hb, Nat.shiftLeft_eq]

/-- The last of the bytes is the last one shifted in. -/
theorem State.shiftIn_succ (s : State) (a : Word) (k : Nat) (acc : Word) :
    s.shiftIn a (k + 1) acc =
      (s.shiftIn a k acc <<< 8) ||| (s.readByte (a + BitVec.ofNat 32 k)).setWidth 32 := by
  induction k generalizing a acc with
  | zero => simp [State.shiftIn]
  | succ k ih =>
    have hnext : a + 1#32 + BitVec.ofNat 32 k = a + BitVec.ofNat 32 (k + 1) := by
      rw [Nat.add_comm k 1, BitVec.ofNat_add, BitVec.add_assoc]
    rw [State.shiftIn, ih, hnext]
    rfl

theorem State.bytesAt_lt (s : State) (a : Word) (n : Nat) : s.bytesAt a n < 2 ^ (8 * n) := by
  induction n with
  | zero => simp [State.bytesAt_zero]
  | succ n ih =>
    have hb := (s.readByte (a + BitVec.ofNat 32 n)).isLt
    rw [State.bytesAt_succ, Nat.mul_succ 8 n, Nat.pow_add]
    omega

/-- Up to four bytes fit the destination (R200, R206). -/
theorem State.shiftIn_zero_toNat (s : State) (a : Word) {n : Nat} (hn : n ≤ 4) :
    (s.shiftIn a n 0#32).toNat = s.bytesAt a n := by
  induction n with
  | zero => rfl
  | succ n ih =>
    have hprev := ih (by omega)
    have hlt : (s.shiftIn a n 0#32).toNat < 2 ^ 24 := by
      rw [hprev]
      exact Nat.lt_of_lt_of_le (s.bytesAt_lt a n) (Nat.pow_le_pow_right (by decide) (by omega))
    rw [State.shiftIn_succ, shiftLeft_or_byte_toNat hlt, hprev, State.bytesAt_succ]

/-- `MemRead` is that number (R55). -/
theorem State.memRead_toNat (s : State) (a : Word) (w : AccessWidth) :
    (s.memRead a w).toNat = s.bytesAt a (beatCount w) := by
  cases w <;>
    simp only [State.memRead, BitVec.toNat_setWidth, toNat_append_eq_add, beatCount, State.bytesAt_succ,
      State.bytesAt_zero, BitVec.add_zero] <;>
    omega

/-! ### Loads (R200 to R206) -/

theorem State.runLoad_getReg (s : State) (rd : RegIdx) (a : Word) {n : Nat} (hpos : 1 ≤ n) (hn : n ≤ 4) :
    ((s.runLoad rd a n).getReg rd).toNat = s.bytesAt a n := by
  obtain ⟨hvalue, -⟩ := s.loadedIn_runLoad rd a hpos hn
  rw [hvalue, State.shiftIn_zero_toNat s a hn]

theorem one_le_beatCount (w : AccessWidth) : 1 ≤ beatCount w := by
  cases w <;> decide

theorem beatCount_le_four (w : AccessWidth) : beatCount w ≤ 4 := by
  cases w <;> decide

/-- The frame of a load with its value as a number and as `MemRead`. -/
theorem State.runLoad_loadedIn_and_memRead (s : State) (rd : RegIdx) (a : Word) (w : AccessWidth) {v : Nat}
    (hv : s.bytesAt a (beatCount w) = v) :
    LoadedIn s (s.runLoad rd a (beatCount w)) rd a (beatCount w) (BitVec.ofNat 32 v) ∧
      (s.runLoad rd a (beatCount w)).getReg rd = s.memRead a w := by
  have hloaded := s.loadedIn_runLoad rd a (one_le_beatCount w) (beatCount_le_four w)
  have hvalue : s.shiftIn a (beatCount w) 0#32 = BitVec.ofNat 32 v := by
    rw [← hv, ← State.shiftIn_zero_toNat s a (beatCount_le_four w), BitVec.ofNat_toNat,
      BitVec.setWidth_eq]
  refine ⟨hvalue ▸ hloaded, BitVec.eq_of_toNat_eq ?_⟩
  rw [State.runLoad_getReg s rd a (one_le_beatCount w) (beatCount_le_four w), State.memRead_toNat]

/-- The effective address as a number modulo 2^32 (R200, R220). -/
theorem State.effAddr_eq_ofInt (s : State) (base : RegIdx) (imm : BitVec 12) :
    s.effAddr base imm = BitVec.ofInt 32 ((s.getReg base).toNat + imm.toInt) :=
  add_signExt12_eq_ofInt _ imm

/-- Settles O30: each width reads its bytes from the effective address of the old base register. -/
theorem loadResults : Obligations.LoadResults := by
  intro rd rs imm s a byte
  have ha : s.effAddr rs imm = a := s.effAddr_eq_ofInt rs imm
  refine ⟨⟨_, rfl, ?lb⟩, ⟨_, rfl, ?lh⟩, ⟨_, rfl, ?lw⟩⟩ <;> rw [ha]
  case lb =>
    refine s.runLoad_loadedIn_and_memRead rd a .byte ?_
    simp only [beatCount, State.bytesAt_succ, State.bytesAt_zero, byte, Nat.zero_mul, Nat.zero_add]
  case lh =>
    refine s.runLoad_loadedIn_and_memRead rd a .half ?_
    simp only [beatCount, State.bytesAt_succ, State.bytesAt_zero, byte, Nat.zero_mul, Nat.zero_add]
  case lw =>
    refine s.runLoad_loadedIn_and_memRead rd a .word ?_
    simp only [beatCount, State.bytesAt_succ, State.bytesAt_zero, byte, Nat.zero_mul, Nat.zero_add]

/-- Settles O31: the beats shift the bytes into the cleared destination one after the other. -/
theorem loadAccumulatesInTheDestination : Obligations.LoadAccumulatesInTheDestination := by
  intro rd a n k s hn hk
  have hbytes : (s.startLoad rd a n).shiftIn a k 0#32 = s.shiftIn a k 0#32 :=
    State.shiftIn_congr (s := s) (t := s.startLoad rd a n) (fun _ => rfl) a k 0#32
  rw [State.loadBeats_getReg_same, State.startLoad_ea, State.startLoad_getReg, if_pos rfl, hbytes,
    State.shiftIn_zero_toNat s a (by omega)]
  rfl

/-! ### Stores (R220 to R223) -/

/-- Settles O32: each width is a whole store of its beats at the effective address. -/
theorem storeResults : Obligations.StoreResults := by
  intro rs1 rs2 imm s a
  exact ⟨s.effAddr_eq_ofInt rs1 imm, ⟨_, rfl, s.storedAt_runStore a _ (by decide) (by decide)⟩,
    ⟨_, rfl, s.storedAt_runStore a _ (by decide) (by decide)⟩,
    ⟨_, rfl, s.storedAt_runStore a _ (by decide) (by decide)⟩⟩

/-! ### Loading what was stored (R58) -/

/-- The `k` bytes from byte `i` of a stored copy form the number that those bytes of the copy are. -/
theorem StoredAt.bytesAt {a v : Word} {n : Nat} (h : StoredAt s t a n v) (hw : n ≤ 2 ^ s.cfg.daddrW)
    {i k : Nat} (hik : i + k ≤ n) :
    t.bytesAt (a + BitVec.ofNat 32 i) k = v.toNat / 2 ^ (8 * (n - i - k)) % 2 ^ (8 * k) := by
  obtain ⟨-, -, -, -, -, -, -, -, -, hbytes⟩ := h
  induction k with
  | zero => simp [State.bytesAt_zero, Nat.mod_one]
  | succ k ih =>
    have hbyte := hbytes hw (i + k) (by omega)
    rw [State.bytesAt_succ, ih (by omega), BitVec.add_assoc, ← BitVec.ofNat_add, hbyte]
    obtain ⟨m, hm⟩ : ∃ m, n - i - k = m + 1 := ⟨n - i - k - 1, by omega⟩
    have hthis : n - 1 - (i + k) = m := by omega
    have hnext : n - i - (k + 1) = m := by omega
    rw [hm, hthis, hnext, Nat.mul_succ 8 m, Nat.pow_add, ← Nat.div_div_eq_div_mul, Nat.mul_succ 8 k,
      Nat.add_comm (8 * k), Nat.pow_add, Nat.mod_mul]
    omega

/-- A load from byte `i` of what a store left. -/
theorem StoredAt.runLoad_getReg {a b v : Word} {n x : Nat} (h : StoredAt s t a n v)
    (hport : n ≤ 2 ^ s.cfg.daddrW) (hn : n ≤ 4) (rd : RegIdx) (i : Nat) (w : AccessWidth)
    (hb : b = a + BitVec.ofNat 32 i) (hi : i + beatCount w ≤ n)
    (hx : v.toNat / 2 ^ (8 * (n - i - beatCount w)) % 2 ^ (8 * beatCount w) = x) :
    ((t.runLoad rd b (beatCount w)).getReg rd).toNat = x := by
  rw [State.runLoad_getReg t rd b (one_le_beatCount w) (by omega), hb, h.bytesAt hport hi, hx]

/-- A store moves no register, so the same base and offset give the same address after it. -/
theorem StoredAt.effAddr {a v : Word} {n : Nat} (h : StoredAt s t a n v) (base : RegIdx) (imm : BitVec 12) :
    t.effAddr base imm = s.effAddr base imm := by
  obtain ⟨hregs, -⟩ := h
  rw [State.effAddr, State.effAddr, hregs]

/-- Settles O33: each load takes the bytes of the stored copy that its address and width name. -/
theorem storedBytesAreLoadedBack : Obligations.StoredBytesAreLoadedBack := by
  intro rs1 rs2 rd rs imm off s hport v
  have hwide : 4 ≤ 2 ^ s.cfg.daddrW := Nat.pow_le_pow_right (n := 2) (by decide) hport
  have hv : (s.getReg rs2).toNat = v := rfl
  have hlt := (s.getReg rs2).isLt
  have hfirst (x : Word) : x + BitVec.ofNat 32 0 = x := BitVec.add_zero x
  obtain ⟨-, ⟨tb, htb, hsb⟩, ⟨th, hth, hsh⟩, ⟨tw, htw, hsw⟩⟩ := storeResults rs1 rs2 imm s
  refine ⟨⟨tb, _, htb, rfl, ?sb⟩, ⟨th, _, hth, rfl, ?sh⟩, ⟨tw, _, htw, rfl, ?sw⟩,
    tw, htw, fun ha => ⟨_, _, rfl, ?first, rfl, ?upper⟩, fun ha => ⟨_, rfl, ?lower⟩,
    fun ha => ⟨_, rfl, ?last⟩⟩
  case sb =>
    refine hsb.runLoad_getReg (by omega) (by decide) rd 0 .byte ?_ (by decide) ?_
    · rw [hsb.effAddr, hfirst]
    · simp [beatCount, hv]
  case sh =>
    refine hsh.runLoad_getReg (by omega) (by decide) rd 0 .half ?_ (by decide) ?_
    · rw [hsh.effAddr, hfirst]
    · simp [beatCount, hv]
  case sw =>
    refine hsw.runLoad_getReg hwide le_rfl rd 0 .word ?_ (by decide) ?_
    · rw [hsw.effAddr, hfirst]
    · simp only [beatCount, Nat.reduceSub, Nat.reduceMul, Nat.reducePow]
      omega
  case first =>
    refine hsw.runLoad_getReg hwide le_rfl rd 0 .byte ?_ (by decide) ?_
    · rw [ha, hfirst]
    · simp only [beatCount, Nat.reduceSub, Nat.reduceMul, Nat.reducePow]
      omega
  case upper =>
    refine hsw.runLoad_getReg hwide le_rfl rd 0 .half ?_ (by decide) ?_
    · rw [ha, hfirst]
    · simp only [beatCount, Nat.reduceSub, Nat.reduceMul, Nat.reducePow]
      omega
  case lower =>
    refine hsw.runLoad_getReg hwide le_rfl rd 2 .half ha (by decide) ?_
    simp [beatCount, hv]
  case last =>
    refine hsw.runLoad_getReg hwide le_rfl rd 3 .byte ha (by decide) ?_
    simp [beatCount, hv]

end Sys2Proof.Machine
end

section
/-! What an instruction writes and reads (spec/10_state.md R20 to R25): the frame of each kind of meaning over
the whole state, and that each kind commutes with a change of a register it does not read. -/

namespace Sys2Proof.Machine

variable {s t : State}

/-! ### Truncated addresses (spec/20_memory.md R65) -/

theorem busAddr_congr {w : Nat} {a b : Word} (h : a.toNat % 2 ^ w = b.toNat % 2 ^ w) :
    busAddr w a = busAddr w b := by
  rw [busAddr, busAddr, h]

/-- Settles O34: both spaces are reached through the address on the bus alone. -/
theorem addressesAreTruncated : Obligations.AddressesAreTruncated := by
  intro s a b
  refine ⟨fun hdata => ⟨?read, fun v => ?write⟩, fun hprog => ?fetch⟩
  case read => rw [State.readByte, State.readByte, busAddr_congr hdata]
  case write => rw [State.writeByte, State.writeByte, busAddr_congr hdata]
  case fetch => simp only [State.fetchWord, busAddr_congr hprog]

/-! ### Register 0 (R21) -/

/-- Settles O35: OR of register 0 with itself copies what LUI has put there. -/
theorem registerZeroIsOrdinary : Obligations.RegisterZeroIsOrdinary := by
  intro rd imm s
  have hwritten : (s.writeResult 0#5 (immU imm)).getReg 0#5 = immU imm := s.writeResult_getReg_self 0#5 _
  refine ⟨_, _, rfl, ?_, rfl, ?_⟩
  · rw [hwritten, immU_toNat]
  · rw [State.writeResult_getReg_self, hwritten, BitVec.or_self, immU_toNat]

/-! ### What an instruction writes (R22, R25) -/

/-- The bytes outside those a store names read as before. -/
def StoresOnlyItsBytes (i : Instr) (s t : State) : Prop :=
  ∀ rs1 rs2 imm b,
    (i = .sb rs1 rs2 imm → OutsideStored s (s.effAddr rs1 imm) 1 b → t.readByte b = s.readByte b) ∧
    (i = .sh rs1 rs2 imm → OutsideStored s (s.effAddr rs1 imm) 2 b → t.readByte b = s.readByte b) ∧
    (i = .sw rs1 rs2 imm → OutsideStored s (s.effAddr rs1 imm) 4 b → t.readByte b = s.readByte b)

theorem StoredAt.readByte_outside {a v b : Word} {n : Nat} (h : StoredAt s t a n v)
    (hb : OutsideStored s a n b) : t.readByte b = s.readByte b := by
  obtain ⟨-, -, -, -, -, -, -, -, houtside, -⟩ := h
  exact houtside b hb

theorem exec_storesOnlyItsBytes {i : Instr} (h : exec i s = .next t) : StoresOnlyItsBytes i s t := by
  intro rs1 rs2 imm b
  refine ⟨?_, ?_, ?_⟩ <;> rintro rfl hb <;> cases h
  · exact (s.storedAt_runStore _ _ le_rfl (by decide)).readByte_outside hb
  · exact (s.storedAt_runStore _ _ (by decide) (by decide)).readByte_outside hb
  · exact (s.storedAt_runStore _ _ (by decide) le_rfl).readByte_outside hb

/-- A single-cycle class is none of those with an execute state. -/
theorem InstrClass.not_executes_of_single {c : InstrClass} (h : c.single = true) :
    c ≠ .branch ∧ c ≠ .load ∧ c ≠ .store := by
  cases c <;> simp [InstrClass.single] at h ⊢

/-- Settles O36, by the kind of meaning an instruction has. -/
theorem instructionsWriteOnlyTheirOwn : Obligations.InstructionsWriteOnlyTheirOwn := by
  intro i s
  rcases exec_cases i s with
    ⟨hc, rd, v, hdest, h⟩ | ⟨hc, rd, target, hdest, h⟩ | ⟨hc, c, rs1, rs2, off, h⟩ |
      ⟨hc, rd, rs, imm, w, hdest, h⟩ | ⟨hc, rs1, rs2, imm, w, h⟩
  case inl =>
    obtain ⟨hbranch, hload, hstore⟩ := InstrClass.not_executes_of_single hc
    obtain ⟨-, hregs, hpc, hactive, ⟨hxs, hea, hcnt, hsh⟩, hrest, -⟩ := s.resultIn_writeResult rd v
    refine ⟨_, h, fun r hr => hregs r fun e => hr (e ▸ hdest), fun _ => hpc, fun _ => rfl,
      exec_storesOnlyItsBytes h, ?_, fun _ _ => ⟨hea, hcnt⟩, fun _ => hsh, hactive, hrest⟩
    rw [if_neg (by simp [hbranch, hload, hstore])]
    exact hxs
  case inr.inl =>
    obtain ⟨-, hregs, -, hactive, ⟨hxs, hea, hcnt, hsh⟩, hrest, -⟩ := s.jumpedTo_jumpTo rd (target := target) rfl
    refine ⟨_, h, fun r hr => hregs r fun e => hr (e ▸ hdest), fun hpc => ?_, fun _ => rfl,
      exec_storesOnlyItsBytes h, ?_, fun _ _ => ⟨hea, hcnt⟩, fun _ => hsh, hactive, hrest⟩
    · rcases hc with hc | hc <;> simp [hc, writesPc] at hpc
    · rw [if_neg (by rcases hc with hc | hc <;> simp [hc])]
      exact hxs
  case inr.inr.inl =>
    refine ⟨_, h, fun _ _ => rfl, fun hpc => ?_, fun _ => rfl, exec_storesOnlyItsBytes h, ?_,
      fun _ _ => ⟨rfl, rfl⟩, fun _ => rfl, rfl, ⟨rfl, rfl, rfl, rfl, rfl⟩⟩
    · simp [hc, writesPc] at hpc
    · rw [if_pos (.inl hc)]
      rfl
  case inr.inr.inr.inl =>
    obtain ⟨-, hregs, hpc, hactive, hxs, -, -, hsh, hrest, -⟩ :=
      s.loadedIn_runLoad rd (s.effAddr rs imm) (one_le_beatCount w) (beatCount_le_four w)
    refine ⟨_, h, fun r hr => hregs r fun e => hr (e ▸ hdest), fun _ => hpc, fun _ => s.runLoad_dmem _ _ _,
      exec_storesOnlyItsBytes h, ?_, fun hload => absurd hc hload, fun _ => hsh, hactive, hrest⟩
    rw [if_pos (.inr (.inl hc))]
    exact hxs
  case inr.inr.inr.inr =>
    obtain ⟨hregs, hpc, hactive, hxs, -, -, -, hrest, -⟩ :=
      s.storedAt_runStore (s.effAddr rs1 imm) (s.getReg rs2) (one_le_beatCount w) (beatCount_le_four w)
    refine ⟨_, h, fun r _ => hregs r, fun _ => hpc, fun hstore => absurd hc hstore,
      exec_storesOnlyItsBytes h, ?_, fun _ hstore => absurd hc hstore, fun hstore => absurd hc hstore,
      hactive, hrest⟩
    rw [if_pos (.inr (.inr hc))]
    exact hxs

/-! ### What an instruction reads (R22) -/

theorem State.setReg_setReg_same (s : State) (r : RegIdx) (v a : Word) :
    (s.setReg r v).setReg r a = s.setReg r a := by
  simp [State.setReg]

theorem State.setReg_comm (s : State) {r q : RegIdx} (h : r ≠ q) (v a : Word) :
    (s.setReg r v).setReg q a = (s.setReg q a).setReg r v := by
  have h' : r.toNat ≠ q.toNat := fun e => h (BitVec.eq_of_toNat_eq e)
  simp only [State.setReg]
  rw [Vector.set_comm v a h']

/-- The outcome `t` of an instruction with destination `dest`, with the change of `x[r]` before it: the change
shows, unless the instruction has overwritten it. -/
def State.afterChange (t : State) (dest : Option RegIdx) (r : RegIdx) (v : Word) : State :=
  if dest = some r then t else t.setReg r v

/-- Writing a destination over the change of a register. -/
theorem State.setReg_setReg (s : State) (r q : RegIdx) (v a : Word) :
    (s.setReg r v).setReg q a = (s.setReg q a).afterChange (some q) r v := by
  rw [State.afterChange]
  split
  · next h =>
    cases h
    exact s.setReg_setReg_same _ v a
  · next h => exact s.setReg_comm (fun e => h (congrArg some e.symm)) v a

theorem State.writeResult_setReg (s : State) (r rd : RegIdx) (v a : Word) :
    (s.setReg r v).writeResult rd a = (s.writeResult rd a).afterChange (some rd) r v := by
  rw [State.writeResult, State.setReg_setReg, State.afterChange, State.afterChange]
  split <;> rfl

theorem State.jumpTo_setReg (s : State) (r rd : RegIdx) (v target : Word) :
    (s.setReg r v).jumpTo rd target = (s.jumpTo rd target).afterChange (some rd) r v := by
  rw [State.jumpTo, State.setReg_setReg, State.afterChange, State.afterChange]
  split <;> rfl

theorem State.loadBeat_setReg (s : State) {r rd : RegIdx} (h : r ≠ rd) (v : Word) (b : Byte) :
    (s.setReg r v).loadBeat rd b = (s.loadBeat rd b).setReg r v := by
  rw [State.loadBeat, State.getReg_setReg_of_ne s r rd v h.symm, State.setReg_comm s h]
  rfl

theorem State.loadBeats_setReg {r rd : RegIdx} (h : r ≠ rd) (v : Word) (k : Nat) (s : State) :
    State.loadBeats rd k (s.setReg r v) = (State.loadBeats rd k s).setReg r v := by
  induction k generalizing s with
  | zero => rfl
  | succ k ih =>
    rw [State.loadBeats, State.setReg_readByte, State.setReg_ea, State.loadBeat_setReg s h, ih]
    rfl

theorem State.runLoad_setReg (s : State) (r rd : RegIdx) (v a : Word) (n : Nat) :
    (s.setReg r v).runLoad rd a n = (s.runLoad rd a n).afterChange (some rd) r v := by
  rw [State.runLoad, State.startLoad, State.setReg_setReg, State.afterChange, State.afterChange]
  split
  · rfl
  · next h => exact State.loadBeats_setReg (fun e => h (congrArg some e.symm)) v n (s.startLoad rd a n)

theorem State.storeBeats_setReg (r : RegIdx) (v : Word) (k : Nat) (s : State) :
    State.storeBeats k (s.setReg r v) = (State.storeBeats k s).setReg r v := by
  induction k generalizing s with
  | zero => rfl
  | succ k ih => exact ih (s.writeByte s.ea s.storeByte).storeBeat

theorem State.runStore_setReg (s : State) (r : RegIdx) (v a d : Word) (n : Nat) :
    (s.setReg r v).runStore a d n = (s.runStore a d n).afterChange none r v :=
  State.storeBeats_setReg r v n (s.startStore a d n)

theorem State.runBranch_setReg (s : State) {r rs1 rs2 : RegIdx} (h1 : rs1 ≠ r) (h2 : rs2 ≠ r) (v : Word)
    (c : BranchCond) (off : BitVec 13) :
    (s.setReg r v).runBranch c rs1 rs2 off = (s.runBranch c rs1 rs2 off).afterChange none r v := by
  rw [State.runBranch, State.getReg_setReg_of_ne s r rs1 v h1, State.getReg_setReg_of_ne s r rs2 v h2]
  rfl

theorem State.effAddr_setReg (s : State) {r base : RegIdx} (h : base ≠ r) (v : Word) (imm : BitVec 12) :
    (s.setReg r v).effAddr base imm = s.effAddr base imm := by
  rw [State.effAddr, State.effAddr, State.getReg_setReg_of_ne s r base v h]

/-- An instruction run after a change of `x[r]`, which it does not read. -/
theorem exec_setReg {i : Instr} {r : RegIdx} (s : State) (v : Word) (hr : r ∉ sourcesOf i) :
    ∃ t, exec i s = .next t ∧ exec i (s.setReg r v) = .next (t.afterChange (destOf i) r v) := by
  cases i with
  | add rd rs1 rs2 | sub rd rs1 rs2 | sll rd rs1 rs2 | slt rd rs1 rs2 | sltu rd rs1 rs2 | xor rd rs1 rs2
  | srl rd rs1 rs2 | sra rd rs1 rs2 | or rd rs1 rs2 | and rd rs1 rs2 =>
    simp only [sourcesOf, List.mem_cons, List.not_mem_nil, or_false, not_or] at hr
    obtain ⟨h1, h2⟩ := hr
    have hrs1 := s.getReg_setReg_of_ne r rs1 v (Ne.symm h1)
    have hrs2 := s.getReg_setReg_of_ne r rs2 v (Ne.symm h2)
    refine ⟨_, rfl, congrArg Host.Outcome.next ?_⟩
    rw [hrs1, hrs2]
    exact s.writeResult_setReg r rd v _
  | addi rd rs imm | slti rd rs imm | sltiu rd rs imm | xori rd rs imm | andi rd rs imm | slli rd rs imm
  | srli rd rs imm | srai rd rs imm =>
    have hrs : rs ≠ r := by simpa [sourcesOf, eq_comm] using hr
    refine ⟨_, rfl, congrArg Host.Outcome.next ?_⟩
    rw [s.getReg_setReg_of_ne r rs v hrs]
    exact s.writeResult_setReg r rd v _
  | lui rd imm | auipc rd imm => exact ⟨_, rfl, congrArg Host.Outcome.next (s.writeResult_setReg r rd v _)⟩
  | jal rd off => exact ⟨_, rfl, congrArg Host.Outcome.next (s.jumpTo_setReg r rd v _)⟩
  | jalr rd rs imm =>
    have hrs : rs ≠ r := by simpa [sourcesOf, eq_comm] using hr
    refine ⟨_, rfl, congrArg Host.Outcome.next ?_⟩
    rw [State.jalrTarget, s.getReg_setReg_of_ne r rs v hrs]
    exact s.jumpTo_setReg r rd v _
  | beq rs1 rs2 off | bne rs1 rs2 off | blt rs1 rs2 off | bge rs1 rs2 off | bltu rs1 rs2 off
  | bgeu rs1 rs2 off =>
    simp only [sourcesOf, List.mem_cons, List.not_mem_nil, or_false, not_or] at hr
    obtain ⟨h1, h2⟩ := hr
    exact ⟨_, rfl, congrArg Host.Outcome.next (s.runBranch_setReg (Ne.symm h1) (Ne.symm h2) v _ off)⟩
  | lb rd rs imm | lh rd rs imm | lw rd rs imm =>
    have hrs : rs ≠ r := by simpa [sourcesOf, eq_comm] using hr
    refine ⟨_, rfl, congrArg Host.Outcome.next ?_⟩
    rw [s.effAddr_setReg hrs]
    exact s.runLoad_setReg r rd v _ _
  | sb rs1 rs2 imm | sh rs1 rs2 imm | sw rs1 rs2 imm =>
    simp only [sourcesOf, List.mem_cons, List.not_mem_nil, or_false, not_or] at hr
    obtain ⟨h1, h2⟩ := hr
    refine ⟨_, rfl, congrArg Host.Outcome.next ?_⟩
    rw [s.effAddr_setReg (Ne.symm h1), s.getReg_setReg_of_ne r rs2 v (Ne.symm h2)]
    exact s.runStore_setReg r v _ _ _

/-- Settles O37. -/
theorem instructionsReadOnlyTheirSources : Obligations.InstructionsReadOnlyTheirSources :=
  fun _ s _ v hr => exec_setReg s v hr

end Sys2Proof.Machine
end

section
/-! The cycle counts (spec/70_reset_and_hazards.md R430): a schedule of answers is the fetch beat, the decode
cycle and the execute cycles of one instruction, and by the refinement each cycle after the fetch leaves the
outcome of the instruction as it is until the core is in fetch-ready again. -/

namespace Sys2Proof.Machine

variable {s t : State} {i : Instr}

/-! ### The schedule (R430) -/

/-- The beats an instruction makes are those its word asks for (R61, R332). -/
theorem dataBeats_eq_beatsOf {w : Word} (h : decode w = .instr i) (hc : i.cls = .load ∨ i.cls = .store) :
    dataBeats i = beatsOf w := by
  rcases decode_encodes h with ⟨-, rfl, -⟩ | ⟨-, hshift⟩
  · cases i with
    | lb rd rs imm | lh rd rs imm | lw rd rs imm => rw [beatsOf, encode, functOf_encI]; rfl
    | sb rs1 rs2 imm | sh rs1 rs2 imm | sw rs1 rs2 imm => rw [beatsOf, encode, functOf_encS]; rfl
    | _ => simp [Instr.cls] at hc
  · obtain ⟨rfl, -⟩ | ⟨rfl, -⟩ | ⟨rfl, -⟩ := hshift <;> simp [Instr.cls] at hc

/-- The answers in the execute cycles: none to a branch, one in every `ld` cycles to a load or store. -/
def executeAnswers (i : Instr) (ld : Nat) : List Bool :=
  if i.cls = .branch then [false]
  else (List.replicate (dataBeats i) (List.replicate (ld - 1) false ++ [true])).flatten

theorem answerSchedule_eq (i : Instr) (lp ld : Nat) :
    answerSchedule i lp ld = List.replicate (lp - 1) false ++ true :: false :: executeAnswers i ld := by
  cases i <;> simp [answerSchedule, executeAnswers, Instr.cls, dataBeats]

theorem executeAnswers_length (i : Instr) {ld : Nat} (hld : 1 ≤ ld) :
    (executeAnswers i ld).length = executeCycles i ld := by
  have hbeats : (List.replicate (dataBeats i) (List.replicate (ld - 1) false ++ [true])).flatten.length =
      dataBeats i * ld := by
    simp [List.length_flatten, Nat.sub_add_cancel hld]
  rw [executeAnswers]
  split
  · next hc => rw [executeCycles, hc]; rfl
  · next hc =>
    rw [hbeats]
    cases i <;> simp [executeCycles, Instr.cls, dataBeats] at hc ⊢

theorem executeAnswers_count {ld : Nat} (hc : i.cls ≠ .branch) :
    (executeAnswers i ld).count true = dataBeats i := by
  simp [executeAnswers, hc, List.count_flatten, List.count_replicate]

theorem executeAnswers_eq_nil {ld : Nat} (hc : i.cls ≠ .branch) (hl : i.cls ≠ .load) (hs : i.cls ≠ .store) :
    executeAnswers i ld = [] := by
  cases i <;> simp [executeAnswers, Instr.cls, dataBeats] at hc hl hs ⊢

theorem answerSchedule_length (i : Instr) {lp ld : Nat} (hlp : 1 ≤ lp) (hld : 1 ≤ ld) :
    (answerSchedule i lp ld).length = lp + 1 + executeCycles i ld := by
  rw [answerSchedule_eq, List.length_append, List.length_replicate, List.length_cons, List.length_cons,
    executeAnswers_length i hld]
  omega

/-! ### Runs -/

theorem memRun_append (as bs : List Bool) (s : State) :
    memRun (as ++ bs) s = andThen (memRun as s) (memRun bs) := by
  induction as generalizing s with
  | nil => rfl
  | cons a as ih =>
    simp only [List.cons_append, memRun]
    cases memEdge a s with
    | next u => exact ih u
    | fault r => rfl
    | refused r => rfl

/-- A load or store that gets all its answers ends as its completion does. -/
theorem memRun_eq_finish_of_inBeats (acks : List Bool) (s : State) (h : InBeats s)
    (hcount : acks.count true = s.cnt.toNat) : memRun acks s = s.finish := by
  induction acks generalizing s with
  | nil =>
    have hc : s.cnt = 0#3 := BitVec.eq_of_toNat_eq hcount.symm
    exact (State.finish_of_fr (h.ended hc)).symm
  | cons a as ih =>
    cases a with
    | false =>
      rw [memRun, h.memEdge_false]
      exact ih s h (by simpa using hcount)
    | true =>
      have hcount' : as.count true + 1 = s.cnt.toNat := by simpa using hcount
      have hc : s.cnt ≠ 0#3 := by
        rintro hc
        simp [hc] at hcount'
      have hp := h.pending hc
      have hexec : s.active = false ∧ s.xs ≠ .none := by
        rw [State.phase_eq_xl_iff, State.phase_eq_xs_iff] at hp
        rcases hp with ⟨-, ha, hx⟩ | ⟨-, ha, hx⟩ <;> exact ⟨ha, by simp [hx]⟩
      obtain ⟨u, hedge, hb⟩ := memEdge_true_beatMade hp
      have hleft := hb.cnt_toNat hc
      have hfinish : u.finish = s.finish :=
        memEdge_keeps_finish (by simp [hexec.1]) hedge (by rw [State.fetchOpen_of_xs_ne hexec.2]; rfl)
      rw [memRun, hedge, ← hfinish]
      exact ih u (hb.inBeats h hc) (by omega)

/-- The execute cycles of an instruction bring what its decode cycle has left to its end. -/
theorem memRun_executeAnswers {ld : Nat} (hp : s.phase = .dec) (hxs : s.xs = .none)
    (haligned : s.pcMisaligned = false) (hd : decode s.ir = .instr i) (h : s.decodeEdge i = .next t) :
    memRun (executeAnswers i ld) t = t.finish := by
  obtain ⟨hh, -⟩ := State.phase_eq_dec_iff.1 hp
  have hrest (hc : i.cls ≠ .branch) (hl : i.cls ≠ .load) (hs : i.cls ≠ .store) (ht : t.phase = .fr) :
      memRun (executeAnswers i ld) t = t.finish := by
    rw [executeAnswers_eq_nil hc hl hs, State.finish_of_fr ht]
    rfl
  have hbeats (hc : i.cls = .load ∨ i.cls = .store) (ht : t.phase = .xl ∨ t.phase = .xs)
      (hpc : t.pc = s.pc) (hcnt : t.cnt = BitVec.ofNat 3 (beatsOf s.ir)) :
      memRun (executeAnswers i ld) t = t.finish := by
    have htoNat : t.cnt.toNat = beatsOf s.ir := by rw [hcnt, ofNat_beatsOf_toNat]
    have hpos := one_le_beatsOf s.ir
    refine memRun_eq_finish_of_inBeats _ t ⟨?_, fun _ => ht, fun hzero => ?_⟩ ?_
    · rw [State.pcMisaligned, hpc]
      exact haligned
    · simp [hzero] at htoNat
      omega
    · rw [executeAnswers_count (by rcases hc with hc | hc <;> simp [hc]), dataBeats_eq_beatsOf hd hc, htoNat]
  rcases decode_decodedAs _ _ hd with ⟨hc, hexec⟩ | rfl | rfl | ⟨hc, -⟩ | ⟨hc, -⟩ | ⟨hc, -⟩
  case inl =>
    obtain ⟨hb, hl, hs⟩ := InstrClass.not_executes_of_single hc
    obtain ⟨v, hv⟩ := hexec s
    cases ((State.decodeEdge_of_single hc).trans hv).symm.trans h
    exact hrest hb hl hs (State.writeResult_phase hh hxs _ v)
  case inr.inl =>
    cases h
    exact hrest nofun nofun nofun (State.phase_eq_fr_iff.2 ⟨hh, rfl, hxs⟩)
  case inr.inr.inl =>
    cases h
    exact hrest nofun nofun nofun (State.phase_eq_fr_iff.2 ⟨hh, rfl, hxs⟩)
  case inr.inr.inr.inl =>
    cases (State.decodeEdge_of_branch hc).symm.trans h
    have hxb : s.startBranch.phase = .xb := State.phase_eq_xb_iff.2 ⟨hh, rfl, rfl⟩
    rw [executeAnswers, if_pos hc, memRun, memEdge_of_xb false hxb, State.finish_of_xb hxb]
    rfl
  case inr.inr.inr.inr.inl =>
    cases (State.decodeEdge_of_load hc).symm.trans h
    exact hbeats (.inl hc) (.inl (State.startLoad_phase hh _ _ _)) rfl rfl
  case inr.inr.inr.inr.inr =>
    cases (State.decodeEdge_of_store hc).symm.trans h
    exact hbeats (.inr hc) (.inr (State.startStore_phase hh _ _ _)) rfl rfl

theorem State.decodeEdge_next (hd : decode s.ir = .instr i) : ∃ t, s.decodeEdge i = .next t := by
  rcases State.decodeEdge_cases hd with
    ⟨-, v, h⟩ | ⟨-, ⟨target, h⟩ | h | ⟨a, n, h⟩ | ⟨a, v, n, h⟩⟩ <;> exact ⟨_, h⟩

/-- From its decode cycle on an instruction ends as its completion does. -/
theorem memRun_decode_execute {ld : Nat} (hp : s.phase = .dec) (hxs : s.xs = .none)
    (haligned : s.pcMisaligned = false) (hd : decode s.ir = .instr i) :
    memRun (false :: executeAnswers i ld) s = s.finish := by
  obtain ⟨t, ht⟩ := State.decodeEdge_next hd
  have hedge : memEdge false s = .next t := by
    rw [memEdge_of_dec_instr false hp hxs hd fun _ => haligned, ht, Bool.and_false]
    rfl
  have hfinish : t.finish = s.finish := by
    rw [State.decodeEdge_finish hp hxs hd ht, State.finish_of_dec hp, State.execLatched_of_instr hd]
  rw [memRun, hedge, ← hfinish]
  exact memRun_executeAnswers hp hxs haligned hd ht

/-- Advancing `pc` by 4 keeps it aligned. -/
theorem State.latchFetch_pcMisaligned (s : State) (w : Word) :
    (s.latchFetch w).pcMisaligned = s.pcMisaligned := by
  have hlow : (s.pc + 4#32).extractLsb' 0 2 = s.pc.extractLsb' 0 2 := by
    apply BitVec.eq_of_toNat_eq
    rw [extractLsb'_zero_toNat, extractLsb'_zero_toNat, BitVec.toNat_add]
    simp only [BitVec.toNat_ofNat]
    omega
  rw [State.pcMisaligned, State.latchFetch_pc, hlow, State.pcMisaligned]

/-- A ready core on the schedule of its next instruction ends in the outcome of the step. -/
theorem memRun_answerSchedule (h : Ready s) (hd : decode s.fetchWord = .instr i) (lp ld : Nat) :
    memRun (answerSchedule i lp ld) s = step s := by
  have ⟨hp, haligned, _⟩ := h
  obtain ⟨hh, -, hxs⟩ := State.phase_eq_fr_iff.1 hp
  have hdec : (s.latchFetch s.fetchWord).phase = .dec := State.phase_eq_dec_iff.2 ⟨hh, rfl⟩
  calc memRun (answerSchedule i lp ld) s
    _ = memRun (true :: false :: executeAnswers i ld) s := by
      rw [answerSchedule_eq, memRun_append,
        memRun_replicate_false (memEdge_false_waits (.inl ⟨hp, haligned⟩)), andThen]
    _ = memRun (false :: executeAnswers i ld) (s.latchFetch s.fetchWord) := by
      rw [memRun, memEdge_of_fr true hp haligned]
      rfl
    _ = (s.latchFetch s.fetchWord).finish :=
      memRun_decode_execute hdec hxs ((s.latchFetch_pcMisaligned _).trans haligned) hd
    _ = step s := State.latchFetch_finish_of_ready h

/-- Settles O49: the fetch beat waits, latches, and the rest of the schedule is the completion. -/
theorem instructionsTakeTheTabledCycles : Obligations.InstructionsTakeTheTabledCycles := by
  intro s i lp ld hready hd hlp hld
  refine ⟨memRun_answerSchedule hready hd lp ld, fun previous hprevious => ?_⟩
  have hfetch : fetchCycles lp previous = lp := by
    cases previous with
    | none => rfl
    | some c => simp [fetchCycles, hprevious c rfl]
  rw [answerSchedule_length i hlp hld, instrCycles, hfetch]

/-! ### The overlapped fetch -/

/-- A run depends on its first cycle and on what that cycle leaves. -/
theorem memRun_congr_of_memEdge {u : State} (h : ∀ ack, memEdge ack s = memEdge ack u) {acks : List Bool}
    (hne : acks ≠ []) : memRun acks s = memRun acks u := by
  cases acks with
  | nil => exact absurd rfl hne
  | cons a as => rw [memRun, memRun, h a]

/-- The decode cycle of a single-cycle instruction does to the fetch what fetch-ready does after it. -/
theorem memEdge_single_eq (hp : s.phase = .dec) (hxs : s.xs = .none) (haligned : s.pcMisaligned = false)
    {j : Instr} (hd : decode s.ir = .instr j) (hsingle : j.cls.single = true) :
    ∃ v, exec j s = .next (s.writeResult (rdOf s.ir) v) ∧
      ∀ ack, memEdge ack s = memEdge ack (s.writeResult (rdOf s.ir) v) := by
  obtain ⟨hh, -⟩ := State.phase_eq_dec_iff.1 hp
  rcases State.decodeEdge_cases hd with ⟨-, v, hv⟩ | ⟨hnot, -⟩
  · refine ⟨v, (State.decodeEdge_of_single hsingle).symm.trans hv, fun ack => ?_⟩
    rw [memEdge_of_dec_instr ack hp hxs hd fun _ => haligned, hv, hsingle,
      memEdge_of_fr ack (State.writeResult_phase hh hxs _ v) haligned]
    rfl
  · simp [hsingle] at hnot

/-- Settles O57: run from the decode cycle of `j` or from the state `j` leaves, the schedule of `i` goes the
same way. -/
theorem overlappedFetchSavesOneCycle : Obligations.OverlappedFetchSavesOneCycle := by
  intro s i j lp ld hinv hp htags haligned hdj hsingle hdi hlp hld
  obtain ⟨hh, ha⟩ := State.phase_eq_dec_iff.1 hp
  have hxs := hinv.1 ha
  obtain ⟨v, hexec, hedge⟩ := memEdge_single_eq hp hxs haligned hdj hsingle
  have hready : Ready (s.writeResult (rdOf s.ir) v) := ⟨State.writeResult_phase hh hxs _ v, haligned, htags⟩
  refine ⟨⟨_, hexec, ?run⟩, ?cost⟩
  case run =>
    rw [memRun_congr_of_memEdge hedge (by simp [answerSchedule_eq])]
    exact memRun_answerSchedule hready hdi lp ld
  case cost =>
    rw [answerSchedule_length i hlp hld, instrCycles, fetchCycles, hsingle, if_pos rfl]
    omega

end Sys2Proof.Machine
end

section
/-! Reset, the halt, the refusals and the two ports (spec/10_state.md R44, spec/60_exceptions.md R380, R395,
spec/50_core_fsm.md R347, R356). -/

namespace Sys2Proof.Machine

variable {s t : State}

/-! ### Reset (R44, R410 to R412) -/

@[simp] theorem State.afterReset_getReg (s : State) (r : RegIdx) : s.afterReset.getReg r = 0#32 := by
  simp [State.getReg, State.afterReset]

theorem State.afterReset_phase (s : State) : s.afterReset.phase = .fr := rfl

/-- In the cycle after a reset the core fetches at address 0 (R411). -/
theorem State.afterReset_progRequest_address (s : State) : s.afterReset.progRequest.address = 0 :=
  Nat.zero_mod _

/-- Settles O8: the edge leaves `State.afterReset`, whatever the state and the other inputs are. -/
theorem resetGivesTheResetValues : Obligations.ResetGivesTheResetValues :=
  ⟨fun _ s hr => ⟨s.afterReset, coreEdge_of_reset hr, s.afterReset_getReg, rfl, rfl, rfl, rfl, rfl, rfl, rfl,
    rfl, rfl, rfl, rfl, rfl, s.afterReset_phase,
    ⟨rfl, rfl, s.afterReset_progRequest_address, rfl⟩, rfl⟩, rfl⟩

/-- Settles O9: nothing is in hand, both spaces are empty and `pc` is 0. -/
theorem resetMeetsTheInvariants : Obligations.ResetMeetsTheInvariants :=
  have heven : PcEven State.reset := show BitVec.getLsbD 0#32 0 = false from rfl
  have hrest : AtRest State.reset := ⟨rfl, rfl⟩
  ⟨⟨⟨Cells.wf_nil, Cells.wf_nil⟩, heven, hrest⟩, .of_xs_none rfl nofun heven, .of_atRest hrest⟩

/-! ### The halt (R356, R380) -/

/-- A closed port drives nothing (R98). -/
theorem State.progRequest_of_closed (h : s.fetchOpen = false) : s.progRequest = Request.idle := by
  rw [State.progRequest, controller, h]
  rfl

theorem State.dataRequest_of_closed (h : s.dataOpen = false) : s.dataRequest = Request.idle := by
  rw [State.dataRequest, controller, h]
  rfl

theorem step_of_halted (h : s.halted = true) : step s = .next s := by
  rw [step, if_pos h]

/-- Settles O12: the halt is looked for first, and both ports are closed in it. -/
theorem haltedMachineKeepsEveryRegister : Obligations.HaltedMachineKeepsEveryRegister := by
  intro s h
  have hp : s.phase = .halt := State.phase_eq_halt_iff.2 h
  have hfetch : s.fetchOpen = false := by simp [State.fetchOpen, h]
  have hdata : s.dataOpen = false := by simp [State.dataOpen, h]
  exact ⟨step_of_halted h, fun _ hr => coreEdge_of_halt hr hp, State.progRequest_of_closed hfetch,
    State.dataRequest_of_closed hdata⟩

theorem State.execLatched_of_fatal {r : HaltReason} (h : decode s.ir = .fatal r) :
    s.execLatched = .next s.raiseHalt := by
  rw [State.execLatched, h]

theorem State.execLatched_of_unspecJalr (h : decode s.ir = .unspecJalr) :
    s.execLatched = .refused .unspecJalrFunct := by
  rw [State.execLatched, h]

/-- The reason of a halt is that of the word that `ir` keeps (R381). -/
theorem State.raiseHalt_haltReason {r : HaltReason} (h : decode s.ir = .fatal r) :
    s.raiseHalt.haltReason = some r := by
  simp [State.haltReason, h]

/-- Settles O11: the fetch latches the word and advances `pc`, and its decode cycle raises the halt. -/
theorem fatalWordHaltsTheCore : Obligations.FatalWordHaltsTheCore := by
  intro s r hready hd
  obtain ⟨-, -, hxs⟩ := State.phase_eq_fr_iff.1 hready.1
  have hlatched : decode (s.latchFetch s.fetchWord).ir = .fatal r := hd
  refine ⟨_, (step_of_ready hready).trans (State.execLatched_of_fatal hlatched), rfl, fun _ => rfl, rfl, rfl,
    rfl, ⟨hxs.symm, rfl, rfl, rfl⟩, rfl, rfl, rfl, rfl, State.raiseHalt_haltReason hlatched⟩

/-! ### The refusals (R395) -/

/-- The completion of a latched word is refused for an unspecified JALR word alone (R155). -/
theorem State.execLatched_cases (s : State) :
    (decode s.ir ≠ .unspecJalr ∧ ∃ t, s.execLatched = .next t) ∨
      (decode s.ir = .unspecJalr ∧ s.execLatched = .refused .unspecJalrFunct) := by
  cases hd : decode s.ir with
  | instr i =>
    obtain ⟨t, ht⟩ := everyInstructionCompletes i s
    exact .inl ⟨nofun, t, (State.execLatched_of_instr hd).trans ht⟩
  | fatal r => exact .inl ⟨nofun, _, State.execLatched_of_fatal hd⟩
  | unspecJalr => exact .inr ⟨rfl, State.execLatched_of_unspecJalr hd⟩

/-- Outside the decode cycle the instruction in hand always completes. -/
theorem State.finish_next_of_ne_dec (h : s.phase ≠ .dec) : ∃ t, s.finish = .next t := by
  cases hp : s.phase with
  | halt => exact ⟨_, State.finish_of_halt hp⟩
  | dec => exact absurd hp h
  | xb => exact ⟨_, State.finish_of_xb hp⟩
  | xl => exact ⟨_, State.finish_of_xl hp⟩
  | xs => exact ⟨_, State.finish_of_xs hp⟩
  | fr => exact ⟨_, State.finish_of_fr hp⟩

/-- The word whose completion a step begins with is an unspecified JALR word. -/
def MeetsUnspecJalr (s : State) : Prop :=
  (s.phase = .fr ∧ s.pcMisaligned = false ∧ decode s.fetchWord = .unspecJalr) ∨
    (s.phase = .dec ∧ decode s.ir = .unspecJalr)

/-- A step under a valid configuration that fetches nothing misaligned is refused for an unspecified JALR
word alone. -/
theorem step_cases_of_accepted (htags : s.cfg.tagsOk = true)
    (haligned : s.phase = .fr → s.pcMisaligned = false) :
    (¬ MeetsUnspecJalr s ∧ ∃ t, step s = .next t) ∨
      (MeetsUnspecJalr s ∧ step s = .refused .unspecJalrFunct) := by
  by_cases hfr : s.phase = .fr
  · have hready : Ready s := ⟨hfr, haligned hfr, htags⟩
    have hmeets : MeetsUnspecJalr s ↔ decode s.fetchWord = .unspecJalr := by
      simp [MeetsUnspecJalr, hfr, haligned hfr]
    rw [hmeets, step_of_ready hready]
    exact State.execLatched_cases (s.latchFetch s.fetchWord)
  · by_cases hh : s.halted = true
    · have hhalt := State.phase_eq_halt_iff.2 hh
      exact .inl ⟨by simp [MeetsUnspecJalr, hhalt], s, step_of_halted hh⟩
    · have hstep : step s = s.finish := by simp [step, hh, htags, hfr]
      rw [hstep]
      by_cases hdec : s.phase = .dec
      · have hmeets : MeetsUnspecJalr s ↔ decode s.ir = .unspecJalr := by simp [MeetsUnspecJalr, hdec]
        rw [hmeets, State.finish_of_dec hdec]
        exact s.execLatched_cases
      · exact .inl ⟨by simp [MeetsUnspecJalr, hfr, hdec], State.finish_next_of_ne_dec hdec⟩

theorem step_of_badTags (hh : s.halted = false) (htags : s.cfg.tagsOk = false) :
    step s = .refused .badDestination := by
  simp [step, hh, htags]

theorem step_of_misaligned (htags : s.cfg.tagsOk = true) (hp : s.phase = .fr) (hm : s.pcMisaligned = true) :
    step s = .refused .misalignedFetch := by
  obtain ⟨hh, -⟩ := State.phase_eq_fr_iff.1 hp
  simp [step, hh, htags, hp, hm]

/-- Settles O13: the halt is looked for first, then the tags, then the alignment, then the word. -/
theorem stepStopsOnlyAtTheNamedRefusals : Obligations.StepStopsOnlyAtTheNamedRefusals := by
  intro s
  by_cases hh : s.halted = true
  · have hp := State.phase_eq_halt_iff.2 hh
    simp [step_of_halted hh, hh, hp]
  have hh : s.halted = false := by simpa using hh
  by_cases htags : s.cfg.tagsOk = true
  · by_cases hfetch : s.phase = .fr ∧ s.pcMisaligned = true
    · simp [step_of_misaligned htags hfetch.1 hfetch.2, htags, hfetch]
    · have haligned : s.phase = .fr → s.pcMisaligned = false := by simpa using hfetch
      change _ ∧ _ ∧ (_ ↔ s.cfg.tagsOk = true ∧ MeetsUnspecJalr s) ∧ _
      rcases step_cases_of_accepted htags haligned with ⟨hmeets, t, ht⟩ | ⟨hmeets, ht⟩
      · simp [ht, htags, hfetch, hmeets]
      · simp [ht, htags, hfetch, hmeets]
  · have htags : s.cfg.tagsOk = false := by simpa using htags
    simp [step_of_badTags hh htags, hh, htags]

/-! ### The two ports (R347) -/

@[simp] theorem State.progRequest_cycle (s : State) : s.progRequest.cycle = s.fetchOpen := by
  cases h : s.fetchOpen <;> simp [State.progRequest, controller, Request.idle, h]

@[simp] theorem State.dataRequest_cycle (s : State) : s.dataRequest.cycle = s.dataOpen := by
  cases h : s.dataOpen <;> simp [State.dataRequest, controller, Request.idle, h]

/-- The program port fetches outside the execute states, and the data port works in them alone. -/
theorem State.dataOpen_of_fetchOpen (h : s.fetchOpen = true) : s.dataOpen = false := by
  simp only [State.fetchOpen, Bool.and_eq_true, decide_eq_true_eq] at h
  obtain ⟨⟨-, hxs⟩, -⟩ := h
  simp [State.dataOpen, hxs]

theorem State.progRequest_writeEnable (s : State) : s.progRequest.writeEnable = false := by
  cases h : s.fetchOpen <;> simp [State.progRequest, controller, Request.idle, h]

/-- Settles O44: a port's cycle wire is its being open, and a closed port has the wires of an idle one. -/
theorem portsAreNeverBothOpen : Obligations.PortsAreNeverBothOpen := by
  intro s
  rw [State.progRequest_cycle, State.dataRequest_cycle]
  refine ⟨fun ⟨hfetch, hdata⟩ => ?_, State.progRequest_of_closed, State.dataRequest_of_closed,
    s.progRequest_writeEnable⟩
  rw [State.dataOpen_of_fetchOpen hfetch] at hdata
  cases hdata

end Sys2Proof.Machine
end

section
/-! The closed clocked machine (spec/22_bus_switch.md R116, R125; spec/70_reset_and_hazards.md R431): the
configuration check, direct wiring as the core with its memory, and the cycle in which a fetch waits for the
switch. -/

namespace Sys2Proof.Machine

variable {s t : State}

/-! ### The configuration check (R116, R394) -/

theorem tagsOk_iff (c : Config) : c.tagsOk = true ↔
    c.wiring = .direct ∨ ∀ a : Word, c.progDest.tag a < c.nPorts ∧ c.dataDest.tag a < c.nPorts := by
  cases hw : c.wiring with
  | direct => simp [Config.tagsOk, hw]
  | switched => simp [Config.tagsOk, hw, TagMap.inRange_iff, forall_and]

/-- A tag that fits the wire is carried as it is (R100, R123). -/
theorem State.tagWire_of_lt {m : TagMap} {a : Word} (hw : s.cfg.wiring = .switched)
    (hlt : m.tag a < 2 ^ s.cfg.destW) : s.tagWire m a = m.tag a := by
  rw [State.tagWire, hw]
  exact Nat.mod_eq_of_lt hlt

/-- The core itself looks at no tag (log entry 11). -/
theorem coreEdge_ne_badDestination (inp : CoreInputs) (s : State) :
    coreEdge inp s ≠ .refused .badDestination := by
  intro h
  cases hr : inp.rst with
  | true => cases (coreEdge_of_reset hr).symm.trans h
  | false =>
    by_cases hrefuse : s.fetchOpen = true ∧ s.pcMisaligned = true
    · cases (coreEdge_of_misaligned hr hrefuse.1 hrefuse.2).symm.trans h
    have haligned : s.fetchOpen = true → s.pcMisaligned = false := by simpa using hrefuse
    cases hp : s.phase with
    | halt => cases (coreEdge_of_halt hr hp).symm.trans h
    | dec =>
      cases hd : decode s.ir with
      | instr i =>
        obtain ⟨t, ht⟩ := State.decodeEdge_next hd
        rw [coreEdge_of_dec_instr hr hp hd haligned, ht] at h
        cases h
      | fatal r => cases (coreEdge_of_dec_fatal hr hp hd).symm.trans h
      | unspecJalr => cases (coreEdge_of_dec_unspecJalr hr hp hd).symm.trans h
    | xb => cases (coreEdge_of_xb hr hp).symm.trans h
    | xl => cases (coreEdge_of_xl hr hp).symm.trans h
    | xs => cases (coreEdge_of_xs hr hp).symm.trans h
    | fr => cases (coreEdge_of_fr hr hp (haligned (State.fetchOpen_of_fr hp))).symm.trans h

/-- What follows a core edge in a cycle of the closed machine refuses nothing. -/
theorem andThen_next_eq_refused {σ τ : Type} {o : Host.Outcome σ Fault Refusal} {f : σ → τ} {r : Refusal}
    (h : (andThen o fun t => .next (f t)) = .refused r) : o = .refused r := by
  cases o with
  | next t => cases h
  | fault q => cases h
  | refused q =>
    cases h
    rfl

theorem System.cycle_of_badTags {y : System} (rst : Bool) (h : y.core.cfg.tagsOk = false) :
    y.cycle rst = .refused .badDestination := by
  simp [System.cycle, h]

theorem System.cycle_of_direct {y : System} (rst : Bool) (hw : y.core.cfg.wiring = .direct) :
    y.cycle rst = y.cycleDirect rst := by
  simp [System.cycle, (tagsOk_iff _).2 (.inl hw), hw]

theorem System.cycle_of_switched {y : System} (rst : Bool) (htags : y.core.cfg.tagsOk = true)
    (hw : y.core.cfg.wiring = .switched) : y.cycle rst = y.cycleSwitched rst := by
  simp [System.cycle, htags, hw]

theorem System.cycle_eq_badDestination_iff (y : System) (rst : Bool) :
    y.cycle rst = .refused .badDestination ↔ y.core.cfg.tagsOk = false := by
  refine ⟨fun h => ?_, System.cycle_of_badTags rst⟩
  by_contra hok
  have htags : y.core.cfg.tagsOk = true := by simpa using hok
  cases hw : y.core.cfg.wiring with
  | direct =>
    rw [System.cycle_of_direct rst hw] at h
    exact coreEdge_ne_badDestination _ _ (andThen_next_eq_refused h)
  | switched =>
    rw [System.cycle_of_switched rst htags hw] at h
    exact coreEdge_ne_badDestination _ _ (andThen_next_eq_refused h)

/-- Settles O58: the check is made at the cuts of the two tables, which is at every address, and nothing else
in a cycle refuses with its name. -/
theorem configurationCheckIsExact : Obligations.ConfigurationCheckIsExact := by
  refine ⟨tagsOk_iff, fun s a hw htags hbound => ?_, System.cycle_eq_badDestination_iff⟩
  rcases (tagsOk_iff s.cfg).1 htags with hdirect | hall
  · simp [hw] at hdirect
  · obtain ⟨hprog, hdata⟩ := hall a
    exact ⟨State.tagWire_of_lt hw (by omega), State.tagWire_of_lt hw (by omega)⟩

/-! ### Direct wiring (R330) -/

theorem State.progRequest_of_open (ho : s.fetchOpen = true) :
    s.progRequest = ⟨true, true, adapt s.cfg.iaddrW s.pc.toNat, false, 0, s.tagWire s.cfg.progDest s.pc⟩ := by
  rw [State.progRequest, controller, ho, if_pos rfl]

/-- The instruction storage answers the fetch with the word that the step fetches (R51, R88). -/
theorem deviceRead_progRequest (ho : s.fetchOpen = true) :
    BitVec.ofNat 32 (deviceRead s .progMem s.progRequest) = s.fetchWord := by
  rw [State.progRequest_of_open ho, deviceRead, BitVec.ofNat_toNat, BitVec.setWidth_eq]
  rfl

/-- The data storage answers a beat with the byte that the step reads (R52, R88). -/
theorem deviceRead_dataRequest (ho : s.dataOpen = true) :
    BitVec.ofNat 8 (deviceRead s .dataMem s.dataRequest) = s.readByte s.ea := by
  rw [State.dataRequest_of_open ho, deviceRead, BitVec.ofNat_toNat, BitVec.setWidth_eq]
  rfl

theorem deviceCommit_of_not_isRequest {r : Request} (h : r.isRequest = false) (t : State) (d : PortDevice)
    (ack : Bool) : deviceCommit t d r ack = t := by
  simp [deviceCommit, h]

/-- The program port stores nothing. -/
theorem deviceCommit_progRequest (s t : State) (d : PortDevice) (ack : Bool) :
    deviceCommit t d s.progRequest ack = t := by
  simp [deviceCommit, State.progRequest_writeEnable]

/-- A write transfer stores the byte of the beat (R96). -/
theorem deviceCommit_dataRequest (hcfg : t.cfg = s.cfg) (ack : Bool) :
    deviceCommit t .dataMem s.dataRequest ack =
      if s.dataWrite && ack then t.writeByte s.ea s.storeByte else t := by
  cases ho : s.dataOpen with
  | false =>
    have hwrite : s.dataWrite = false := by simp [State.dataWrite, ho]
    rw [deviceCommit_of_not_isRequest (by simp [ho]), hwrite]
    rfl
  | true =>
    rw [State.dataRequest_of_open ho]
    cases hw : s.dataWrite <;> cases ack <;> simp [deviceCommit, Request.isRequest]
    rw [State.writeByte, hcfg]
    rfl

/-- A data beat leaves the configuration alone. -/
theorem coreEdge_cfg_of_dataOpen {inp : CoreInputs} (hactive : s.active = true → s.xs = .none)
    (hr : inp.rst = false) (ho : s.dataOpen = true) (h : coreEdge inp s = .next t) : t.cfg = s.cfg := by
  rcases State.dataOpen_cases hactive ho with hp | hp
  · cases (coreEdge_of_xl hr hp).symm.trans h
    split <;> rfl
  · cases (coreEdge_of_xs hr hp).symm.trans h
    split <;> rfl

/-- Settles O50: an open port's responder gives the core what `memEdge` gives it, what a closed port's gives is
ignored, and the one write that is committed is that of the data port. -/
theorem directSystemIsTheCoreWithItsMemory : Obligations.DirectSystemIsTheCoreWithItsMemory := by
  intro y z hw hinv h
  have ⟨hactive, _⟩ := hinv
  rw [System.cycle_of_direct false hw] at h
  obtain ⟨t, hedge, hz⟩ := andThen_eq_next h
  cases hz
  refine ⟨?_, rfl, rfl⟩
  generalize hs : y.core = s at hedge hinv hactive ⊢
  have hinputs : coreEdge ⟨false, s.fetchOpen && (if s.dataOpen then y.ack 1 else y.ack 0), s.fetchWord,
      s.dataOpen && (if s.dataOpen then y.ack 1 else y.ack 0), s.readByte s.ea⟩ s = .next t := by
    rw [← hedge]
    refine answersOutsideATransferAreIgnored _ _ s hinv rfl (fun ho => ⟨?_, fun _ => ?_⟩) (fun ho => ?_)
      fun ho _ _ => ?_
    · simp [inputsOf, ho, State.dataOpen_of_fetchOpen ho]
    · exact (deviceRead_progRequest ho).symm
    · simp [inputsOf, ho]
    · exact (deviceRead_dataRequest ho).symm
  rw [memEdge, hinputs, andThen, deviceCommit_progRequest]
  cases ho : s.dataOpen with
  | false =>
    have hwrite : s.dataWrite = false := by simp [State.dataWrite, ho]
    rw [deviceCommit_of_not_isRequest (by simp [ho]), hwrite]
    rfl
  | true => rw [deviceCommit_dataRequest (coreEdge_cfg_of_dataOpen hactive rfl ho hedge), if_pos rfl]

/-! ### Waiting for the switch (R114, R431) -/

theorem Request.idle_narrow (addrW dataW : Nat) : Request.idle.narrow addrW dataW = Request.idle := by
  simp [Request.narrow, Request.idle, adapt]

/-- With the switch on the closed data port no output carries a request (R112, R115). -/
theorem State.portRequest_not_isRequest (hsel : s.select = .m1) (ho : s.dataOpen = false) (j : Nat) :
    (s.portRequest j).isRequest = false := by
  cases h : (s.portRequest j).isRequest with
  | false => rfl
  | true =>
    obtain ⟨-, -, hreq⟩ := switchOutput_isRequest h
    rw [hsel, selectedMaster, State.masterInput, State.dataRequest_of_closed ho, Request.idle_narrow] at hreq
    cases hreq

/-- A cycle in which no output carries a request stores nothing. -/
theorem System.commit_of_not_isRequest {y : System} (h : ∀ j, (y.core.portRequest j).isRequest = false)
    (n : Nat) (t : State) : System.commit y n t = t := by
  induction n with
  | zero => rfl
  | succ n ih => rw [System.commit, ih, deviceCommit_of_not_isRequest (h n)]

/-- Settles O53: the waiting program port gets no answer, the selected data port asks for nothing, and so the
switch hands over. -/
theorem fetchWaitsOneCycleForTheSwitch : Obligations.FetchWaitsOneCycleForTheSwitch := by
  intro y hw htags hp haligned hsel
  obtain ⟨-, -, hxs⟩ := State.phase_eq_fr_iff.1 hp
  have hclosed : y.core.dataOpen = false := by simp [State.dataOpen, hxs]
  have hidle : y.core.masterInput .m1 = Request.idle := by
    rw [State.masterInput, State.dataRequest_of_closed hclosed, Request.idle_narrow]
  have hedge (d : Response) : coreEdge (inputsOf false (switchReturn y.core.cfg.nPorts y.core.select .m0
      (y.core.masterInput .m0) (y.core.masterInput .m1) y.core.cfg.m0DataW y.portResponse) d) y.core =
      .next y.core := by
    have hwaiting : switchReturn y.core.cfg.nPorts .m1 .m0 (y.core.masterInput .m0) (y.core.masterInput .m1)
        y.core.cfg.m0DataW y.portResponse = Response.none := switchReturn_waiting (sel := .m1)
    rw [hsel, hwaiting]
    exact coreEdge_fr_waits rfl hp haligned rfl
  have hcommit (n : Nat) (t : State) : System.commit y n t = t :=
    System.commit_of_not_isRequest (State.portRequest_not_isRequest hsel hclosed) n t
  have hnext : nextSelect y.core.select (y.core.masterInput .m0) (y.core.masterInput .m1) = .m0 := by
    rw [hsel, nextSelect, selectedMaster, hidle]
    rfl
  rw [System.cycle_of_switched false htags hw]
  simp only [System.cycleSwitched, hedge, andThen, hcommit, hnext, Bool.false_eq_true, if_false]
  exact ⟨_, rfl, rfl⟩

end Sys2Proof.Machine
end
